-- ==== Sys2Proof/Word.lean ====
section
/-!
DEFINITION. The word types of the block (00 R8, R9): a byte, a 16-bit two's-complement packet operand,
a 2-bit gray level. A coordinate register is an integer within `COORD_BITS` bits (00 R10).
-/

namespace Sys2Proof

/-- A byte, 8 bits, 0 to 255 (00 R8). -/
abbrev Byte := BitVec 8

/-- A 16-bit packet field (30 R95); its integer value is two's complement, `BitVec.toInt` (00 R9). -/
abbrev S16 := BitVec 16

/-- A grayscale level, 0 = black to 3 = brightest (10 R22). -/
abbrev Level := BitVec 2

end Sys2Proof
end

