-- ==== Sys2Proof/Config.lean ====
section
/-!
DEFINITION. The constants of 00 R6, the parameters of 00 R7 as one plain structure, and the free
values (opaque constants, nothing in Lean can evaluate them) of the points the spec leaves open.
-/

namespace Sys2Proof

/-- Bytes of text a ScrollLine holds (00 R6 SCROLL_CAP). -/
abbrev scrollCap : Nat := 63

/-- Each hold of the reset pulse, in milliseconds (00 R6 RESET_HOLD_MS). -/
abbrev resetHoldMs : Nat := 150

/-- The answer of the transport environment to one attempt (40 R121). -/
inductive Answer where
  | ok
  | fail
  deriving DecidableEq, Repr, Inhabited

/-- The direction of a ScrollLine: +1 (bit 0) or -1 (bit 1) (10 R32). -/
inductive Direction where
  | plus
  | minus
  deriving DecidableEq, Repr, Inhabited

/-- How a row of a refresh is framed (41 R167). -/
inductive RowFraming where
  | cmdPrefixed
  | dataOnly
  deriving DecidableEq, Repr, Inhabited

/-- The font: 576 bytes, byte `6*(c-32) + k` is column `k` of glyph `c` (20 R50, R53). -/
abbrev Font := Vector Byte 576

/-- The payloads of the 19 init entries, entry 1 first (40 R140). -/
abbrev InitPayload := Vector (List Byte) 19

/-- The four bytes of the full-panel address window (41 R166). -/
structure Window where
  colStart : Byte
  colEnd : Byte
  rowStart : Byte
  rowEnd : Byte
  deriving DecidableEq, Repr, Inhabited

/-- The nine parameters of 00 R7, as data. A state carries them (`State.cfg`), so that a claim about
every state quantifies over them and a claim may fix one in its premise; no step changes them. -/
structure Config where
  font : Font
  initPayload : InitPayload
  winFull : Window
  /-- Retries after the first attempt of a transaction (40 R122). -/
  retryMax : Nat
  retryDelayMs : Nat
  rowFraming : RowFraming
  /-- The number of scroll slots, 1 to 256 (10 R31). -/
  nScroll : Nat
  /-- PKT_MAX: the bytes of the longest packet the port can present (30 R81). -/
  pktMax : Nat
  /-- COORD_BITS: the bits of a coordinate register, two's complement (00 R10). -/
  coordBits : Nat
  deriving DecidableEq, Repr

/-- FONT of the block that reset leaves, OPEN in the spec (00 R7, 93 U7): a free value. Log 1. -/
opaque Config.openFont : Font

/-- INIT_PAYLOAD of the block that reset leaves, OPEN (00 R7, 93 U8): a free value. Log 1. -/
opaque Config.openInitPayload : InitPayload

/-- WIN_FULL of the block that reset leaves, OPEN (00 R7, 93 U9): a free value. Log 1. -/
opaque Config.openWinFull : Window

/-- RETRY_MAX of the block that reset leaves, OPEN (00 R7, 93 U10): a free value. Log 1. -/
opaque Config.openRetryMax : Nat

/-- RETRY_DELAY_MS of the block that reset leaves, OPEN (00 R7, 93 U10): a free value. Log 1. -/
opaque Config.openRetryDelayMs : Nat

/-- The parameters at reset: the five OPEN ones free, the four others at the spec's choice (00 R7,
92 D3, D13, D15, D28). Log 1, log 15. -/
def Config.installed : Config where
  font := Config.openFont
  initPayload := Config.openInitPayload
  winFull := Config.openWinFull
  retryMax := Config.openRetryMax
  retryDelayMs := Config.openRetryDelayMs
  rowFraming := .cmdPrefixed
  nScroll := 4
  pktMax := 32768
  coordBits := 16

/-- The free stream of the transport's answers (40 R121, 93 U3): the `n`-th answer drawn from it.
Log 2. -/
opaque Config.freeAnswer : Nat → Answer

/-- GRID after the `n`-th reset of the block, per cell address: unspecified (10 R38, 93 U4). Log 3. -/
opaque Config.freeLevel : Nat → Nat → Level

/-- `SCR[k].pw` after the `n`-th reset of the block, before it is reduced to the register's width:
unspecified (10 R38, 93 U5). Log 4. -/
opaque Config.freeSlotPw : Nat → Nat → Int

/-- `SCR[k].offset` after the `n`-th reset of the block, before it is reduced to the register's width:
unspecified (10 R38, 93 U5). Log 4. -/
opaque Config.freeSlotOffset : Nat → Nat → Int

/-- `SCR[k].dir` after the `n`-th reset of the block: unspecified (10 R38, 93 U5). Log 4. -/
opaque Config.freeSlotDir : Nat → Nat → Direction

/-- `SCR[k].y` after the `n`-th reset of the block, before it is reduced to the register's width:
unspecified (10 R38, 93 U5). Log 4. -/
opaque Config.freeSlotY : Nat → Nat → Int

end Sys2Proof
end

