-- ==== Sys2Proof/Machine/Operands.lean ====
section
/-!
DEFINITION. Operand forms and value computations: the integer readings of 00 R9, narrowing (30 R95),
glyph columns (20 R53), the gray-level expansion (30 R104) and the pixels of the packed bitmaps
(30 R106, R107).
-/

namespace Sys2Proof.Machine

/-- An integer reduced to `bits` bits of two's complement, as a value written to a coordinate register
is (00 R10); at `COORD_BITS` = 16 it is `wrap16(n)`, `((n + 32768) mod 65536) - 32768` (00 R9). Log 14. -/
def wrapTo (bits : Nat) (n : Int) : Int := (n + 2 ^ (bits - 1)) % 2 ^ bits - 2 ^ (bits - 1)

/-- `sext_16(v)`: a 16-bit packet field read as s16 (00 R9, 30 R95). -/
def sext16 (v : S16) : Int := v.toInt

/-- `tdiv(a, b)`: integer division truncating toward zero (00 R9, 92 D5). -/
def tdiv (a b : Int) : Int := Int.tdiv a b

/-- `v & 3` as a 2-bit level (41 R160, 43 R203). -/
def low2 (v : Nat) : Level := BitVec.ofNat 2 v

/-- A flag byte: true when not zero (30 R95, 92 D7). -/
def flagOf (b : Byte) : Bool := b != 0

/-- The step of a direction (10 R32). -/
def dirStep (d : Direction) : Int :=
  match d with
  | .plus => 1
  | .minus => -1

/-- A character code that has a glyph: 32 to 127 (20 R54). -/
def isGlyph (c : Byte) : Bool := 32 ≤ c.toNat && c.toNat ≤ 127

/-- `FONT[c][k]`, asked only for codes 32 to 127 and columns 0 to 5 (20 R53, R54). -/
def glyphColumn (font : Font) (c : Byte) (k : Nat) : Byte := (font[6 * (c.toNat - 32) + k]?).getD 0

/-- `(FONT[c][k] >> r) & 1` (42 R180): the pixel of glyph `c` at column `k`, row `r`. -/
def glyphBit (font : Font) (c : Byte) (k r : Nat) : Bool := (glyphColumn font c k).getLsbD r

/-- `EXP[level]` (30 R104). -/
def expand (v : Level) : Byte :=
  match v.toNat with
  | 0 => 0x00
  | 1 => 0x55
  | 2 => 0xAA
  | _ => 0xFF

/-- Bytes of one row of a 4-bit bitmap, `tdiv(w + 1, 2)` (45 R246). -/
def stride4 (w : Nat) : Nat := (w + 1) / 2

/-- Bytes of one row of a 2-bit bitmap, `tdiv(w + 3, 4)` (45 R250). -/
def stride2 (w : Nat) : Nat := (w + 3) / 4

/-- Byte `j` of a bitmap. -/
def dataByte (data : List Byte) (j : Nat) : Nat := (data.getD j 0).toNat

/-- The level of pixel `q` of row `r` of a 4-bit bitmap: the upper two bits of its nibble, the high
nibble first (30 R106, 45 R247). -/
def pixel4 (data : List Byte) (w r q : Nat) : Nat :=
  let b := dataByte data (r * stride4 w + q / 2)
  let nib := if q % 2 = 0 then b >>> 4 else b &&& 15
  nib >>> 2

/-- The level of pixel `q` of row `r` of a 2-bit bitmap, most significant pair first (30 R107,
45 R251). -/
def pixel2 (data : List Byte) (w r q : Nat) : Nat :=
  let b := dataByte data (r * stride2 w + q / 4)
  (b >>> (6 - 2 * (q % 4))) &&& 3

end Sys2Proof.Machine
end

