-- ==== Sys2Proof/Syntax.lean ====
section
/-!
DEFINITION. The instructions: one constructor per row of spec/opcode_table.json, and the
transactions of the transport (40 R120).
-/

namespace Sys2Proof

/-- The two sides of the opcode table (30 R110). -/
inductive Side where
  | host
  | controller
  deriving DecidableEq, Repr

/-- One transaction on the transport (40 R120, 30 R101). -/
inductive Transaction where
  /-- `CMD(op)`: one command byte. -/
  | cmd (op : Byte)
  /-- `CMDDATA(op, payload)`: command byte, then payload bytes under the data level. -/
  | cmdData (op : Byte) (payload : List Byte)
  /-- `DATA(payload)`: only under `ROW_FRAMING = DATA_ONLY`. -/
  | data (payload : List Byte)
  deriving DecidableEq, Repr

/-- Every row of the opcode table: the 26 host commands (30 R83) and the 26 controller command bytes
with the payload that follows them (30 R100). -/
inductive Instr where
  -- host commands, 30 R83
  | setpixel (x y : S16) (level : Byte)
  | clear
  | drawchar (x y : S16) (c : Byte)
  | drawchars (x y : S16) (c size color : Byte)
  | drawstrc (s : List Byte)
  | drawstroff (y offset : S16) (s : List Byte)
  | txtinit
  | setcursor (x y : S16)
  | setsize (b : Byte)
  | setcolor (b : Byte)
  | setwrap (b : Byte)
  | printchar (c : Byte)
  | printstr (s : List Byte)
  | drawstr (x y : S16) (s : List Byte)
  | scrinit (slot : Byte) (y : S16) (text : List Byte)
  | scrtick (slot : Byte)
  | blit4 (x y : S16) (w h : Byte) (data : List Byte)
  | blit2 (x y : S16) (w h : Byte) (data : List Byte)
  | refresh
  | clrrefresh
  | sendcmd (cop : Byte)
  | sendcmdd (cop : Byte) (payload : List Byte)
  | hwreset
  | setwin (colStart colEnd rowStart rowEnd : Byte)
  | setpower (b : Byte)
  | init
  -- controller command bytes, 30 R100
  | cSetcol (first last : Byte)
  | cSetrow (first last : Byte)
  | cWriteram (payload : List Byte)
  | cDispoff
  | cDispon
  | cEntireNormal
  | cEntireOn
  | cLock (payload : List Byte)
  | cClkdiv (payload : List Byte)
  | cMux (payload : List Byte)
  | cOffset (payload : List Byte)
  | cFuncsel (payload : List Byte)
  | cStartline (payload : List Byte)
  | cRemap (payload : List Byte)
  | cMastercontrast (payload : List Byte)
  | cContrast (payload : List Byte)
  | cPhase (payload : List Byte)
  | cPrecharge (payload : List Byte)
  | cEnha (payload : List Byte)
  | cVcomh (payload : List Byte)
  | cNormal (payload : List Byte)
  | cExitpartial (payload : List Byte)
  | cEnhb (payload : List Byte)
  | cGpio (payload : List Byte)
  | cDefgray (payload : List Byte)
  | cPrecharge2 (payload : List Byte)
  deriving DecidableEq, Repr

end Sys2Proof
end

