-- ==== Sys2Proof/WellFormed.lean ====
section
/-!
DEFINITION. Which terms of `Instr` are instructions: a host command whose packet the port can present
and whose tail has the length its format requires (30 R84 to R94, R81), and a controller command whose
payload is one the block sends with that byte (30 R100).
-/

namespace Sys2Proof

/-- Which side of the table a row belongs to (30 R110). -/
def Instr.side (i : Instr) : Side :=
  match i with
  | .setpixel _ _ _ | .clear | .drawchar _ _ _ | .drawchars _ _ _ _ _ | .drawstrc _
  | .drawstroff _ _ _ | .txtinit | .setcursor _ _ | .setsize _ | .setcolor _ | .setwrap _
  | .printchar _ | .printstr _ | .drawstr _ _ _ | .scrinit _ _ _ | .scrtick _
  | .blit4 _ _ _ _ _ | .blit2 _ _ _ _ _ | .refresh | .clrrefresh | .sendcmd _ | .sendcmdd _ _
  | .hwreset | .setwin _ _ _ _ | .setpower _ | .init => .host
  | .cSetcol _ _ | .cSetrow _ _ | .cWriteram _ | .cDispoff | .cDispon | .cEntireNormal
  | .cEntireOn | .cLock _ | .cClkdiv _ | .cMux _ | .cOffset _ | .cFuncsel _ | .cStartline _
  | .cRemap _ | .cMastercontrast _ | .cContrast _ | .cPhase _ | .cPrecharge _ | .cEnha _
  | .cVcomh _ | .cNormal _ | .cExitpartial _ | .cEnhb _ | .cGpio _ | .cDefgray _
  | .cPrecharge2 _ => .controller

/-- The checks, one per shape, under the parameters `cfg`: string tails within `PKT_MAX` (30 R87, R88,
R91, R92), bitmap data of exactly `h * stride` bytes within `PKT_MAX` (30 R93), a raw payload of at least one byte
within `PKT_MAX` (30 R94), and for the controller's write-RAM byte no payload or one row (30 R100). Every
other term is an instruction. -/
def Instr.wellFormed (cfg : Config) (i : Instr) : Bool :=
  match i with
  | .drawstrc s | .printstr s => decide (s.length + 1 ≤ cfg.pktMax)
  | .drawstroff _ _ s | .drawstr _ _ s => decide (s.length + 5 ≤ cfg.pktMax)
  | .scrinit _ _ text => decide (text.length + 4 ≤ cfg.pktMax)
  | .blit4 _ _ w h data =>
    decide (data.length = h.toNat * Machine.stride4 w.toNat ∧ data.length + 7 ≤ cfg.pktMax)
  | .blit2 _ _ w h data =>
    decide (data.length = h.toNat * Machine.stride2 w.toNat ∧ data.length + 7 ≤ cfg.pktMax)
  | .sendcmdd _ payload => decide (1 ≤ payload.length ∧ payload.length + 2 ≤ cfg.pktMax)
  | .cWriteram payload => decide (payload.length = 0 ∨ payload.length = 256)
  | .setpixel _ _ _ | .clear | .drawchar _ _ _ | .drawchars _ _ _ _ _ | .txtinit
  | .setcursor _ _ | .setsize _ | .setcolor _ | .setwrap _ | .printchar _ | .scrtick _
  | .refresh | .clrrefresh | .sendcmd _ | .hwreset | .setwin _ _ _ _ | .setpower _ | .init
  | .cSetcol _ _ | .cSetrow _ _ | .cDispoff | .cDispon | .cEntireNormal | .cEntireOn
  | .cLock _ | .cClkdiv _ | .cMux _ | .cOffset _ | .cFuncsel _ | .cStartline _ | .cRemap _
  | .cMastercontrast _ | .cContrast _ | .cPhase _ | .cPrecharge _ | .cEnha _ | .cVcomh _
  | .cNormal _ | .cExitpartial _ | .cEnhb _ | .cGpio _ | .cDefgray _ | .cPrecharge2 _ => true

end Sys2Proof
end

