-- ==== Sys2Proof/Decode.lean ====
section
/-!
DEFINITION. The two decoders of 30 R110, total on any bytes: host packets (30 R82) and the command
byte and payload of a controller transaction (30 R100); after them the encoder, the opcode table's
word numbering and the transactions of the controller rows.
-/

namespace Sys2Proof

/-- Why bytes are no instruction. -/
inductive DecodeError where
  /-- No byte at all, or more than `PKT_MAX` (`Machine.readPacket`): it cannot be presented (30 R81). -/
  | notPresentable
  /-- Byte 0 is not in the table of that side (30 R96). -/
  | illegalOpcode
  /-- The length is not the one the format requires (30 R97). -/
  | malformed
  deriving DecidableEq, Repr

/-- A 16-bit field, low byte first (30 R95). -/
def joinBytes (lo hi : Byte) : S16 := hi ++ lo

/-- The byte of a 16-bit field at the lower packet position. -/
def loByte (v : S16) : Byte := v.extractLsb' 0 8

/-- The byte of a 16-bit field at the higher packet position. -/
def hiByte (v : S16) : Byte := v.extractLsb' 8 8

/-- Format F_NONE (30 R84); the argument is what stands after byte 0, here and below. -/
def formNone (i : Instr) (rest : List Byte) : Except DecodeError Instr :=
  match rest with
  | [] => .ok i
  | _ => .error .malformed

/-- Format F_XYB (30 R85). -/
def formXYB (k : S16 → S16 → Byte → Instr) (rest : List Byte) : Except DecodeError Instr :=
  match rest with
  | [x0, x1, y0, y1, b] => .ok (k (joinBytes x0 x1) (joinBytes y0 y1) b)
  | _ => .error .malformed

/-- Format F_XYBBB (30 R86). -/
def formXYBBB (k : S16 → S16 → Byte → Byte → Byte → Instr) (rest : List Byte) :
    Except DecodeError Instr :=
  match rest with
  | [x0, x1, y0, y1, c, size, color] => .ok (k (joinBytes x0 x1) (joinBytes y0 y1) c size color)
  | _ => .error .malformed

/-- Formats F_YOS and F_XYS: two 16-bit fields, then the string (30 R88, R91). -/
def formXYS (k : S16 → S16 → List Byte → Instr) (rest : List Byte) : Except DecodeError Instr :=
  match rest with
  | x0 :: x1 :: y0 :: y1 :: s => .ok (k (joinBytes x0 x1) (joinBytes y0 y1) s)
  | _ => .error .malformed

/-- Format F_XY (30 R89). -/
def formXY (k : S16 → S16 → Instr) (rest : List Byte) : Except DecodeError Instr :=
  match rest with
  | [x0, x1, y0, y1] => .ok (k (joinBytes x0 x1) (joinBytes y0 y1))
  | _ => .error .malformed

/-- Format F_B (30 R90). -/
def formB (k : Byte → Instr) (rest : List Byte) : Except DecodeError Instr :=
  match rest with
  | [b] => .ok (k b)
  | _ => .error .malformed

/-- Format F_KYS (30 R92). -/
def formKYS (k : Byte → S16 → List Byte → Instr) (rest : List Byte) : Except DecodeError Instr :=
  match rest with
  | slot :: y0 :: y1 :: text => .ok (k slot (joinBytes y0 y1) text)
  | _ => .error .malformed

/-- Format F_BLIT with its bytes per row, exactly `h * stride` bytes of data (30 R93). -/
def formBlit (stride : Nat → Nat) (k : S16 → S16 → Byte → Byte → List Byte → Instr)
    (rest : List Byte) : Except DecodeError Instr :=
  match rest with
  | x0 :: x1 :: y0 :: y1 :: w :: h :: data =>
    if data.length = h.toNat * stride w.toNat then
      .ok (k (joinBytes x0 x1) (joinBytes y0 y1) w h data)
    else .error .malformed
  | _ => .error .malformed

/-- Format F_BP: a command byte and at least one payload byte (30 R94). -/
def formBP (k : Byte → List Byte → Instr) (rest : List Byte) : Except DecodeError Instr :=
  match rest with
  | cop :: p :: payload => .ok (k cop (p :: payload))
  | _ => .error .malformed

/-- Format F_WIN (30 R94). -/
def formWin (k : Byte → Byte → Byte → Byte → Instr) (rest : List Byte) : Except DecodeError Instr :=
  match rest with
  | [cs, ce, rs, re] => .ok (k cs ce rs re)
  | _ => .error .malformed

/-- The table of 30 R83: byte 0 selects the command and its format. -/
def decodeHost (op : Byte) (rest : List Byte) : Except DecodeError Instr :=
  match op.toNat with
  | 0x10 => formXYB .setpixel rest
  | 0x11 => formNone .clear rest
  | 0x20 => formXYB .drawchar rest
  | 0x21 => formXYBBB .drawchars rest
  | 0x22 => .ok (.drawstrc rest)
  | 0x23 => formXYS .drawstroff rest
  | 0x30 => formNone .txtinit rest
  | 0x31 => formXY .setcursor rest
  | 0x32 => formB .setsize rest
  | 0x33 => formB .setcolor rest
  | 0x34 => formB .setwrap rest
  | 0x35 => formB .printchar rest
  | 0x36 => .ok (.printstr rest)
  | 0x37 => formXYS .drawstr rest
  | 0x40 => formKYS .scrinit rest
  | 0x41 => formB .scrtick rest
  | 0x50 => formBlit Machine.stride4 .blit4 rest
  | 0x51 => formBlit Machine.stride2 .blit2 rest
  | 0x60 => formNone .refresh rest
  | 0x61 => formNone .clrrefresh rest
  | 0x80 => formB .sendcmd rest
  | 0x81 => formBP .sendcmdd rest
  | 0x82 => formNone .hwreset rest
  | 0x83 => formWin .setwin rest
  | 0x84 => formB .setpower rest
  | 0x85 => formNone .init rest
  | _ => .error .illegalOpcode

/-- A host packet to its command (30 R80, R82): decoding reads the packet and nothing else. Its longest
length is the port's (`Machine.presentable`, 30 R81). -/
def decodePacket (pkt : List Byte) : Except DecodeError Instr :=
  match pkt with
  | [] => .error .notPresentable
  | op :: rest => decodeHost op rest

/-- A payload of exactly two bytes, first and last of a range (30 R102). -/
def formRange (k : Byte → Byte → Instr) (payload : List Byte) : Except DecodeError Instr :=
  match payload with
  | [a, b] => .ok (k a b)
  | _ => .error .malformed

/-- The controller's command bytes (30 R100), byte 0 of a transaction followed by its payload. -/
def decodeController (op : Byte) (payload : List Byte) : Except DecodeError Instr :=
  match op.toNat with
  | 0x15 => formRange .cSetcol payload
  | 0x75 => formRange .cSetrow payload
  | 0x5C =>
    if payload.length = 0 ∨ payload.length = 256 then .ok (.cWriteram payload)
    else .error .malformed
  | 0xAE => formNone .cDispoff payload
  | 0xAF => formNone .cDispon payload
  | 0xA4 => formNone .cEntireNormal payload
  | 0xA5 => formNone .cEntireOn payload
  | 0xFD => .ok (.cLock payload)
  | 0xB3 => .ok (.cClkdiv payload)
  | 0xCA => .ok (.cMux payload)
  | 0xA2 => .ok (.cOffset payload)
  | 0xAB => .ok (.cFuncsel payload)
  | 0xA1 => .ok (.cStartline payload)
  | 0xA0 => .ok (.cRemap payload)
  | 0xC7 => .ok (.cMastercontrast payload)
  | 0xC1 => .ok (.cContrast payload)
  | 0xB1 => .ok (.cPhase payload)
  | 0xBB => .ok (.cPrecharge payload)
  | 0xB4 => .ok (.cEnha payload)
  | 0xBE => .ok (.cVcomh payload)
  | 0xA6 => .ok (.cNormal payload)
  | 0xA9 => .ok (.cExitpartial payload)
  | 0xD1 => .ok (.cEnhb payload)
  | 0xB5 => .ok (.cGpio payload)
  | 0xB9 => .ok (.cDefgray payload)
  | 0xB6 => .ok (.cPrecharge2 payload)
  | _ => .error .illegalOpcode

/-- The bytes of a controller transaction, command byte first (30 R101), to its row. -/
def decodeWire (bytes : List Byte) : Except DecodeError Instr :=
  match bytes with
  | [] => .error .notPresentable
  | op :: payload => decodeController op payload

/-- The transaction that carries command byte `op` and `payload`: `CMD` when there is no payload,
`CMDDATA` otherwise (40 R134, R120). -/
def transactionOf (op : Byte) (payload : List Byte) : Transaction :=
  match payload with
  | [] => .cmd op
  | p :: ps => .cmdData op (p :: ps)

/-- What the controller side reads in a transaction; a `DATA` transaction carries no command byte. -/
def decodeTransaction (t : Transaction) : Except DecodeError Instr :=
  match t with
  | .cmd op => decodeWire [op]
  | .cmdData op payload => decodeWire (op :: payload)
  | .data _ => .error .illegalOpcode

/-- The bytes of an instruction, opcode first: a host packet (30 R84 to R94) or the bytes of a
controller transaction (30 R100). -/
def encode (i : Instr) : List Byte :=
  match i with
  | .setpixel x y b => [0x10, loByte x, hiByte x, loByte y, hiByte y, b]
  | .clear => [0x11]
  | .drawchar x y c => [0x20, loByte x, hiByte x, loByte y, hiByte y, c]
  | .drawchars x y c size color => [0x21, loByte x, hiByte x, loByte y, hiByte y, c, size, color]
  | .drawstrc s => 0x22 :: s
  | .drawstroff y offset s => 0x23 :: loByte y :: hiByte y :: loByte offset :: hiByte offset :: s
  | .txtinit => [0x30]
  | .setcursor x y => [0x31, loByte x, hiByte x, loByte y, hiByte y]
  | .setsize b => [0x32, b]
  | .setcolor b => [0x33, b]
  | .setwrap b => [0x34, b]
  | .printchar c => [0x35, c]
  | .printstr s => 0x36 :: s
  | .drawstr x y s => 0x37 :: loByte x :: hiByte x :: loByte y :: hiByte y :: s
  | .scrinit slot y text => 0x40 :: slot :: loByte y :: hiByte y :: text
  | .scrtick slot => [0x41, slot]
  | .blit4 x y w h data =>
    0x50 :: loByte x :: hiByte x :: loByte y :: hiByte y :: w :: h :: data
  | .blit2 x y w h data =>
    0x51 :: loByte x :: hiByte x :: loByte y :: hiByte y :: w :: h :: data
  | .refresh => [0x60]
  | .clrrefresh => [0x61]
  | .sendcmd cop => [0x80, cop]
  | .sendcmdd cop payload => 0x81 :: cop :: payload
  | .hwreset => [0x82]
  | .setwin cs ce rs re => [0x83, cs, ce, rs, re]
  | .setpower b => [0x84, b]
  | .init => [0x85]
  | .cSetcol a b => [0x15, a, b]
  | .cSetrow a b => [0x75, a, b]
  | .cWriteram p => 0x5C :: p
  | .cDispoff => [0xAE]
  | .cDispon => [0xAF]
  | .cEntireNormal => [0xA4]
  | .cEntireOn => [0xA5]
  | .cLock p => 0xFD :: p
  | .cClkdiv p => 0xB3 :: p
  | .cMux p => 0xCA :: p
  | .cOffset p => 0xA2 :: p
  | .cFuncsel p => 0xAB :: p
  | .cStartline p => 0xA1 :: p
  | .cRemap p => 0xA0 :: p
  | .cMastercontrast p => 0xC7 :: p
  | .cContrast p => 0xC1 :: p
  | .cPhase p => 0xB1 :: p
  | .cPrecharge p => 0xBB :: p
  | .cEnha p => 0xB4 :: p
  | .cVcomh p => 0xBE :: p
  | .cNormal p => 0xA6 :: p
  | .cExitpartial p => 0xA9 :: p
  | .cEnhb p => 0xD1 :: p
  | .cGpio p => 0xB5 :: p
  | .cDefgray p => 0xB9 :: p
  | .cPrecharge2 p => 0xB6 :: p

/-- The decoder of a side, over the bytes `encode` writes for it. -/
def decodeSide (side : Side) (bytes : List Byte) : Except DecodeError Instr :=
  match side with
  | .host => decodePacket bytes
  | .controller => decodeWire bytes

/-- Whether a byte is the opcode of a host command (30 R83); no such byte is a controller command
byte (30 R100). -/
def isHostOpcode (op : Byte) : Bool :=
  [0x10, 0x11, 0x20, 0x21, 0x22, 0x23, 0x30, 0x31, 0x32, 0x33, 0x34, 0x35, 0x36, 0x37, 0x40, 0x41,
    0x50, 0x51, 0x60, 0x61, 0x80, 0x81, 0x82, 0x83, 0x84, 0x85].contains op.toNat

/-- The least length of an instruction that begins with these bytes (30 R83, R100). -/
def leastLength (bytes : List Byte) : Nat :=
  match (bytes.getD 0 0).toNat with
  | 0x10 | 0x20 => 6
  | 0x21 => 8
  | 0x23 | 0x31 | 0x37 | 0x83 => 5
  | 0x40 => 4
  | 0x32 | 0x33 | 0x34 | 0x35 | 0x41 | 0x80 | 0x84 => 2
  | 0x81 | 0x15 | 0x75 => 3
  | 0x50 => 7 + (bytes.getD 6 0).toNat * Machine.stride4 (bytes.getD 5 0).toNat
  | 0x51 => 7 + (bytes.getD 6 0).toNat * Machine.stride2 (bytes.getD 5 0).toNat
  | _ => 1

/-- The bytes of the opcode table's word: bits 7..0 are byte 0, bits 15..8 byte 1 and so on, followed
by the zero bytes an instruction with that opcode still needs. Log 11. -/
def tableBytes (nbits w : Nat) : List Byte :=
  let given := (List.range ((nbits + 7) / 8)).map fun k => BitVec.ofNat 8 (w >>> (8 * k))
  given ++ List.replicate (leastLength given - given.length) 0

/-- The instruction the decoders read from an instruction whose bits are `w`, numbered as the opcode
table numbers them. Byte 0 says the side, since no byte is an opcode of both. Log 11. -/
def decodeTableWord (nbits w : Nat) : Option Instr :=
  let bytes := tableBytes nbits w
  let side := if isHostOpcode (bytes.getD 0 0) then Side.host else Side.controller
  match decodeSide side bytes with
  | .ok i => some i
  | .error _ => none

/-- The packet by which the host has the block issue a controller command on its own: SENDCMD with the
command byte, or SENDCMDD with the payload too (40 R124, R125, R142; 30 R100). Log 9. -/
def rawPacket (bytes : List Byte) : List Byte :=
  match bytes with
  | [] => []
  | [op] => [0x80, op]
  | op :: p :: payload => 0x81 :: op :: p :: payload

/-- The packet that presents the table's word at the host port (30 R80; log 9, log 11). -/
def tablePacket (nbits w : Nat) : List Byte :=
  let bytes := tableBytes nbits w
  if isHostOpcode (bytes.getD 0 0) then bytes else rawPacket bytes

end Sys2Proof
end

