-- ==== Sys2Proof/Machine/State.lean ====
section
/-!
DEFINITION. The state of the block (10 R20), plain data; its faults and refusals; the state after a
reset (10 R38).
-/

namespace Sys2Proof.Machine

/-- GRID as a list of (cell address, level) pairs, the address of column `x`, row `y` being
`128*y + x` (20 R51 leaves the layout to the model). Canonical form: `Memory.wf`. Log 8. -/
abbrev Memory := List (Nat × Level)

/-- What an unlisted cell reads as: level 0, the value CLEAR leaves (41 R162). Log 8. -/
def Memory.blank : Level := 0

/-- The canonical form: addresses strictly rising and below 8192 (10 R22), no entry equal to what an
unlisted cell reads as. -/
def Memory.wf (m : Memory) : Bool :=
  match m with
  | [] => true
  | (a, v) :: rest =>
    decide (a < 8192) && decide (v ≠ Memory.blank) &&
      (match rest with
        | [] => true
        | (b, _) :: _ => decide (a < b)) && Memory.wf rest

/-- The grid whose cell at each address is the given level, in canonical form. Irreducible, so that no
proof lists 8192 cells by accident. -/
@[irreducible] def Memory.ofLevels (f : Nat → Level) : Memory :=
  (List.range 8192).filterMap fun a => if f a = Memory.blank then none else some (a, f a)

/-- The TextContext registers (10 R24). The cursor's two are `COORD_BITS` wide (00 R10): the integer
each holds, in two's complement. -/
structure TextContext where
  cx : Int
  cy : Int
  size : BitVec 3
  color : Level
  wrap : Bool
  deriving DecidableEq, Repr

/-- One ScrollLine slot (10 R32). `pw`, `offset` and `y` are `COORD_BITS` wide (00 R10): the integer
each holds, in two's complement. -/
structure Slot where
  valid : Bool
  text : List Byte
  pw : Int
  offset : Int
  dir : Direction
  y : Int
  deriving DecidableEq, Repr

/-- The protocol state (10 R27). -/
inductive PState where
  | uninitialized
  | resetting
  | configuring
  | poweredOff
  | poweredOn
  deriving DecidableEq, Repr

/-- The status of the last command (60 R260). -/
inductive Status where
  | ok
  | xfail
  | illegalOpcode
  | malformed
  | illegalOperand
  | illegalState
  deriving DecidableEq, Repr

/-- One event of the bus trace (10 R37). -/
inductive Event where
  /-- One attempt of a transaction and the environment's answer. -/
  | tx (t : Transaction) (r : Answer)
  /-- The controller's reset line driven low (0) or high (1). -/
  | resetLine (level : BitVec 1)
  /-- The block waited. -/
  | delay (ms : Nat)
  deriving DecidableEq, Repr

/-- What the outside does at the block's inputs: present a packet (30 R80) or pulse the block's own
reset input (70 R290). Log 6. -/
inductive Input where
  | packet (bytes : List Byte)
  | blockReset
  deriving DecidableEq, Repr

/-- The state. The first nine fields are the spec's (10 R20 to R38); `cfg`, `port`, `answers`, `drawn`
and `resets` are the model's own: the parameters (log 1), the inputs still to come (log 6), the
transport's answers (log 2) and the index of the free values of the last reset (log 3). -/
structure State where
  grid : Memory
  tc : TextContext
  scr : List Slot
  pstate : PState
  wincol : Option (Byte × Byte)
  winrow : Option (Byte × Byte)
  xfail : Bool
  status : Status
  bus : List Event
  cfg : Config
  port : List Input
  answers : List Answer
  drawn : Nat
  resets : Nat
  deriving DecidableEq, Repr

/-- Why a step stops. -/
inductive Fault where
  /-- Raised by the fetch when the next packet of the port has length 0 or more than `PKT_MAX` bytes,
  which cannot be presented (30 R81). Safe: no such packet reaches the block. Log 7. -/
  | packetNotPresentable
  deriving DecidableEq, Repr

/-- Why a step refuses. -/
inductive Refusal where
  /-- Raised by an arm of `exec` whose instruction has no meaning yet; no arm is left so. Safe: the
  machine stops where the block goes on. -/
  | notModelled (mnemonic : String)
  deriving DecidableEq, Repr

/-- Slot `k` after the `n`-th reset of the block: `valid` 0, no text, the other fields unspecified
(10 R38), each within its register's `bits` bits. Log 4. -/
def Slot.afterReset (bits n k : Nat) : Slot where
  valid := false
  text := []
  pw := wrapTo bits (Config.freeSlotPw n k)
  offset := wrapTo bits (Config.freeSlotOffset n k)
  dir := Config.freeSlotDir n k
  y := wrapTo bits (Config.freeSlotY n k)

/-- The block with the given parameters right after its `n`-th reset (10 R38, 70 R290, R291), with the
inputs and answers that stand outside it. -/
def State.afterReset (n : Nat) (cfg : Config) (port : List Input) (answers : List Answer)
    (drawn : Nat) : State where
  grid := Memory.ofLevels (Config.freeLevel n)
  tc := { cx := 0, cy := 0, size := 1, color := 3, wrap := false }
  scr := (List.range cfg.nScroll).map (Slot.afterReset cfg.coordBits n)
  pstate := .uninitialized
  wincol := none
  winrow := none
  xfail := false
  status := .ok
  bus := []
  cfg := cfg
  port := port
  answers := answers
  drawn := drawn
  resets := n

/-- The machine right after reset: nothing presented yet, no answer laid down. Log 2, log 6. -/
def State.reset : State := State.afterReset 0 Config.installed [] [] 0

end Sys2Proof.Machine
end

