-- ==== Sys2Proof/Machine/Flags.lean ====
section
/-!
DEFINITION. The status byte and the sticky flag: their codes and every way a command writes them. This
is the block's whole exception mechanism (60 R261, R266): a command ends by writing STATUS.
-/

namespace Sys2Proof.Machine

/-- The byte the host reads (60 R260). -/
def statusCode (st : Status) : Byte :=
  match st with
  | .ok => 0x00
  | .xfail => 0x01
  | .illegalOpcode => 0x02
  | .malformed => 0x03
  | .illegalOperand => 0x04
  | .illegalState => 0x05

/-- The number of a protocol state (10 R27). -/
def pstateCode (p : PState) : BitVec 3 :=
  match p with
  | .uninitialized => 0
  | .resetting => 1
  | .configuring => 2
  | .poweredOff => 3
  | .poweredOn => 4

/-- The command ends with this status: the one write of STATUS, used by `refuse`, `raise` and a normal
end alike (60 R261). -/
def endWith (st : Status) (s : State) : State := { s with status := st }

/-- `refuse S`: STATUS and nothing else (60 R261). -/
def refuse (st : Status) (s : State) : State := endWith st s

/-- A normal end, `STATUS <- OK` (60 R261). -/
def complete (s : State) : State := endWith .ok s

/-- `XFAIL <- 1` (40 R122, 10 R34). -/
def setXfail (s : State) : State := { s with xfail := true }

/-- `PSTATE` is PoweredOff or PoweredOn: SETPOWER and the refresh commands are admitted (40 R128). -/
def isPowered (s : State) : Bool := s.pstate == .poweredOff || s.pstate == .poweredOn

end Sys2Proof.Machine
end

