-- ==== Sys2Proof/Machine/Ops.lean ====
section
/-!
DEFINITION. The named operations: reading and writing GRID (41 R160, R162), the bus trace and the
transport (10 R36, 40 R122), the shared procedures of the sequencer (40 R126, R129, R132), the fetch of
the next input (30 R80) and the block's reset (70 R290).
-/

namespace Sys2Proof.Machine

/-! GRID -/

/-- The address of the cell at column `x`, row `y` (log 8). -/
def cellAddr (x y : Nat) : Nat := 128 * y + x

/-- The level at an address. -/
def Memory.read (m : Memory) (a : Nat) : Level :=
  match m with
  | [] => Memory.blank
  | (b, v) :: rest => if b = a then v else Memory.read rest a

/-- Set the level at an address, keeping the canonical form. -/
def Memory.write (m : Memory) (a : Nat) (v : Level) : Memory :=
  match m with
  | [] => if v = Memory.blank then [] else [(a, v)]
  | (b, w) :: rest =>
    if a < b then (if v = Memory.blank then (b, w) :: rest else (a, v) :: (b, w) :: rest)
    else if a = b then (if v = Memory.blank then rest else (a, v) :: rest)
    else (b, w) :: Memory.write rest a v

/-- `GRID[y][x]` (00 R11). -/
def cell (m : Memory) (x y : Nat) : Level := Memory.read m (cellAddr x y)

/-- `Plot(x, y, v)` (41 R160): the low two bits of `v` inside the grid, nothing outside. -/
def plot (x y : Int) (v : Nat) (m : Memory) : Memory :=
  if 0 ≤ x ∧ x ≤ 127 ∧ 0 ≤ y ∧ y ≤ 63 then
    Memory.write m (cellAddr x.toNat y.toNat) (low2 v)
  else m

/-- The arguments of one call of `Plot`. -/
structure Dot where
  x : Int
  y : Int
  v : Nat
  deriving DecidableEq, Repr

/-- A sequence of calls of `Plot`, in order. -/
def plotAll (dots : List Dot) (m : Memory) : Memory :=
  dots.foldl (fun m d => plot d.x d.y d.v m) m

/-- `Clear()` (41 R162): every cell 0. -/
def clearGrid : Memory := []

/-- The zero fill of rows `y` to `y + 7`, over all columns, of those rows that exist (42 R186). -/
def clearBand (y : Int) (m : Memory) : Memory :=
  m.filter fun c => !(decide (y ≤ (c.1 / 128 : Nat)) && decide (((c.1 / 128 : Nat) : Int) ≤ y + 7))

/-- `ROW(y)` (30 R105): each cell's expanded byte twice, column 0 first. -/
def rowBytes (m : Memory) (y : Nat) : List Byte :=
  (List.range 128).flatMap fun x => [expand (cell m x y), expand (cell m x y)]

/-! The bus trace and the transport -/

/-- `Emit(e)`: `BUS <- BUS ++ [e]` (10 R36). -/
def emit (e : Event) (s : State) : State := { s with bus := s.bus ++ [e] }

/-- The environment's answer for this attempt (40 R121): the next one laid down, and once none is left
the next of the free stream. Log 2. -/
def nextAnswer (s : State) : Answer :=
  match s.answers with
  | a :: _ => a
  | [] => Config.freeAnswer s.drawn

/-- The answer has been used. -/
def takeAnswer (s : State) : State :=
  match s.answers with
  | _ :: rest => { s with answers := rest }
  | [] => { s with drawn := s.drawn + 1 }

/-- Where a procedure stands: it goes on, or it has raised XFAIL and its command ends (40 R123). -/
inductive Run where
  | done (s : State)
  | raised (s : State)
  deriving DecidableEq, Repr

/-- Go on with the next part of a procedure, unless XFAIL was raised (40 R123). -/
def Run.andThen (r : Run) (f : State → Run) : Run :=
  match r with
  | .done s => f s
  | .raised s => .raised s

/-- The end of a command that used the transport: OK, or XFAIL with every earlier effect kept
(40 R123, 60 R261). -/
def Run.finish (r : Run) : State :=
  match r with
  | .done s => endWith .ok s
  | .raised s => endWith .xfail s

/-- The attempts of `Xact(t)` with `left` retries left (40 R122). -/
def attempts (t : Transaction) (left : Nat) (s : State) : Run :=
  let r := nextAnswer s
  let s1 := emit (.tx t r) (takeAnswer s)
  match r with
  | .ok => .done s1
  | .fail =>
    match left with
    | 0 => .raised (setXfail s1)
    | k + 1 => attempts t k (emit (.delay s1.cfg.retryDelayMs) s1)

/-- `Xact(t)` (40 R122): up to `1 + RETRY_MAX` attempts. -/
def xact (t : Transaction) (s : State) : Run := attempts t s.cfg.retryMax s

/-- A list of transactions, each one starting only when the one before it succeeded (40 R123). -/
def xactAll (ts : List Transaction) (s : State) : Run :=
  match ts with
  | [] => .done s
  | t :: rest => (xact t s).andThen (xactAll rest)

/-- The raw transaction of a command byte and its payload, as SENDCMD and SENDCMDD issue it
(40 R124, R125): no bookkeeping but BUS, XFAIL and STATUS. -/
def sendRaw (op : Byte) (payload : List Byte) (s : State) : State :=
  (xact (transactionOf op payload) s).finish

/-! The shared procedures of the sequencer -/

/-- `ResetPulse()` (40 R126). -/
def resetPulse (s : State) : State :=
  let s1 := { s with pstate := .resetting, wincol := none, winrow := none }
  emit (.delay resetHoldMs) (emit (.resetLine 1) (emit (.delay resetHoldMs) (emit (.resetLine 0) s1)))

/-- `SetWindow(cs, ce, rs, re)` (40 R129). -/
def setWindow (cs ce rs re : Byte) (s : State) : Run :=
  (xact (.cmdData 0x15 [cs, ce]) s).andThen fun s1 =>
    (xact (.cmdData 0x75 [rs, re]) { s1 with wincol := some (cs, ce) }).andThen fun s2 =>
      .done { s2 with winrow := some (rs, re) }

/-- `SetPower(on)` (40 R132). -/
def setPower (on : Bool) (s : State) : Run :=
  (xact (.cmd (if on then 0xAF else 0xAE)) s).andThen fun s1 =>
    .done { s1 with pstate := if on then .poweredOn else .poweredOff }

/-! Inputs and reset -/

/-- A reset of the block (70 R290, R291): every piece of the spec's state at its reset value, no event;
what stands outside the block (the inputs to come, the answers) and its parameters stay. -/
def resetBlock (s : State) : State :=
  State.afterReset (s.resets + 1) s.cfg s.port s.answers s.drawn

/-- What the port offers, with the state after it has been taken. -/
inductive Fetched where
  | nothing
  | packet (bytes : List Byte) (s : State)
  | blockReset (s : State)
  deriving DecidableEq, Repr

/-- The next input of the port (30 R80, 70 R290). -/
def fetch (s : State) : Fetched :=
  match s.port with
  | [] => .nothing
  | .packet bytes :: rest => .packet bytes { s with port := rest }
  | .blockReset :: rest => .blockReset { s with port := rest }

/-- What the port can present: 1 to `PKT_MAX` bytes (30 R80, R81). -/
def presentable (cfg : Config) (bytes : List Byte) : Bool :=
  decide (1 ≤ bytes.length ∧ bytes.length ≤ cfg.pktMax)

/-- The command of what stands at the port: a packet that can be presented is decoded (30 R81, R82). -/
def readPacket (cfg : Config) (bytes : List Byte) : Except DecodeError Instr :=
  if presentable cfg bytes then decodePacket bytes else .error .notPresentable

/-- A packet that is no command (30 R96, R97): STATUS and nothing else; one that cannot be presented
(30 R81) is a fault. -/
def rejectPacket (e : DecodeError) (s : State) : Host.Outcome State Fault Refusal :=
  match e with
  | .notPresentable => .fault .packetNotPresentable
  | .illegalOpcode => .next (refuse .illegalOpcode s)
  | .malformed => .next (refuse .malformed s)

end Sys2Proof.Machine
end

