-- ==== Sys2Proof/Machine/Blit.lean ====
section
/-!
DEFINITION. Packed-bitmap blitting (spec/45_blit.md): BLIT4, BLIT2.
-/

namespace Sys2Proof.Machine

/-- The calls of `Plot` of a blit (45 R245): source pixel `q` of source row `r` to `(x + q, y + r)`,
with the level that `pixel r q` reads. -/
def blitDots (pixel : Nat → Nat → Nat) (x y : Int) (w h : Nat) : List Dot :=
  (List.range h).flatMap fun (r : Nat) =>
    (List.range w).map fun (q : Nat) => ⟨x + (q : Int), y + (r : Int), pixel r q⟩

/-- BLIT4 (45 R247). Data of another length than the format requires is MALFORMED; a decoded packet
never has it (log 12). -/
def execBlit4 (x y : S16) (w h : Byte) (data : List Byte) (s : State) :
    Host.Outcome State Fault Refusal :=
  .next
    (if data.length = h.toNat * stride4 w.toNat then
      complete { s with
        grid := plotAll (blitDots (pixel4 data w.toNat) (sext16 x) (sext16 y) w.toNat h.toNat)
          s.grid }
     else refuse .malformed s)

/-- BLIT2 (45 R251). Data of another length than the format requires is MALFORMED; a decoded packet
never has it (log 12). -/
def execBlit2 (x y : S16) (w h : Byte) (data : List Byte) (s : State) :
    Host.Outcome State Fault Refusal :=
  .next
    (if data.length = h.toNat * stride2 w.toNat then
      complete { s with
        grid := plotAll (blitDots (pixel2 data w.toNat) (sext16 x) (sext16 y) w.toNat h.toNat)
          s.grid }
     else refuse .malformed s)

end Sys2Proof.Machine
end

