-- ==== Sys2Proof/Machine/Controller.lean ====
section
/-!
DEFINITION. The controller command bytes of 30 R100, one meaning each: the raw transaction by which the
block issues that byte on its own, which is what SENDCMD and SENDCMDD do with the same bytes (40 R142,
R124, R125). The bookkeeping of the procedures that also send some of these bytes (the window shadows,
PSTATE) belongs to those procedures and is not written by a raw command (40 R124, 70 R300). What the
controller does with the byte is outside the block (00 R4). Log 9.
-/

namespace Sys2Proof.Machine

/-- `0x15` set column range (30 R100, 40 R142). -/
def execCSetcol (first last : Byte) (s : State) : Host.Outcome State Fault Refusal :=
  .next (sendRaw 0x15 [first, last] s)

/-- `0x75` set row range (30 R100, 40 R142). -/
def execCSetrow (first last : Byte) (s : State) : Host.Outcome State Fault Refusal :=
  .next (sendRaw 0x75 [first, last] s)

/-- `0x5C` write RAM (30 R100, 40 R142). -/
def execCWriteram (payload : List Byte) (s : State) : Host.Outcome State Fault Refusal :=
  .next (sendRaw 0x5C payload s)

/-- `0xAE` display off (30 R100, 40 R142). -/
def execCDispoff (s : State) : Host.Outcome State Fault Refusal :=
  .next (sendRaw 0xAE [] s)

/-- `0xAF` display on (30 R100, 40 R142). -/
def execCDispon (s : State) : Host.Outcome State Fault Refusal :=
  .next (sendRaw 0xAF [] s)

/-- `0xA4` entire-display normal (30 R100, 40 R142). -/
def execCEntireNormal (s : State) : Host.Outcome State Fault Refusal :=
  .next (sendRaw 0xA4 [] s)

/-- `0xA5` entire-display all-on (30 R100, 40 R142). -/
def execCEntireOn (s : State) : Host.Outcome State Fault Refusal :=
  .next (sendRaw 0xA5 [] s)

/-- `0xFD` command lock/unlock, init entry 1 (40 R140) (30 R100, 40 R142). -/
def execCLock (payload : List Byte) (s : State) : Host.Outcome State Fault Refusal :=
  .next (sendRaw 0xFD payload s)

/-- `0xB3` clock divider, init entry 2 (40 R140) (30 R100, 40 R142). -/
def execCClkdiv (payload : List Byte) (s : State) : Host.Outcome State Fault Refusal :=
  .next (sendRaw 0xB3 payload s)

/-- `0xCA` multiplex ratio, init entry 3 (40 R140) (30 R100, 40 R142). -/
def execCMux (payload : List Byte) (s : State) : Host.Outcome State Fault Refusal :=
  .next (sendRaw 0xCA payload s)

/-- `0xA2` display offset, init entry 4 (40 R140) (30 R100, 40 R142). -/
def execCOffset (payload : List Byte) (s : State) : Host.Outcome State Fault Refusal :=
  .next (sendRaw 0xA2 payload s)

/-- `0xAB` function select, init entry 5 (40 R140) (30 R100, 40 R142). -/
def execCFuncsel (payload : List Byte) (s : State) : Host.Outcome State Fault Refusal :=
  .next (sendRaw 0xAB payload s)

/-- `0xA1` start line, init entry 6 (40 R140) (30 R100, 40 R142). -/
def execCStartline (payload : List Byte) (s : State) : Host.Outcome State Fault Refusal :=
  .next (sendRaw 0xA1 payload s)

/-- `0xA0` segment/COM remap, init entry 7 (40 R140) (30 R100, 40 R142). -/
def execCRemap (payload : List Byte) (s : State) : Host.Outcome State Fault Refusal :=
  .next (sendRaw 0xA0 payload s)

/-- `0xC7` master contrast, init entry 8 (40 R140) (30 R100, 40 R142). -/
def execCMastercontrast (payload : List Byte) (s : State) : Host.Outcome State Fault Refusal :=
  .next (sendRaw 0xC7 payload s)

/-- `0xC1` contrast, init entry 9 (40 R140) (30 R100, 40 R142). -/
def execCContrast (payload : List Byte) (s : State) : Host.Outcome State Fault Refusal :=
  .next (sendRaw 0xC1 payload s)

/-- `0xB1` phase length, init entry 10 (40 R140) (30 R100, 40 R142). -/
def execCPhase (payload : List Byte) (s : State) : Host.Outcome State Fault Refusal :=
  .next (sendRaw 0xB1 payload s)

/-- `0xBB` precharge voltage, init entry 11 (40 R140) (30 R100, 40 R142). -/
def execCPrecharge (payload : List Byte) (s : State) : Host.Outcome State Fault Refusal :=
  .next (sendRaw 0xBB payload s)

/-- `0xB4` display-enhancement-A, init entry 12 (40 R140) (30 R100, 40 R142). -/
def execCEnha (payload : List Byte) (s : State) : Host.Outcome State Fault Refusal :=
  .next (sendRaw 0xB4 payload s)

/-- `0xBE` VCOMH, init entry 13 (40 R140) (30 R100, 40 R142). -/
def execCVcomh (payload : List Byte) (s : State) : Host.Outcome State Fault Refusal :=
  .next (sendRaw 0xBE payload s)

/-- `0xA6` normal mode, init entry 14 (40 R140) (30 R100, 40 R142). -/
def execCNormal (payload : List Byte) (s : State) : Host.Outcome State Fault Refusal :=
  .next (sendRaw 0xA6 payload s)

/-- `0xA9` exit partial mode, init entry 15 (40 R140) (30 R100, 40 R142). -/
def execCExitpartial (payload : List Byte) (s : State) : Host.Outcome State Fault Refusal :=
  .next (sendRaw 0xA9 payload s)

/-- `0xD1` display-enhancement-B, init entry 16 (40 R140) (30 R100, 40 R142). -/
def execCEnhb (payload : List Byte) (s : State) : Host.Outcome State Fault Refusal :=
  .next (sendRaw 0xD1 payload s)

/-- `0xB5` GPIO mode, init entry 17 (40 R140) (30 R100, 40 R142). -/
def execCGpio (payload : List Byte) (s : State) : Host.Outcome State Fault Refusal :=
  .next (sendRaw 0xB5 payload s)

/-- `0xB9` default grayscale table, init entry 18 (40 R140) (30 R100, 40 R142). -/
def execCDefgray (payload : List Byte) (s : State) : Host.Outcome State Fault Refusal :=
  .next (sendRaw 0xB9 payload s)

/-- `0xB6` second precharge, init entry 19 (40 R140) (30 R100, 40 R142). -/
def execCPrecharge2 (payload : List Byte) (s : State) : Host.Outcome State Fault Refusal :=
  .next (sendRaw 0xB6 payload s)

end Sys2Proof.Machine
end

