-- ==== Sys2Proof/Machine/Protocol.lean ====
section
/-!
DEFINITION. The protocol sequencer (spec/40_protocol.md): SENDCMD, SENDCMDD, HWRESET, SETWIN,
SETPOWER, INIT.
-/

namespace Sys2Proof.Machine

/-- SENDCMD (40 R124). -/
def execSendcmd (cop : Byte) (s : State) : Host.Outcome State Fault Refusal :=
  .next (sendRaw cop [] s)

/-- SENDCMDD (40 R125). An empty payload is MALFORMED (30 R97); a decoded packet never has it
(log 12). -/
def execSendcmdd (cop : Byte) (payload : List Byte) (s : State) :
    Host.Outcome State Fault Refusal :=
  .next (if payload.length = 0 then refuse .malformed s else sendRaw cop payload s)

/-- HWRESET (40 R127). -/
def execHwreset (s : State) : Host.Outcome State Fault Refusal :=
  .next (complete { resetPulse s with pstate := .uninitialized })

/-- SETWIN (40 R130). -/
def execSetwin (cs ce rs re : Byte) (s : State) : Host.Outcome State Fault Refusal :=
  .next (setWindow cs ce rs re s).finish

/-- SETPOWER (40 R131). -/
def execSetpower (b : Byte) (s : State) : Host.Outcome State Fault Refusal :=
  .next (if isPowered s then (setPower (flagOf b) s).finish else refuse .illegalState s)

/-- `INIT_OP[1]` to `INIT_OP[19]` (40 R140). -/
def initOps : List Byte :=
  [0xFD, 0xB3, 0xCA, 0xA2, 0xAB, 0xA1, 0xA0, 0xC7, 0xC1, 0xB1] ++
  [0xBB, 0xB4, 0xBE, 0xA6, 0xA9, 0xD1, 0xB5, 0xB9, 0xB6]

/-- The transactions of the 19 entries, `CMD` where the payload is empty (40 R134). -/
def initTransactions (payloads : InitPayload) : List Transaction :=
  List.zipWith transactionOf initOps payloads.toList

/-- The body of INIT from the state an admitted INIT starts in (40 R134). -/
def initSequence (s : State) : Run :=
  (xact (.cmd 0xAE) { resetPulse s with pstate := .configuring }).andThen fun s1 =>
    (xactAll (initTransactions s1.cfg.initPayload) s1).andThen fun s2 =>
      (xact (.cmd 0xAF) { s2 with pstate := .poweredOff }).andThen fun s3 =>
        .done { s3 with pstate := .poweredOn }

/-- INIT (40 R134). -/
def execInit (s : State) : Host.Outcome State Fault Refusal :=
  .next (if s.pstate = .uninitialized then (initSequence s).finish else refuse .illegalState s)

end Sys2Proof.Machine
end

