-- ==== Sys2Proof/Machine/Pixel.lean ====
section
/-!
DEFINITION. Pixel operations and refresh (spec/41_pixel_refresh.md): Refresh and the commands
SETPIXEL, CLEAR, REFRESH, CLRREFRESH.
-/

namespace Sys2Proof.Machine

/-- The transaction that carries one row (41 R165, R167). -/
def rowTransaction (framing : RowFraming) (row : List Byte) : Transaction :=
  match framing with
  | .cmdPrefixed => .cmdData 0x5C row
  | .dataOnly => .data row

/-- The transactions of the 64 rows, row 0 first (41 R165). -/
def rowTransactions (framing : RowFraming) (m : Memory) : List Transaction :=
  (List.range 64).map fun y => rowTransaction framing (rowBytes m y)

/-- `Refresh()` (41 R165): the window, the write-RAM command, the rows. -/
def refreshDisplay (s : State) : Run :=
  let w := s.cfg.winFull
  (setWindow w.colStart w.colEnd w.rowStart w.rowEnd s).andThen fun s1 =>
    (xact (.cmd 0x5C) s1).andThen fun s2 =>
      xactAll (rowTransactions s2.cfg.rowFraming s2.grid) s2

/-- SETPIXEL (41 R161). -/
def execSetpixel (x y : S16) (level : Byte) (s : State) : Host.Outcome State Fault Refusal :=
  .next (complete { s with grid := plot (sext16 x) (sext16 y) level.toNat s.grid })

/-- CLEAR (41 R163). -/
def execClear (s : State) : Host.Outcome State Fault Refusal :=
  .next (complete { s with grid := clearGrid })

/-- REFRESH (41 R168). -/
def execRefresh (s : State) : Host.Outcome State Fault Refusal :=
  .next (if isPowered s then (refreshDisplay s).finish else refuse .illegalState s)

/-- CLRREFRESH (41 R169): when refused, the grid is not cleared. -/
def execClrrefresh (s : State) : Host.Outcome State Fault Refusal :=
  .next
    (if isPowered s then (refreshDisplay { s with grid := clearGrid }).finish
     else refuse .illegalState s)

end Sys2Proof.Machine
end

