-- ==== Sys2Proof/Machine/Glyph.lean ====
section
/-!
DEFINITION. Glyph and string drawing (spec/42_glyph.md): DrawChar, DrawCharScaled,
DrawStringCentered, DrawStringAtOffset and the commands DRAWCHAR, DRAWCHARS, DRAWSTRC, DRAWSTROFF.
-/

namespace Sys2Proof.Machine

/-- The calls of `Plot` of `DrawChar(x, y, c)` (42 R180): the whole 6 by 8 box, 3 or 0. -/
def charDots (font : Font) (x y : Int) (c : Byte) : List Dot :=
  if isGlyph c then
    (List.range 6).flatMap fun (k : Nat) =>
      (List.range 8).map fun (r : Nat) => ⟨x + (k : Int), y + (r : Int), if glyphBit font c k r then 3 else 0⟩
  else []

/-- `DrawChar(x, y, c)` (42 R180). -/
def drawChar (font : Font) (x y : Int) (c : Byte) (m : Memory) : Memory :=
  plotAll (charDots font x y c) m

/-- The calls of `Plot` of `DrawCharScaled(x, y, c, size, color)` (42 R182): a `size` by `size` block
for each set bit, nothing for an unset bit. -/
def scaledDots (font : Font) (x y : Int) (c : Byte) (size color : Nat) : List Dot :=
  if isGlyph c then
    (List.range 6).flatMap fun (k : Nat) =>
      (List.range 8).flatMap fun (r : Nat) =>
        if glyphBit font c k r then
          (List.range size).flatMap fun (dx : Nat) =>
            (List.range size).map fun (dy : Nat) =>
              ⟨x + ((k * size + dx : Nat) : Int), y + ((r * size + dy : Nat) : Int), color⟩
        else []
  else []

/-- `DrawCharScaled(x, y, c, size, color)` (42 R182). -/
def drawCharScaled (font : Font) (x y : Int) (c : Byte) (size color : Nat) (m : Memory) : Memory :=
  plotAll (scaledDots font x y c size color) m

/-- The plain glyphs of a string from column `x` on, 7 columns apart (42 R184, R186). -/
def drawChars (font : Font) (x y : Int) (s : List Byte) (m : Memory) : Memory :=
  match s with
  | [] => m
  | c :: rest => drawChars font (x + 7) y rest (drawChar font x y c m)

/-- The start column of `DrawStringCentered` for a string of `n` bytes (42 R184). -/
def centredColumn (n : Nat) : Int := tdiv (128 - (6 * (n : Int) + ((n : Int) - 1))) 2

/-- The grid `DrawStringCentered(s)` draws, before its refresh (42 R184). -/
def centredGrid (font : Font) (s : List Byte) : Memory :=
  drawChars font (centredColumn s.length) 28 s clearGrid

/-- `DrawStringAtOffset(s, y, offset)` (42 R186). -/
def drawStringAtOffset (font : Font) (s : List Byte) (y offset : Int) (m : Memory) : Memory :=
  drawChars font (-offset) y s (clearBand y m)

/-- DRAWCHAR (42 R181). -/
def execDrawchar (x y : S16) (c : Byte) (s : State) : Host.Outcome State Fault Refusal :=
  .next (complete { s with grid := drawChar s.cfg.font (sext16 x) (sext16 y) c s.grid })

/-- DRAWCHARS (42 R183): `size` outside 1 to 4 is refused. -/
def execDrawchars (x y : S16) (c size color : Byte) (s : State) : Host.Outcome State Fault Refusal :=
  .next
    (if size.toNat < 1 ∨ 4 < size.toNat then refuse .illegalOperand s
     else complete { s with
       grid := drawCharScaled s.cfg.font (sext16 x) (sext16 y) c size.toNat color.toNat s.grid })

/-- DRAWSTRC (42 R185): clear, draw, refresh. -/
def execDrawstrc (str : List Byte) (s : State) : Host.Outcome State Fault Refusal :=
  .next
    (if isPowered s then (refreshDisplay { s with grid := centredGrid s.cfg.font str }).finish
     else refuse .illegalState s)

/-- DRAWSTROFF (42 R187). -/
def execDrawstroff (y offset : S16) (str : List Byte) (s : State) :
    Host.Outcome State Fault Refusal :=
  .next (complete { s with
    grid := drawStringAtOffset s.cfg.font str (sext16 y) (sext16 offset) s.grid })

end Sys2Proof.Machine
end

