-- ==== Sys2Proof/Machine/Scroll.lean ====
section
/-!
DEFINITION. The scrolling text line (spec/44_scroll.md): SCRINIT, SCRTICK.
-/

namespace Sys2Proof.Machine

/-- What SCRINIT stores (44 R232): the first 63 bytes of the text and the width of those, which
registers of 16 bits or more hold (log 21). -/
def initSlot (y : S16) (text : List Byte) : Slot :=
  let kept := text.take scrollCap
  { valid := true, text := kept, pw := 7 * (kept.length : Int) - 1, offset := 0, dir := .plus,
    y := sext16 y }

/-- SCRINIT (44 R232, R231). -/
def execScrinit (slot : Byte) (y : S16) (text : List Byte) (s : State) :
    Host.Outcome State Fault Refusal :=
  .next
    (if s.cfg.nScroll ≤ slot.toNat then refuse .illegalOperand s
     else complete { s with scr := s.scr.set slot.toNat (initSlot y text) })

/-- A slot whose line fits the grid stands still, centred (44 R237). -/
def isStatic (l : Slot) : Bool := decide (l.pw ≤ 128)

/-- The offset a tick draws at (44 R236). -/
def tickOffset (l : Slot) : Int :=
  if isStatic l then -(tdiv (128 - l.pw) 2) else l.offset

/-- The slot after a tick (44 R236, R239), its offset reduced to `bits` bits (00 R10): the two bound tests
in order, as two separate tests. -/
def advanceSlot (bits : Nat) (l : Slot) : Slot :=
  if isStatic l then l
  else
    let offset := wrapTo bits (l.offset + dirStep l.dir)
    let dir1 := if l.pw ≤ offset + 128 then Direction.minus else l.dir
    let dir2 := if offset ≤ 0 then Direction.plus else dir1
    { l with offset := offset, dir := dir2 }

/-- SCRTICK (44 R236, R235, R231): ILLEGAL_OPERAND before ILLEGAL_STATE (60 R265). A slot number below
`N_SCROLL` always has its slot (`State.Inv`); were there none, it is treated as never initialised. -/
def execScrtick (slot : Byte) (s : State) : Host.Outcome State Fault Refusal :=
  .next
    (if s.cfg.nScroll ≤ slot.toNat then refuse .illegalOperand s
     else
      match s.scr[slot.toNat]? with
      | none => refuse .illegalState s
      | some l =>
        if l.valid then
          complete { s with
            grid := drawStringAtOffset s.cfg.font l.text l.y (tickOffset l) s.grid
            scr := s.scr.set slot.toNat (advanceSlot s.cfg.coordBits l) }
        else refuse .illegalState s)

end Sys2Proof.Machine
end

