-- ==== Sys2Proof/Machine/Text.lean ====
section
/-!
DEFINITION. The TextContext and cursor-based printing (spec/43_text.md): TXTINIT, SETCURSOR, SETSIZE,
SETCOLOR, SETWRAP, PRINTCHAR, PRINTSTR, DRAWSTR.
-/

namespace Sys2Proof.Machine

/-- TXTINIT (43 R200). -/
def execTxtinit (s : State) : Host.Outcome State Fault Refusal :=
  .next (complete { s with tc := { cx := 0, cy := 0, size := 1, color := 3, wrap := false } })

/-- SETCURSOR (43 R201): the operands as they stand, which registers of 16 bits or more hold (log 21). -/
def execSetcursor (x y : S16) (s : State) : Host.Outcome State Fault Refusal :=
  .next (complete { s with tc := { s.tc with cx := sext16 x, cy := sext16 y } })

/-- SETSIZE (43 R202): a size outside 1 to 4 is refused. -/
def execSetsize (b : Byte) (s : State) : Host.Outcome State Fault Refusal :=
  .next
    (if b.toNat < 1 ∨ 4 < b.toNat then refuse .illegalOperand s
     else complete { s with tc := { s.tc with size := BitVec.ofNat 3 b.toNat } })

/-- SETCOLOR (43 R203). -/
def execSetcolor (b : Byte) (s : State) : Host.Outcome State Fault Refusal :=
  .next (complete { s with tc := { s.tc with color := low2 b.toNat } })

/-- SETWRAP (43 R204). -/
def execSetwrap (b : Byte) (s : State) : Host.Outcome State Fault Refusal :=
  .next (complete { s with tc := { s.tc with wrap := flagOf b } })

/-- The character advance `7*size` (43 R205). -/
def charAdvance (size : Nat) : Int := 7 * (size : Int)

/-- The line advance `9*size` (43 R205). -/
def lineAdvance (size : Nat) : Int := 9 * (size : Int)

/-- A character of this size at column `cx` passes the right edge (43 R206). -/
def passesEdge (cx : Int) (size : Nat) : Bool := decide (cx + 6 * (size : Int) > 128)

/-- A line break of the cursor-advancing commands: back to column 0, one line down, reduced to `bits` bits
(43 R206, R207, 00 R10). -/
def breakLine (bits : Nat) (tc : TextContext) : TextContext :=
  { tc with cx := 0, cy := wrapTo bits (tc.cy + lineAdvance tc.size.toNat) }

/-- `PrintChar(c)` (43 R207): newline, then the wrap test, then the row test, then draw and advance. -/
def printChar (c : Byte) (s : State) : State :=
  let bits := s.cfg.coordBits
  if c.toNat = 10 then { s with tc := breakLine bits s.tc }
  else
    let tc := if s.tc.wrap && passesEdge s.tc.cx s.tc.size.toNat then breakLine bits s.tc else s.tc
    if 64 ≤ tc.cy then { s with tc := tc }
    else { s with
      grid := drawCharScaled s.cfg.font tc.cx tc.cy c tc.size.toNat tc.color.toNat s.grid
      tc := { tc with cx := wrapTo bits (tc.cx + charAdvance tc.size.toNat) } }

/-- `PrintChar` on each byte in order (43 R209). -/
def printString (str : List Byte) (s : State) : State :=
  match str with
  | [] => s
  | c :: rest => printString rest (printChar c s)

/-- PRINTCHAR (43 R208). -/
def execPrintchar (c : Byte) (s : State) : Host.Outcome State Fault Refusal :=
  .next (complete (printChar c s))

/-- PRINTSTR (43 R209). -/
def execPrintstr (str : List Byte) (s : State) : Host.Outcome State Fault Refusal :=
  .next (complete (printString str s))

/-- The loop of DRAWSTR (43 R210) with line origin `x`, from the local cursor `(cx, cy)`: local
integers that do not wrap, and the whole loop ends at the first character at row 64 or past it. -/
def drawStr (font : Font) (tc : TextContext) (x cx cy : Int) (str : List Byte) (m : Memory) :
    Memory :=
  match str with
  | [] => m
  | c :: rest =>
    let size := tc.size.toNat
    if c.toNat = 10 then drawStr font tc x x (cy + lineAdvance size) rest m
    else
      let wraps := tc.wrap && passesEdge cx size
      let cx1 := if wraps then x else cx
      let cy1 := if wraps then cy + lineAdvance size else cy
      if 64 ≤ cy1 then m
      else drawStr font tc x (cx1 + charAdvance size) cy1 rest
        (drawCharScaled font cx1 cy1 c size tc.color.toNat m)

/-- DRAWSTR (43 R210). -/
def execDrawstr (x y : S16) (str : List Byte) (s : State) : Host.Outcome State Fault Refusal :=
  .next (complete { s with
    grid := drawStr s.cfg.font s.tc (sext16 x) (sext16 x) (sext16 y) str s.grid })

end Sys2Proof.Machine
end

