-- ==== Sys2Proof/Machine/Dispatch.lean ====
section
/-!
DEFINITION. One arm per instruction: a direct call of its meaning.
-/

namespace Sys2Proof.Machine

def exec (i : Instr) (s : State) : Host.Outcome State Fault Refusal :=
  match i with
  | .setpixel x y level => Sys2Proof.Machine.execSetpixel x y level s
  | .clear => Sys2Proof.Machine.execClear s
  | .drawchar x y c => Sys2Proof.Machine.execDrawchar x y c s
  | .drawchars x y c size color => Sys2Proof.Machine.execDrawchars x y c size color s
  | .drawstrc str => Sys2Proof.Machine.execDrawstrc str s
  | .drawstroff y offset str => Sys2Proof.Machine.execDrawstroff y offset str s
  | .txtinit => Sys2Proof.Machine.execTxtinit s
  | .setcursor x y => Sys2Proof.Machine.execSetcursor x y s
  | .setsize b => Sys2Proof.Machine.execSetsize b s
  | .setcolor b => Sys2Proof.Machine.execSetcolor b s
  | .setwrap b => Sys2Proof.Machine.execSetwrap b s
  | .printchar c => Sys2Proof.Machine.execPrintchar c s
  | .printstr str => Sys2Proof.Machine.execPrintstr str s
  | .drawstr x y str => Sys2Proof.Machine.execDrawstr x y str s
  | .scrinit slot y text => Sys2Proof.Machine.execScrinit slot y text s
  | .scrtick slot => Sys2Proof.Machine.execScrtick slot s
  | .blit4 x y w h data => Sys2Proof.Machine.execBlit4 x y w h data s
  | .blit2 x y w h data => Sys2Proof.Machine.execBlit2 x y w h data s
  | .refresh => Sys2Proof.Machine.execRefresh s
  | .clrrefresh => Sys2Proof.Machine.execClrrefresh s
  | .sendcmd cop => Sys2Proof.Machine.execSendcmd cop s
  | .sendcmdd cop payload => Sys2Proof.Machine.execSendcmdd cop payload s
  | .hwreset => Sys2Proof.Machine.execHwreset s
  | .setwin cs ce rs re => Sys2Proof.Machine.execSetwin cs ce rs re s
  | .setpower b => Sys2Proof.Machine.execSetpower b s
  | .init => Sys2Proof.Machine.execInit s
  | .cSetcol first last => Sys2Proof.Machine.execCSetcol first last s
  | .cSetrow first last => Sys2Proof.Machine.execCSetrow first last s
  | .cWriteram payload => Sys2Proof.Machine.execCWriteram payload s
  | .cDispoff => Sys2Proof.Machine.execCDispoff s
  | .cDispon => Sys2Proof.Machine.execCDispon s
  | .cEntireNormal => Sys2Proof.Machine.execCEntireNormal s
  | .cEntireOn => Sys2Proof.Machine.execCEntireOn s
  | .cLock payload => Sys2Proof.Machine.execCLock payload s
  | .cClkdiv payload => Sys2Proof.Machine.execCClkdiv payload s
  | .cMux payload => Sys2Proof.Machine.execCMux payload s
  | .cOffset payload => Sys2Proof.Machine.execCOffset payload s
  | .cFuncsel payload => Sys2Proof.Machine.execCFuncsel payload s
  | .cStartline payload => Sys2Proof.Machine.execCStartline payload s
  | .cRemap payload => Sys2Proof.Machine.execCRemap payload s
  | .cMastercontrast payload => Sys2Proof.Machine.execCMastercontrast payload s
  | .cContrast payload => Sys2Proof.Machine.execCContrast payload s
  | .cPhase payload => Sys2Proof.Machine.execCPhase payload s
  | .cPrecharge payload => Sys2Proof.Machine.execCPrecharge payload s
  | .cEnha payload => Sys2Proof.Machine.execCEnha payload s
  | .cVcomh payload => Sys2Proof.Machine.execCVcomh payload s
  | .cNormal payload => Sys2Proof.Machine.execCNormal payload s
  | .cExitpartial payload => Sys2Proof.Machine.execCExitpartial payload s
  | .cEnhb payload => Sys2Proof.Machine.execCEnhb payload s
  | .cGpio payload => Sys2Proof.Machine.execCGpio payload s
  | .cDefgray payload => Sys2Proof.Machine.execCDefgray payload s
  | .cPrecharge2 payload => Sys2Proof.Machine.execCPrecharge2 payload s

end Sys2Proof.Machine
end

