-- ==== Sys2Proof/Machine/Step.lean ====
section
/-!
DEFINITION. One step: the next input of the port is taken; a packet that can be presented is decoded and
its command runs to completion (30 R80 to R82); with nothing presented the block waits (70 R290).
-/

namespace Sys2Proof.Machine

def step (s : State) : Host.Outcome State Fault Refusal :=
  match fetch s with
  | .nothing => .next s
  | .blockReset s1 => .next (resetBlock s1)
  | .packet bytes s1 =>
    match readPacket s1.cfg bytes with
    | .ok i => exec i s1
    | .error e => rejectPacket e s1

/-- The instruction of the opcode table's word presented as the next packet of the port. A controller
row is presented as the SENDCMD or SENDCMDD packet by which alone the host can have the block issue it
(40 R142; log 9, log 11). -/
def State.withFetchWord (s : State) (nbits w : Nat) : State :=
  { s with port := .packet (tablePacket nbits w) :: s.port }

end Sys2Proof.Machine
end

