-- ==== Sys2Proof/Safety.lean ====
section
/-!
DEFINITION. The terms claims are stated in: the invariant of the block, the transport's answers still
to come, the traces a transaction leaves, and closed forms of what the drawing commands put in a cell.
-/

namespace Sys2Proof.Machine

/-! The invariant -/

/-- The integers a coordinate register of `bits` bits can hold, two's complement (00 R9, R10). -/
abbrev InCoord (bits : Nat) (n : Int) : Prop := -(2 ^ (bits - 1)) ≤ n ∧ n < 2 ^ (bits - 1)

/-- The cursor's two registers of `bits` bits hold what fits them (00 R10, 10 R24). -/
abbrev TextContext.InRange (bits : Nat) (tc : TextContext) : Prop :=
  InCoord bits tc.cx ∧ InCoord bits tc.cy

/-- What holds of a slot (10 R32, R33, 44 R238): its three coordinates fit registers of `bits` bits; once
initialised, its width is that of its bounded
text, and while its line is wider than the grid the sweep stays within `[0, pw - 128]`, turning at
each end; never initialised, its text is empty. -/
structure Slot.Good (bits : Nat) (l : Slot) : Prop where
  ranges : InCoord bits l.pw ∧ InCoord bits l.offset ∧ InCoord bits l.y
  unset : l.valid = false → l.text = []
  width : l.valid = true → l.pw = 7 * (l.text.length : Int) - 1 ∧ l.text.length ≤ scrollCap
  sweep : l.valid = true → 128 < l.pw →
    0 ≤ l.offset ∧ l.offset ≤ l.pw - 128 ∧
    (l.offset = 0 → l.dir = .plus) ∧ (l.offset = l.pw - 128 → l.dir = .minus)

/-- A payload is a non-empty byte list (40 R120). -/
def Event.PayloadFits (e : Event) : Prop :=
  match e with
  | .tx (.cmdData _ payload) _ => payload ≠ []
  | .tx (.data payload) _ => payload ≠ []
  | _ => True

/-- The invariant of the block between two commands: the grid is canonical and has 8192 cells (10 R22),
the text size is 1 to 4 (10 R25), a coordinate register has at least the 16 bits of a packet field
(log 21) and the cursor fits its two (00 R10), `PSTATE` is never Resetting and is Configuring only after a failed
INIT (10 R29), the slot file has `N_SCROLL` slots, at most 256 (00 R7, 10 R31), each good (10 R33), and
every payload sent was non-empty (40 R120). -/
structure State.Inv (s : State) : Prop where
  grid : Memory.wf s.grid = true
  size : 1 ≤ s.tc.size.toNat ∧ s.tc.size.toNat ≤ 4
  coordBits : 16 ≤ s.cfg.coordBits
  cursor : s.tc.InRange s.cfg.coordBits
  notResetting : s.pstate ≠ .resetting
  configuring : s.pstate = .configuring → s.xfail = true
  slotCount : s.scr.length = s.cfg.nScroll ∧ 1 ≤ s.cfg.nScroll ∧ s.cfg.nScroll ≤ 256
  slots : ∀ l ∈ s.scr, l.Good s.cfg.coordBits
  payloads : ∀ e ∈ s.bus, e.PayloadFits

/-! The transport -/

/-- The answer the environment gives to the `k`-th attempt from now, `k` from 0 (40 R121): those laid
down first, then the free stream. -/
def upcoming (s : State) (k : Nat) : Answer :=
  match s.answers[k]? with
  | some a => a
  | none => Config.freeAnswer (s.drawn + (k - s.answers.length))

/-- From answer `j` on (from 0), `n` attempts in a row are answered fail. -/
def AnswersFail (s : State) (j n : Nat) : Prop := ∀ k, k < n → upcoming s (j + k) = .fail

/-- The transaction that begins at answer `j` fails `k` times, within its bound, and then succeeds
(40 R122). -/
def SucceedsAfter (s : State) (j k : Nat) : Prop :=
  k ≤ s.cfg.retryMax ∧ AnswersFail s j k ∧ upcoming s (j + k) = .ok

/-- The transaction that begins at answer `j` fails on all `1 + RETRY_MAX` attempts (40 R122). -/
def IsLost (s : State) (j : Nat) : Prop := AnswersFail s j (s.cfg.retryMax + 1)

/-- The transactions that begin at answer `j` all succeed, the first after `ks[0]` failed attempts, the
next after `ks[1]`, and so on. -/
def AllSucceed (s : State) (j : Nat) (ks : List Nat) : Prop :=
  match ks with
  | [] => True
  | k :: rest => SucceedsAfter s j k ∧ AllSucceed s (j + k + 1) rest

/-- The answers that transactions with these numbers of failed attempts use. -/
def answersUsed (ks : List Nat) : Nat := (ks.map fun k => k + 1).sum

/-- `t` has used up exactly `n` answers of `s`. -/
def UsedAnswers (s t : State) (n : Nat) : Prop := ∀ k, upcoming t k = upcoming s (n + k)

/-- The events of `k` failed attempts that were followed by another one (40 R122). -/
def failTrace (t : Transaction) (delayMs k : Nat) : List Event :=
  (List.replicate k [Event.tx t .fail, Event.delay delayMs]).flatten

/-- The events of a transaction that succeeded after `k` failed attempts (40 R122). -/
def okTrace (t : Transaction) (delayMs k : Nat) : List Event :=
  failTrace t delayMs k ++ [.tx t .ok]

/-- The events of a transaction that exhausted its attempts after `k` retries (40 R122). -/
def lostTrace (t : Transaction) (delayMs k : Nat) : List Event :=
  failTrace t delayMs k ++ [.tx t .fail]

/-- The events of transactions that each succeeded, after the given numbers of failed attempts. -/
def sentTrace (ts : List Transaction) (delayMs : Nat) (ks : List Nat) : List Event :=
  (List.zipWith (fun t k => okTrace t delayMs k) ts ks).flatten

/-- The 67 transactions of a refresh (41 R165). -/
def refreshList (cfg : Config) (m : Memory) : List Transaction :=
  [.cmdData 0x15 [cfg.winFull.colStart, cfg.winFull.colEnd],
    .cmdData 0x75 [cfg.winFull.rowStart, cfg.winFull.rowEnd], .cmd 0x5C] ++
  (List.range 64).map fun y =>
    match cfg.rowFraming with
    | .cmdPrefixed => .cmdData 0x5C (rowBytes m y)
    | .dataOnly => .data (rowBytes m y)

/-- The 21 transactions of INIT: display off, the 19 entries of 40 R140, display on (40 R134). -/
def initList (cfg : Config) : List Transaction :=
  [.cmd 0xAE] ++
  List.zipWith
    (fun op payload => if payload.length = 0 then .cmd op else .cmdData op payload)
    [0xFD, 0xB3, 0xCA, 0xA2, 0xAB, 0xA1, 0xA0, 0xC7, 0xC1, 0xB1, 0xBB, 0xB4, 0xBE, 0xA6, 0xA9,
      0xD1, 0xB5, 0xB9, 0xB6] cfg.initPayload.toList ++
  [.cmd 0xAF]

/-- The four events of a reset pulse (40 R126). -/
def pulseTrace : List Event := [.resetLine 0, .delay 150, .resetLine 1, .delay 150]

/-- The one transaction of the commands that issue a single raw transaction: SENDCMD, SENDCMDD and the
controller rows (40 R124, R125; 30 R100). -/
def rawTransaction (i : Instr) : Option Transaction :=
  match i with
  | .sendcmd cop => some (.cmd cop)
  | .sendcmdd _ [] => none
  | .sendcmdd cop (p :: payload) => some (.cmdData cop (p :: payload))
  | _ =>
    match i.side with
    | .host => none
    | .controller =>
      match encode i with
      | [] => none
      | [op] => some (.cmd op)
      | op :: p :: payload => some (.cmdData op (p :: payload))

/-! Kinds of commands and statuses -/

/-- The commands admitted in every `PSTATE` that are "pure in-memory mutation" (first row of 40 R128). -/
def isDrawing (i : Instr) : Bool :=
  match i with
  | .setpixel _ _ _ | .clear | .drawchar _ _ _ | .drawchars _ _ _ _ _ | .drawstroff _ _ _
  | .txtinit | .setcursor _ _ | .setsize _ | .setcolor _ | .setwrap _ | .printchar _
  | .printstr _ | .drawstr _ _ _ | .scrinit _ _ _ | .scrtick _ | .blit4 _ _ _ _ _
  | .blit2 _ _ _ _ _ => true
  | _ => false

/-- The admission table of 40 R128, one row of it a pattern; Resetting does not occur between commands
and admits what Configuring admits. -/
def admitted (i : Instr) (p : PState) : Bool :=
  match i with
  | .init => p == .uninitialized
  | .setpower _ | .refresh | .clrrefresh | .drawstrc _ => p == .poweredOff || p == .poweredOn
  | _ => true

/-- The window shadows record ranges that were sent with success (10 R30). -/
def State.ShadowsSent (s : State) : Prop :=
  (∀ a b, s.wincol = some (a, b) → Event.tx (.cmdData 0x15 [a, b]) .ok ∈ s.bus) ∧
  (∀ a b, s.winrow = some (a, b) → Event.tx (.cmdData 0x75 [a, b]) .ok ∈ s.bus)

/-- The statuses of a refusal (60 R260, R261). -/
def isRefusal (st : Status) : Bool :=
  match st with
  | .illegalOpcode | .malformed | .illegalOperand | .illegalState => true
  | .ok | .xfail => false

/-- The last transaction attempt of a trace, with its answer. -/
def lastAttempt (bus : List Event) : Option (Transaction × Answer) :=
  match bus.reverse.filterMap (fun e => match e with | .tx t r => some (t, r) | _ => none) with
  | [] => none
  | a :: _ => some a

/-- Packet lengths, the column of 30 R83: the length fits the opcode in byte 0. -/
def lengthFits (pkt : List Byte) : Bool :=
  let n := pkt.length
  match (pkt.getD 0 0).toNat with
  | 0x10 | 0x20 => n == 6
  | 0x21 => n == 8
  | 0x22 | 0x36 => decide (1 ≤ n)
  | 0x23 | 0x37 => decide (5 ≤ n)
  | 0x31 | 0x83 => n == 5
  | 0x32 | 0x33 | 0x34 | 0x35 | 0x41 | 0x80 | 0x84 => n == 2
  | 0x40 => decide (4 ≤ n)
  | 0x50 => n == 7 + (pkt.getD 6 0).toNat * (((pkt.getD 5 0).toNat + 1) / 2) && decide (7 ≤ n)
  | 0x51 => n == 7 + (pkt.getD 6 0).toNat * (((pkt.getD 5 0).toNat + 3) / 4) && decide (7 ≤ n)
  | 0x81 => decide (3 ≤ n)
  | _ => n == 1

/-! What a drawing puts in a cell -/

/-- The level the plain glyph of `c` at `(x, y)` puts at column `X`, row `Y`, if it covers that cell
(42 R180). -/
def glyphCell (font : Font) (x y : Int) (c : Byte) (X Y : Nat) : Option Level :=
  if 32 ≤ c.toNat ∧ c.toNat ≤ 127 ∧ x ≤ X ∧ (X : Int) < x + 6 ∧ y ≤ Y ∧ (Y : Int) < y + 8 then
    some (if glyphBit font c (X - x).toNat (Y - y).toNat then 3 else 0)
  else none

/-- The level the scaled glyph of `c` at `(x, y)` puts at column `X`, row `Y`: only under set bits
(42 R182). -/
def scaledCell (font : Font) (x y : Int) (c : Byte) (size color : Nat) (X Y : Nat) :
    Option Level :=
  if 32 ≤ c.toNat ∧ c.toNat ≤ 127 ∧ x ≤ X ∧ (X : Int) < x + 6 * size ∧ y ≤ Y ∧
      (Y : Int) < y + 8 * size ∧
      glyphBit font c ((X - x).toNat / size) ((Y - y).toNat / size) = true then
    some (BitVec.ofNat 2 color)
  else none

/-- The level a string of plain glyphs, 7 columns apart from `(x0, y0)`, puts at column `X`, row `Y`
(42 R184, R186). -/
def pitchCell (font : Font) (str : List Byte) (x0 y0 : Int) (X Y : Nat) : Option Level :=
  if x0 ≤ X then
    match str[(X - x0).toNat / 7]? with
    | some c => glyphCell font (x0 + 7 * ((X - x0).toNat / 7 : Nat)) y0 c X Y
    | none => none
  else none

/-- Where DRAWSTR places its characters, with no early end: origin and code of each (43 R210). -/
def strOrigins (tc : TextContext) (x cx cy : Int) (str : List Byte) : List (Int × Int × Byte) :=
  match str with
  | [] => []
  | c :: rest =>
    if c.toNat = 10 then strOrigins tc x x (cy + 9 * tc.size.toNat) rest
    else if tc.wrap = true ∧ cx + 6 * tc.size.toNat > 128 then
      (x, cy + 9 * tc.size.toNat, c) ::
        strOrigins tc x (x + 7 * tc.size.toNat) (cy + 9 * tc.size.toNat) rest
    else (cx, cy, c) :: strOrigins tc x (cx + 7 * tc.size.toNat) cy rest

/-- One instruction executed `n` times in a row. -/
def execTimes (i : Instr) (n : Nat) (s : State) : Host.Outcome State Fault Refusal :=
  match n with
  | 0 => .next s
  | k + 1 =>
    match exec i s with
    | .next t => execTimes i k t
    | .fault r => .fault r
    | .refused r => .refused r

/-- The offset of the `n`-th drawing of a sweep over `0 .. travel`, from 0 upwards (44 R238). -/
def sweepOffset (travel n : Nat) : Nat :=
  let p := n % (2 * travel)
  if p ≤ travel then p else 2 * travel - p

end Sys2Proof.Machine
end

