-- ==== Sys2Proof/Certificates/Slice0/Obligations.lean ====
section
/-!
DEFINITION. The statements for the provers, each a proposition about the model that formalises rules of
the spec. A state `s` is any state, reachable or not, unless a premise says more.
-/

open Sys2Proof Sys2Proof.Machine

/-! Encoding -/

/-- R82 to R95: the decoder reads back the packet of every well-formed host command, with every operand
at every value and under all parameters. -/
def Obligations.DecodeEncodeHost : Prop :=
  ∀ (cfg : Config) (i : Instr), i.side = .host → i.wellFormed cfg = true →
    decodePacket (encode i) = .ok i

/-- R100, R101, R110: the controller side reads back every well-formed controller row from the
transaction that carries it. -/
def Obligations.DecodeEncodeController : Prop :=
  ∀ (cfg : Config) (i : Instr) (t : Transaction), i.side = .controller → i.wellFormed cfg = true →
    rawTransaction i = some t → decodeTransaction t = .ok i

/-- R82, R98: a packet that decodes is the packet of exactly the command it decodes to, which is a host
command, well formed under every `PKT_MAX` that admits the packet; no two packets decode to one
command. -/
def Obligations.DecodedPacketIsEncoding : Prop :=
  ∀ (pkt : List Byte) (i : Instr), decodePacket pkt = .ok i →
    encode i = pkt ∧ i.side = .host ∧
    ∀ cfg : Config, pkt.length ≤ cfg.pktMax → i.wellFormed cfg = true

/-- Words written out from R83 to R95 (the packets of R99, R161, R183, R187, R210, R232, R247) and from
R100 and R102 decode to what they stand for. -/
def Obligations.SampleWordsDecode : Prop :=
  decodePacket [0x10, 0x7F, 0x00, 0x3F, 0x00, 0x02] = .ok (.setpixel 127 63 2) ∧
  decodePacket [0x21, 0x0A, 0x00, 0x14, 0x00, 0x21, 0x02, 0x01] = .ok (.drawchars 10 20 0x21 2 1) ∧
  decodePacket [0x23, 0x08, 0x00, 0xFD, 0xFF, 0x48, 0x69] =
    .ok (.drawstroff 8 (BitVec.ofInt 16 (-3)) [0x48, 0x69]) ∧
  decodePacket [0x37, 0x0A, 0x00, 0x32, 0x00, 0x41, 0x0A, 0x42] =
    .ok (.drawstr 10 50 [0x41, 0x0A, 0x42]) ∧
  decodePacket [0x40, 0x00, 0x14, 0x00, 0x48, 0x45, 0x4C, 0x4C, 0x4F] =
    .ok (.scrinit 0 20 [0x48, 0x45, 0x4C, 0x4C, 0x4F]) ∧
  decodePacket [0x50, 0x00, 0x00, 0x00, 0x00, 0x02, 0x01, 0xF0] = .ok (.blit4 0 0 2 1 [0xF0]) ∧
  decodePacket [0x81, 0xC1, 0x80] = .ok (.sendcmdd 0xC1 [0x80]) ∧
  decodeTransaction (.cmdData 0x15 [0x1C, 0x5B]) = .ok (.cSetcol 0x1C 0x5B) ∧
  decodeTransaction (.cmd 0xAF) = .ok .cDispon

/-! The command port -/

/-- R96: a packet with a reserved opcode changes `STATUS` to ILLEGAL_OPCODE and nothing else. -/
def Obligations.ReservedOpcodeRefused : Prop :=
  ∀ (s : State) (op : Byte) (rest : List Byte) (later : List Input),
    s.port = .packet (op :: rest) :: later → rest.length < s.cfg.pktMax →
    op.toNat ∉ [0x10, 0x11, 0x20, 0x21, 0x22, 0x23, 0x30, 0x31, 0x32, 0x33, 0x34, 0x35, 0x36, 0x37,
      0x40, 0x41, 0x50, 0x51, 0x60, 0x61, 0x80, 0x81, 0x82, 0x83, 0x84, 0x85] →
    step s = .next { s with port := later, status := .illegalOpcode }

/-- R97: a packet whose opcode is in the table but whose length is not the one its format requires
changes `STATUS` to MALFORMED and nothing else, in every state (so also before any check of operands or
of `PSTATE`, R265). -/
def Obligations.WrongLengthRefused : Prop :=
  ∀ (s : State) (op : Byte) (rest : List Byte) (later : List Input),
    s.port = .packet (op :: rest) :: later → rest.length < s.cfg.pktMax →
    op.toNat ∈ [0x10, 0x11, 0x20, 0x21, 0x22, 0x23, 0x30, 0x31, 0x32, 0x33, 0x34, 0x35, 0x36, 0x37,
      0x40, 0x41, 0x50, 0x51, 0x60, 0x61, 0x80, 0x81, 0x82, 0x83, 0x84, 0x85] →
    lengthFits (op :: rest) = false →
    step s = .next { s with port := later, status := .malformed }

/-- R80, R82: when the next packet, no longer than `PKT_MAX`, decodes, the step takes it from the port
and is `exec` of the command, and nothing is added around it. -/
def Obligations.StepRunsDecoded : Prop :=
  ∀ (s : State) (pkt : List Byte) (later : List Input) (i : Instr),
    s.port = .packet pkt :: later → pkt.length ≤ s.cfg.pktMax → decodePacket pkt = .ok i →
    step s = exec i { s with port := later }

/-- With nothing presented the block waits, from reset on (R290); the model's own reading of a step
without an input (log 6). -/
def Obligations.StepWaitsWithoutInput : Prop :=
  ∀ s : State, s.port = [] → step s = .next s

/-- R81: a packet longer than `PKT_MAX` or of length 0 cannot be presented; a state that presents one
is a fault of the model (log 7). -/
def Obligations.UnpresentablePacketFaults : Prop :=
  ∀ (s : State) (pkt : List Byte) (later : List Input),
    s.port = .packet pkt :: later → (pkt.length = 0 ∨ s.cfg.pktMax < pkt.length) →
    step s = .fault .packetNotPresentable

/-! Reset -/

/-- R38, R290: the values the spec states for reset; `GRID` and the four other slot fields have none. -/
def Obligations.ResetValues : Prop :=
  let s := State.reset
  s.tc = { cx := 0, cy := 0, size := 1, color := 3, wrap := false } ∧
  s.scr.length = s.cfg.nScroll ∧ (∀ l ∈ s.scr, l.valid = false ∧ l.text = []) ∧
  s.pstate = .uninitialized ∧ s.wincol = none ∧ s.winrow = none ∧ s.xfail = false ∧
  statusCode s.status = 0x00 ∧ s.bus = []

/-- R109: the status byte the host reads. -/
def Obligations.StatusCodes : Prop :=
  statusCode .ok = 0x00 ∧ statusCode .xfail = 0x01 ∧ statusCode .illegalOpcode = 0x02 ∧
  statusCode .malformed = 0x03 ∧ statusCode .illegalOperand = 0x04 ∧ statusCode .illegalState = 0x05

/-- R290, R291: a pulse of the block's reset input puts the spec's state at the values of R38 and emits
no event; it takes the place of one step, between commands (the model's choice, log 6), and leaves the
inputs and answers to come and the parameters alone. -/
def Obligations.BlockResetResult : Prop :=
  ∀ (s : State) (later : List Input), s.port = .blockReset :: later →
    ∃ t, step s = .next t ∧
      t.tc = { cx := 0, cy := 0, size := 1, color := 3, wrap := false } ∧
      (∀ l ∈ t.scr, l.valid = false ∧ l.text = []) ∧ t.scr.length = s.cfg.nScroll ∧
      t.pstate = .uninitialized ∧ t.wincol = none ∧ t.winrow = none ∧ t.xfail = false ∧
      statusCode t.status = 0x00 ∧ t.bus = [] ∧
      t.cfg = s.cfg ∧ t.port = later ∧ t.answers = s.answers ∧ t.drawn = s.drawn

/-- The invariant holds right after reset. -/
def Obligations.ResetMeetsInvariant : Prop := State.reset.Inv

/-! The whole machine -/

/-- Every step keeps the invariant: the grid's canonical form (R22, R23), the text size (R25), the
coordinate registers within their bits (R10), the protocol state between commands (R29), the slots
(R31, R33) and the payloads (R120). -/
def Obligations.StepKeepsInvariant : Prop :=
  ∀ s t : State, s.Inv → Sys2Proof.Machine.step s = .next t → t.Inv

/-- R36: between two resets of the block `BUS` only grows at its end; and no step changes the
parameters (R26). -/
def Obligations.BusOnlyGrows : Prop :=
  ∀ s t : State, step s = .next t →
    t.cfg = s.cfg ∧ ((∀ later, s.port ≠ .blockReset :: later) → s.bus <+: t.bus)

/-- R34: `XFAIL`, once set, is cleared only by a reset of the block. -/
def Obligations.XfailIsSticky : Prop :=
  ∀ s t : State, step s = .next t → s.xfail = true → t.xfail = false →
    ∃ later, s.port = .blockReset :: later

/-- R261, R266: a command that ends in a refusal has changed `STATUS` and nothing else. -/
def Obligations.RefusalChangesOnlyStatus : Prop :=
  ∀ (i : Instr) (s t : State), exec i s = .next t → isRefusal t.status = true →
    t = { s with status := t.status }

/-- R260: status XFAIL comes with `XFAIL` set, and the failing attempt is the last `Tx` event of `BUS`;
no other status changes `XFAIL`. -/
def Obligations.XfailStatusRecord : Prop :=
  ∀ (i : Instr) (s t : State), exec i s = .next t →
    (t.status = .xfail → t.xfail = true ∧ ∃ tr, lastAttempt t.bus = some (tr, .fail)) ∧
    (t.status ≠ .xfail → t.xfail = s.xfail)

/-- R64, R304: a drawing command, admitted in every `PSTATE`, changes nothing but the grid, the text
context, the slots and `STATUS`; in particular nothing outside the block sees it. -/
def Obligations.DrawingStaysInside : Prop :=
  ∀ (i : Instr) (s : State), isDrawing i = true →
    ∃ t, exec i s = .next t ∧
      t = { s with grid := t.grid, tc := t.tc, scr := t.scr, status := t.status } ∧
      (t.status = .illegalState → ∃ slot, i = .scrtick slot)

/-- R28: which commands move `PSTATE`, and where to. -/
def Obligations.ProtocolStateMoves : Prop :=
  ∀ (i : Instr) (s t : State), exec i s = .next t → t.pstate ≠ s.pstate →
    (i = .hwreset ∧ t.pstate = .uninitialized) ∨
    (∃ b, i = .setpower b ∧ isPowered s = true ∧ t.status = .ok ∧
      t.pstate = (if b = 0 then .poweredOff else .poweredOn)) ∨
    (i = .init ∧ s.pstate = .uninitialized ∧
      ((t.status = .ok ∧ t.pstate = .poweredOn) ∨
        (t.status = .xfail ∧ (t.pstate = .configuring ∨ t.pstate = .poweredOff))))

/-- R128: the admission table. A host command not admitted in the present `PSTATE` changes `STATUS` to
ILLEGAL_STATE and nothing else; one that is admitted does not end with ILLEGAL_STATE, but for SCRTICK,
which also ends so on a slot never initialised (R235). -/
def Obligations.AdmissionTable : Prop :=
  ∀ (i : Instr) (s : State), i.side = .host →
    (admitted i s.pstate = false → exec i s = .next { s with status := .illegalState }) ∧
    (admitted i s.pstate = true → ∃ t, exec i s = .next t ∧
      (t.status = .illegalState →
        ∃ slot, i = .scrtick slot ∧ ∀ l, s.scr[slot.toNat]? = some l → l.valid = false))

/-- R30: the window shadows keep recording a range that was sent with success since the last reset of
the block. -/
def Obligations.ShadowsWereSent : Prop :=
  ∀ s t : State, s.ShadowsSent → step s = .next t → t.ShadowsSent

/-- R30, R34, R36: `XFAIL`, the window shadows, `BUS` and the last status change the behaviour of no
command: two states that differ only in them append the same events to `BUS`, end with the same status
and with equal other fields, and each of the three records is either left alone by both runs or written
with the same value by both. -/
def Obligations.RecordsAreNotRead : Prop :=
  ∀ (i : Instr) (s : State) (x : Bool) (wc wr : Option (Byte × Byte)) (st : Status)
    (bus : List Event),
    ∃ t u, exec i s = .next t ∧
      exec i { s with xfail := x, wincol := wc, winrow := wr, status := st, bus := bus } = .next u ∧
      u = { t with xfail := u.xfail, wincol := u.wincol, winrow := u.winrow, bus := u.bus } ∧
      (∃ es, t.bus = s.bus ++ es ∧ u.bus = bus ++ es) ∧
      ((t.xfail = s.xfail ∧ u.xfail = x) ∨ u.xfail = t.xfail) ∧
      ((t.wincol = s.wincol ∧ u.wincol = wc) ∨ u.wincol = t.wincol) ∧
      ((t.winrow = s.winrow ∧ u.winrow = wr) ∨ u.winrow = t.winrow)

/-! Pixels and refresh -/

/-- R160: `Plot` stores the low two bits of `v` in the cell it names if that is on the grid, and leaves
every other cell alone. -/
def Obligations.PlotWritesOneCell : Prop :=
  ∀ (m : Memory) (x y : Int) (v : Nat), Memory.wf m = true →
    (∀ X Y : Nat, X < 128 → Y < 64 →
      cell (plot x y v m) X Y = if x = X ∧ y = Y then BitVec.ofNat 2 v else cell m X Y) ∧
    (¬ (0 ≤ x ∧ x ≤ 127 ∧ 0 ≤ y ∧ y ≤ 63) → plot x y v m = m)

/-- R161: SETPIXEL, whatever the coordinates. -/
def Obligations.SetpixelResult : Prop :=
  ∀ (s : State) (x y : S16) (level : Byte), Memory.wf s.grid = true →
    decodePacket [0x10, loByte x, hiByte x, loByte y, hiByte y, level] = .ok (.setpixel x y level) ∧
    ∃ g, exec (.setpixel x y level) s = .next { s with grid := g, status := .ok } ∧
      ∀ X Y : Nat, X < 128 → Y < 64 →
        cell g X Y =
          if x.toInt = X ∧ y.toInt = Y then BitVec.ofNat 2 level.toNat else cell s.grid X Y

/-- R162, R163: CLEAR. -/
def Obligations.ClearResult : Prop :=
  decodePacket [0x11] = .ok .clear ∧
  ∀ s : State, ∃ g, exec .clear s = .next { s with grid := g, status := .ok } ∧
    ∀ X Y : Nat, X < 128 → Y < 64 → cell g X Y = 0

/-- R104, R105: a row of a refresh has 256 bytes, and bytes `2x` and `2x + 1` are the expansion
of the cell at column `x` (R170). Column 0 first is the spec's reading (R105: "Column 0 first is the
spec's reading"). -/
def Obligations.RowBytesDoubled : Prop :=
  ∀ (m : Memory) (y : Nat),
    (rowBytes m y).length = 256 ∧
    ∀ x : Nat, x < 128 →
      (rowBytes m y)[2 * x]? =
        some (if cell m x y = 0 then 0x00 else if cell m x y = 1 then 0x55
          else if cell m x y = 2 then 0xAA else 0xFF) ∧
      (rowBytes m y)[2 * x + 1]? = (rowBytes m y)[2 * x]?

/-- R165, R168, R170: REFRESH. Not admitted, it changes `STATUS` only. Admitted, with every
transaction answered ok within its bound, `BUS` gains the 67 transactions in order (each after its failed
attempts), the shadows take the window, and nothing else changes. When the first transactions succeed
and the next one is lost, the command ends there: what was sent stays sent, nothing more is tried. That
rows go out in ascending order is the spec's reading (R165: "ascending is the spec's reading"). -/
def Obligations.RefreshResult : Prop :=
  decodePacket [0x60] = .ok .refresh ∧
  ∀ s : State,
    (s.pstate ≠ .poweredOff → s.pstate ≠ .poweredOn →
      exec .refresh s = .next { s with status := .illegalState }) ∧
    (s.pstate = .poweredOff ∨ s.pstate = .poweredOn →
      (∀ ks : List Nat, ks.length = 67 → AllSucceed s 0 ks → ∃ ans dr,
        exec .refresh s = .next { s with
          bus := s.bus ++ sentTrace (refreshList s.cfg s.grid) s.cfg.retryDelayMs ks
          wincol := some (s.cfg.winFull.colStart, s.cfg.winFull.colEnd)
          winrow := some (s.cfg.winFull.rowStart, s.cfg.winFull.rowEnd)
          status := .ok, answers := ans, drawn := dr } ∧
        UsedAnswers s { s with answers := ans, drawn := dr } (answersUsed ks)) ∧
      (∀ (ks : List Nat) (tr : Transaction), (refreshList s.cfg s.grid)[ks.length]? = some tr →
        AllSucceed s 0 ks → IsLost s (answersUsed ks) → ∃ ans dr,
        exec .refresh s = .next { s with
          bus := s.bus ++ sentTrace (refreshList s.cfg s.grid) s.cfg.retryDelayMs ks ++
            lostTrace tr s.cfg.retryDelayMs s.cfg.retryMax
          wincol := if ks.length = 0 then s.wincol
            else some (s.cfg.winFull.colStart, s.cfg.winFull.colEnd)
          winrow := if ks.length ≤ 1 then s.winrow
            else some (s.cfg.winFull.rowStart, s.cfg.winFull.rowEnd)
          xfail := true, status := .xfail, answers := ans, drawn := dr }))

/-- R169: CLRREFRESH: the grid is all 0 and so is every byte of every row, then as REFRESH; not
admitted, the grid is not cleared. -/
def Obligations.ClrrefreshResult : Prop :=
  decodePacket [0x61] = .ok .clrrefresh ∧
  ∃ g : Memory, (∀ X Y : Nat, X < 128 → Y < 64 → cell g X Y = 0) ∧
    (∀ y : Nat, y < 64 → rowBytes g y = List.replicate 256 0x00) ∧
    ∀ s : State,
      (s.pstate ≠ .poweredOff → s.pstate ≠ .poweredOn →
        exec .clrrefresh s = .next { s with status := .illegalState }) ∧
      (s.pstate = .poweredOff ∨ s.pstate = .poweredOn →
        exec .clrrefresh s = exec .refresh { s with grid := g } ∧
        (∀ ks : List Nat, ks.length = 67 → AllSucceed s 0 ks → ∃ ans dr,
          exec .clrrefresh s = .next { s with
            grid := g
            bus := s.bus ++ sentTrace (refreshList s.cfg g) s.cfg.retryDelayMs ks
            wincol := some (s.cfg.winFull.colStart, s.cfg.winFull.colEnd)
            winrow := some (s.cfg.winFull.rowStart, s.cfg.winFull.rowEnd)
            status := .ok, answers := ans, drawn := dr }))

/-! Glyphs and strings -/

/-- R180, R181: DRAWCHAR overwrites the 6 by 8 box of a glyph with 3 and 0, cell by cell on the grid;
a code outside 32 to 127 changes no cell. The glyph bit that this and the other drawing statements speak
of is read from the font: for a code `c` of 32 to 127, the pixel at column `k`, row `r` is bit `r` of
`FONT[c][k]` (R53), which is byte `6*(c-32) + k` of the model's font, its own layout (log 17). -/
def Obligations.DrawcharResult : Prop :=
  (∀ (font : Font) (c : Byte) (k r : Nat), 32 ≤ c.toNat → c.toNat ≤ 127 → k < 6 → r < 8 →
    ∃ b : Byte, font[6 * (c.toNat - 32) + k]? = some b ∧
      glyphBit font c k r = decide (b.toNat / 2 ^ r % 2 = 1)) ∧
  ∀ (s : State) (x y : S16) (c : Byte), Memory.wf s.grid = true →
    decodePacket [0x20, loByte x, hiByte x, loByte y, hiByte y, c] = .ok (.drawchar x y c) ∧
    ∃ g, exec (.drawchar x y c) s = .next { s with grid := g, status := .ok } ∧
      ∀ X Y : Nat, X < 128 → Y < 64 →
        cell g X Y = (glyphCell s.cfg.font x.toInt y.toInt c X Y).getD (cell s.grid X Y)

/-- R182, R183: DRAWCHARS with a size of 1 to 4 writes the colour under set bits only, in blocks of
`size` by `size` cells, and leaves unset bits untouched; another size is refused with ILLEGAL_OPERAND,
whatever the code. -/
def Obligations.DrawcharsResult : Prop :=
  ∀ (s : State) (x y : S16) (c size color : Byte), Memory.wf s.grid = true →
    decodePacket [0x21, loByte x, hiByte x, loByte y, hiByte y, c, size, color] =
      .ok (.drawchars x y c size color) ∧
    (1 ≤ size.toNat ∧ size.toNat ≤ 4 →
      ∃ g, exec (.drawchars x y c size color) s = .next { s with grid := g, status := .ok } ∧
        ∀ X Y : Nat, X < 128 → Y < 64 →
          cell g X Y =
            (scaledCell s.cfg.font x.toInt y.toInt c size.toNat color.toNat X Y).getD
              (cell s.grid X Y)) ∧
    (size.toNat = 0 ∨ 5 ≤ size.toNat →
      exec (.drawchars x y c size color) s = .next { s with status := .illegalOperand })

/-- R184, R185: DRAWSTRC: not admitted, the grid is neither cleared nor drawn. Admitted, the grid is
the cleared one with the string centred at `tdiv(128 - tw, 2)`, `tw = 7n - 1`, row 28, one glyph each 7
columns, and then as REFRESH. That the glyphs are the plain ones is the spec's reading (R184: "the
source names no size or colour here; this is the spec's reading"). -/
def Obligations.DrawstrcResult : Prop :=
  ∀ str : List Byte,
    decodePacket (0x22 :: str) = .ok (.drawstrc str) ∧
    ∀ s : State,
      (s.pstate ≠ .poweredOff → s.pstate ≠ .poweredOn →
        exec (.drawstrc str) s = .next { s with status := .illegalState }) ∧
      (s.pstate = .poweredOff ∨ s.pstate = .poweredOn →
        ∃ g, (∀ X Y : Nat, X < 128 → Y < 64 →
            cell g X Y = (pitchCell s.cfg.font str
              (Int.tdiv (128 - (7 * (str.length : Int) - 1)) 2) 28 X Y).getD 0) ∧
          exec (.drawstrc str) s = exec .refresh { s with grid := g } ∧
          (∀ ks : List Nat, ks.length = 67 → AllSucceed s 0 ks → ∃ ans dr,
            exec (.drawstrc str) s = .next { s with
              grid := g
              bus := s.bus ++ sentTrace (refreshList s.cfg g) s.cfg.retryDelayMs ks
              wincol := some (s.cfg.winFull.colStart, s.cfg.winFull.colEnd)
              winrow := some (s.cfg.winFull.rowStart, s.cfg.winFull.rowEnd)
              status := .ok, answers := ans, drawn := dr }))

/-- R186, R187: DRAWSTROFF clears rows `y` to `y + 7` over all columns, draws the string from column
`-offset` there, and leaves every row outside the band alone. That the band has full width is the spec's
reading (R186: "full width is the spec's reading"). -/
def Obligations.DrawstroffResult : Prop :=
  ∀ (s : State) (y offset : S16) (str : List Byte), Memory.wf s.grid = true →
    decodePacket (0x23 :: loByte y :: hiByte y :: loByte offset :: hiByte offset :: str) =
      .ok (.drawstroff y offset str) ∧
    ∃ g, exec (.drawstroff y offset str) s = .next { s with grid := g, status := .ok } ∧
      ∀ X Y : Nat, X < 128 → Y < 64 →
        cell g X Y =
          if y.toInt ≤ Y ∧ (Y : Int) ≤ y.toInt + 7 then
            (pitchCell s.cfg.font str (-offset.toInt) y.toInt X Y).getD 0
          else cell s.grid X Y

/-! Text -/

/-- R200: TXTINIT. -/
def Obligations.TxtinitResult : Prop :=
  decodePacket [0x30] = .ok .txtinit ∧
  ∀ s : State, exec .txtinit s = .next { s with
    tc := { cx := 0, cy := 0, size := 1, color := 3, wrap := false }, status := .ok }

/-- R201: SETCURSOR. -/
def Obligations.SetcursorResult : Prop :=
  ∀ (s : State) (x y : S16),
    decodePacket [0x31, loByte x, hiByte x, loByte y, hiByte y] = .ok (.setcursor x y) ∧
    exec (.setcursor x y) s = .next { s with
      tc := { s.tc with cx := x.toInt, cy := y.toInt }, status := .ok }

/-- R202: SETSIZE with 1 to 4, and its refusal outside. -/
def Obligations.SetsizeResult : Prop :=
  ∀ (s : State) (b : Byte),
    decodePacket [0x32, b] = .ok (.setsize b) ∧
    (1 ≤ b.toNat ∧ b.toNat ≤ 4 →
      ∃ size, exec (.setsize b) s = .next { s with
        tc := { s.tc with size := size }, status := .ok } ∧ size.toNat = b.toNat) ∧
    (b.toNat = 0 ∨ 5 ≤ b.toNat →
      exec (.setsize b) s = .next { s with status := .illegalOperand })

/-- R203: SETCOLOR. -/
def Obligations.SetcolorResult : Prop :=
  ∀ (s : State) (b : Byte), decodePacket [0x33, b] = .ok (.setcolor b) ∧
    ∃ color, exec (.setcolor b) s = .next { s with
      tc := { s.tc with color := color }, status := .ok } ∧ color.toNat = b.toNat % 4

/-- R204: SETWRAP. -/
def Obligations.SetwrapResult : Prop :=
  ∀ (s : State) (b : Byte), decodePacket [0x34, b] = .ok (.setwrap b) ∧
    exec (.setwrap b) s = .next { s with
      tc := { s.tc with wrap := decide (b.toNat ≠ 0) }, status := .ok }

/-- R206, R207, R208: PRINTCHAR: a newline breaks the line; any other byte breaks it first when wrap
is on and its box would pass column 128; at row 64 or below it is then skipped entirely, and otherwise
drawn and the cursor advanced. What is written to the cursor is reduced to its `COORD_BITS` bits (R10,
`wrapTo`). The edge test `cx + 6*size > 128` is the spec's reading (R206). -/
def Obligations.PrintcharResult : Prop :=
  ∀ (s : State) (c : Byte), Memory.wf s.grid = true →
    let size := s.tc.size.toNat
    let brk : TextContext :=
      { s.tc with cx := 0, cy := wrapTo s.cfg.coordBits (s.tc.cy + 9 * size) }
    let tc := if s.tc.wrap = true ∧ s.tc.cx + 6 * size > 128 then brk else s.tc
    decodePacket [0x35, c] = .ok (.printchar c) ∧
    (c = 10 → exec (.printchar c) s = .next { s with tc := brk, status := .ok }) ∧
    (c ≠ 10 → 64 ≤ tc.cy →
      exec (.printchar c) s = .next { s with tc := tc, status := .ok }) ∧
    (c ≠ 10 → tc.cy < 64 →
      ∃ g, exec (.printchar c) s = .next { s with
          grid := g, tc := { tc with cx := wrapTo s.cfg.coordBits (tc.cx + 7 * size) },
          status := .ok } ∧
        ∀ X Y : Nat, X < 128 → Y < 64 →
          cell g X Y =
            (scaledCell s.cfg.font tc.cx tc.cy c size s.tc.color.toNat X Y).getD
              (cell s.grid X Y))

/-- R209: PRINTSTR is one PRINTCHAR per byte, in order; the empty string changes only `STATUS`. -/
def Obligations.PrintstrIsPrintchars : Prop :=
  (∀ str : List Byte, decodePacket (0x36 :: str) = .ok (.printstr str)) ∧
  (∀ s : State, exec (.printstr []) s = .next { s with status := .ok }) ∧
  ∀ (s : State) (c : Byte) (rest : List Byte),
    ∃ t u, exec (.printchar c) s = .next t ∧ exec (.printstr rest) t = .next u ∧
      exec (.printstr (c :: rest)) s = .next u

/-- R210: DRAWSTR draws each character at its place on the lines that start at column `x`, in the text
colour and under set bits only; the cursor of the text context is untouched; and ending at row 64
changes no cell compared with going on (`strOrigins` never ends early). The edge test is the spec's
reading (R206), and so is the bound (R210: "passes row 64" is read as `cy >= 64`). -/
def Obligations.DrawstrResult : Prop :=
  ∀ (s : State) (x y : S16) (str : List Byte), Memory.wf s.grid = true →
    decodePacket (0x37 :: loByte x :: hiByte x :: loByte y :: hiByte y :: str) =
      .ok (.drawstr x y str) ∧
    ∃ g, exec (.drawstr x y str) s = .next { s with grid := g, status := .ok } ∧
      ∀ X Y : Nat, X < 128 → Y < 64 →
        cell g X Y =
          if ∃ o ∈ strOrigins s.tc x.toInt x.toInt y.toInt str,
              (scaledCell s.cfg.font o.1 o.2.1 o.2.2 s.tc.size.toNat s.tc.color.toNat X Y).isSome
          then s.tc.color else cell s.grid X Y

/-! Scroll lines -/

/-- R231, R232: SCRINIT with a slot below `N_SCROLL` stores the first 63 bytes and their width and
leaves every other slot alone; another slot number is refused with ILLEGAL_OPERAND. -/
def Obligations.ScrinitResult : Prop :=
  ∀ (s : State) (slot : Byte) (y : S16) (text : List Byte),
    decodePacket (0x40 :: slot :: loByte y :: hiByte y :: text) = .ok (.scrinit slot y text) ∧
    (s.cfg.nScroll ≤ slot.toNat →
      exec (.scrinit slot y text) s = .next { s with status := .illegalOperand }) ∧
    (slot.toNat < s.cfg.nScroll →
      ∃ l, exec (.scrinit slot y text) s = .next { s with
          scr := s.scr.set slot.toNat l, status := .ok } ∧
        l.valid = true ∧ l.text = text.take 63 ∧
        l.pw = 7 * ((min text.length 63 : Nat) : Int) - 1 ∧ l.offset = 0 ∧ l.dir = .plus ∧
        l.y = y.toInt)

/-- R231, R235, R236, R239: SCRTICK. A slot number of `N_SCROLL` or more is ILLEGAL_OPERAND, a slot
never initialised ILLEGAL_STATE, and nothing else changes. A line that fits the grid is redrawn centred
in its band and its slot keeps every field; a wider line is drawn at the current offset, which then
moves by the direction, the upper bound tested before the lower. That the band has full width is the
spec's reading (R186). -/
def Obligations.ScrtickResult : Prop :=
  ∀ (s : State) (slot : Byte),
    decodePacket [0x41, slot] = .ok (.scrtick slot) ∧
    (s.cfg.nScroll ≤ slot.toNat →
      exec (.scrtick slot) s = .next { s with status := .illegalOperand }) ∧
    ∀ l : Slot, slot.toNat < s.cfg.nScroll → s.scr[slot.toNat]? = some l →
      (l.valid = false → exec (.scrtick slot) s = .next { s with status := .illegalState }) ∧
      (l.valid = true → Memory.wf s.grid = true →
        let drawnAt : Int :=
          if l.pw ≤ 128 then -(Int.tdiv (128 - l.pw) 2) else l.offset
        let offset := wrapTo s.cfg.coordBits (l.offset + (if l.dir = .plus then 1 else -1))
        let dir1 := if offset + 128 ≥ l.pw then Direction.minus else l.dir
        let dir2 := if offset ≤ 0 then Direction.plus else dir1
        ∃ g scr, exec (.scrtick slot) s = .next { s with grid := g, scr := scr, status := .ok } ∧
          scr = (if l.pw ≤ 128 then s.scr
            else s.scr.set slot.toNat { l with offset := offset, dir := dir2 }) ∧
          ∀ X Y : Nat, X < 128 → Y < 64 →
            cell g X Y =
              if l.y ≤ Y ∧ (Y : Int) ≤ l.y + 7 then
                (pitchCell s.cfg.font l.text (-drawnAt) l.y X Y).getD 0
              else cell s.grid X Y)

/-- R238: from `offset = 0`, `dir = +1`, the offset before the `n`-th tick (from 0) is the ping-pong
sweep 0, 1, ..., T, T-1, ..., 1, 0, ... with `T = pw - 128`, of period `2*T`, and the direction is -1
from the tick that reaches `T` until the tick that reaches 0. The slot's `pw` is any value its register
can hold. -/
def Obligations.ScrollPingPong : Prop :=
  ∀ (s : State) (slot : Byte) (l : Slot) (n : Nat),
    slot.toNat < s.cfg.nScroll → s.scr[slot.toNat]? = some l → l.valid = true →
    128 < l.pw → InCoord s.cfg.coordBits l.pw → l.offset = 0 → l.dir = .plus →
    let travel := (l.pw - 128).toNat
    ∃ t m, execTimes (.scrtick slot) n s = .next t ∧ t.scr[slot.toNat]? = some m ∧
      m.offset = (sweepOffset travel n : Int) ∧
      m.dir = (if n % (2 * travel) < travel then .plus else .minus) ∧
      m.pw = l.pw ∧ m.text = l.text ∧ m.y = l.y ∧ m.valid = true

/-- R237: on a line that fits the grid a second tick leaves the state exactly as the first did. -/
def Obligations.StaticTickIdempotent : Prop :=
  ∀ (s t : State) (slot : Byte) (l : Slot), Memory.wf s.grid = true →
    s.scr[slot.toNat]? = some l → l.pw ≤ 128 →
    exec (.scrtick slot) s = .next t → exec (.scrtick slot) t = .next t

/-! Bitmaps -/

/-- R245, R246, R247: BLIT4 writes every cell of the rectangle on the grid with the upper two bits of
its nibble, high nibble first, rows on byte boundaries, and no other cell. The operands and the writing
of level 0 are the spec's reading (R245). -/
def Obligations.BlitFourResult : Prop :=
  ∀ (s : State) (x y : S16) (w h : Byte) (data : List Byte), Memory.wf s.grid = true →
    decodePacket (0x50 :: loByte x :: hiByte x :: loByte y :: hiByte y :: w :: h :: data) =
      (if data.length = h.toNat * ((w.toNat + 1) / 2) then .ok (.blit4 x y w h data)
        else .error .malformed) ∧
    (data.length = h.toNat * ((w.toNat + 1) / 2) →
    ∃ g, exec (.blit4 x y w h data) s = .next { s with grid := g, status := .ok } ∧
      ∀ X Y : Nat, X < 128 → Y < 64 →
        cell g X Y =
          if x.toInt ≤ X ∧ (X : Int) < x.toInt + w.toNat ∧ y.toInt ≤ Y ∧
              (Y : Int) < y.toInt + h.toNat then
            let q := ((X : Int) - x.toInt).toNat
            let r := ((Y : Int) - y.toInt).toNat
            let b := data.getD (r * ((w.toNat + 1) / 2) + q / 2) 0
            if q % 2 = 0 then b.extractLsb' 6 2 else b.extractLsb' 2 2
          else cell s.grid X Y)

/-- R245, R250, R251: BLIT2 writes every cell of the rectangle on the grid with its bit pair, most
significant pair first, rows on byte boundaries, and no other cell. The operands and the writing of
level 0 are the spec's reading (R245). -/
def Obligations.BlitTwoResult : Prop :=
  ∀ (s : State) (x y : S16) (w h : Byte) (data : List Byte), Memory.wf s.grid = true →
    decodePacket (0x51 :: loByte x :: hiByte x :: loByte y :: hiByte y :: w :: h :: data) =
      (if data.length = h.toNat * ((w.toNat + 3) / 4) then .ok (.blit2 x y w h data)
        else .error .malformed) ∧
    (data.length = h.toNat * ((w.toNat + 3) / 4) →
    ∃ g, exec (.blit2 x y w h data) s = .next { s with grid := g, status := .ok } ∧
      ∀ X Y : Nat, X < 128 → Y < 64 →
        cell g X Y =
          if x.toInt ≤ X ∧ (X : Int) < x.toInt + w.toNat ∧ y.toInt ≤ Y ∧
              (Y : Int) < y.toInt + h.toNat then
            let q := ((X : Int) - x.toInt).toNat
            let r := ((Y : Int) - y.toInt).toNat
            let b := data.getD (r * ((w.toNat + 3) / 4) + q / 4) 0
            b.extractLsb' (6 - 2 * (q % 4)) 2
          else cell s.grid X Y)

/-! The protocol sequencer -/

/-- R124, R125: SENDCMD and SENDCMDD, which issue one raw transaction. When some attempt within the
bound is answered ok: the failed attempts with a delay after each, the successful one, status OK. When all
`1 + RETRY_MAX` are answered fail: those attempts with a delay between them, `XFAIL` set, status XFAIL.
In both cases no other bookkeeping: `PSTATE` and the window shadows stay. A SENDCMDD packet without a
payload is MALFORMED. -/
def Obligations.RawSendResult : Prop :=
  (∀ cop : Byte, decodePacket [0x80, cop] = .ok (.sendcmd cop) ∧
    rawTransaction (.sendcmd cop) = some (.cmd cop)) ∧
  (∀ (cop p : Byte) (payload : List Byte),
    decodePacket [0x81, cop] = .error .malformed ∧
    decodePacket (0x81 :: cop :: p :: payload) = .ok (.sendcmdd cop (p :: payload)) ∧
    rawTransaction (.sendcmdd cop (p :: payload)) = some (.cmdData cop (p :: payload))) ∧
  ∀ (i : Instr) (tr : Transaction) (s : State), i.side = .host → rawTransaction i = some tr →
    (∀ k, SucceedsAfter s 0 k → ∃ ans dr,
      exec i s = .next { s with
        bus := s.bus ++ okTrace tr s.cfg.retryDelayMs k
        status := .ok, answers := ans, drawn := dr } ∧
      UsedAnswers s { s with answers := ans, drawn := dr } (k + 1)) ∧
    (IsLost s 0 → ∃ ans dr,
      exec i s = .next { s with
        bus := s.bus ++ lostTrace tr s.cfg.retryDelayMs s.cfg.retryMax
        xfail := true, status := .xfail, answers := ans, drawn := dr } ∧
      UsedAnswers s { s with answers := ans, drawn := dr } (s.cfg.retryMax + 1))

/-- The 26 controller rows (R100) executed as instructions: every one issues its command byte, with its
payload where it has one, as a single transaction and does nothing else. That they run so is the model's
reading of R142 (log 9). -/
def Obligations.ControllerRowResult : Prop :=
  ∀ i : Instr, i.side = .controller → ∃ tr, rawTransaction i = some tr ∧ ∀ s : State,
    (∀ k, SucceedsAfter s 0 k → ∃ ans dr,
      exec i s = .next { s with
        bus := s.bus ++ okTrace tr s.cfg.retryDelayMs k
        status := .ok, answers := ans, drawn := dr } ∧
      UsedAnswers s { s with answers := ans, drawn := dr } (k + 1)) ∧
    (IsLost s 0 → ∃ ans dr,
      exec i s = .next { s with
        bus := s.bus ++ lostTrace tr s.cfg.retryDelayMs s.cfg.retryMax
        xfail := true, status := .xfail, answers := ans, drawn := dr } ∧
      UsedAnswers s { s with answers := ans, drawn := dr } (s.cfg.retryMax + 1))

/-- R142: a single controller command runs as SENDCMD or SENDCMDD with the same bytes (log 9), and the
packet that presents a row of the opcode table at the port is that SENDCMD or SENDCMDD. -/
def Obligations.ControllerRowIsRawSend : Prop :=
  ∀ i : Instr, i.side = .controller →
    ∃ raw, decodePacket (rawPacket (encode i)) = .ok raw ∧
      rawTransaction raw = rawTransaction i ∧ ∀ s, exec i s = exec raw s

/-- R126, R127: HWRESET. -/
def Obligations.HwresetResult : Prop :=
  decodePacket [0x82] = .ok .hwreset ∧
  ∀ s : State, exec .hwreset s = .next { s with
    pstate := .uninitialized, wincol := none, winrow := none,
    bus := s.bus ++ [.resetLine 0, .delay 150, .resetLine 1, .delay 150], status := .ok }

/-- R102, R129, R130: SETWIN: column range, then row range, the bytes as given, each shadow written when
its own transaction has succeeded; a lost transaction ends the command there. That a payload is start
then end is the spec's reading of "range" (R102). -/
def Obligations.SetwinResult : Prop :=
  ∀ (s : State) (cs ce rs re : Byte),
    let col := Transaction.cmdData 0x15 [cs, ce]
    let row := Transaction.cmdData 0x75 [rs, re]
    decodePacket [0x83, cs, ce, rs, re] = .ok (.setwin cs ce rs re) ∧
    (∀ k m, AllSucceed s 0 [k, m] → ∃ ans dr,
      exec (.setwin cs ce rs re) s = .next { s with
        bus := s.bus ++ okTrace col s.cfg.retryDelayMs k ++ okTrace row s.cfg.retryDelayMs m
        wincol := some (cs, ce), winrow := some (rs, re)
        status := .ok, answers := ans, drawn := dr }) ∧
    (∀ k, SucceedsAfter s 0 k → IsLost s (k + 1) → ∃ ans dr,
      exec (.setwin cs ce rs re) s = .next { s with
        bus := s.bus ++ okTrace col s.cfg.retryDelayMs k ++
          lostTrace row s.cfg.retryDelayMs s.cfg.retryMax
        wincol := some (cs, ce), xfail := true
        status := .xfail, answers := ans, drawn := dr }) ∧
    (IsLost s 0 → ∃ ans dr,
      exec (.setwin cs ce rs re) s = .next { s with
        bus := s.bus ++ lostTrace col s.cfg.retryDelayMs s.cfg.retryMax
        xfail := true, status := .xfail, answers := ans, drawn := dr })

/-- R131, R132: SETPOWER. Not admitted, it changes `STATUS` only. In PoweredOff or PoweredOn the command
byte is sent in either state; on success `PSTATE` follows `b`, when the attempts are exhausted it keeps
its value. -/
def Obligations.SetpowerResult : Prop :=
  ∀ (s : State) (b : Byte),
    let tr := Transaction.cmd (if b = 0 then 0xAE else 0xAF)
    decodePacket [0x84, b] = .ok (.setpower b) ∧
    (s.pstate ≠ .poweredOff → s.pstate ≠ .poweredOn →
      exec (.setpower b) s = .next { s with status := .illegalState }) ∧
    (s.pstate = .poweredOff ∨ s.pstate = .poweredOn →
      (∀ k, SucceedsAfter s 0 k → ∃ ans dr,
        exec (.setpower b) s = .next { s with
          bus := s.bus ++ okTrace tr s.cfg.retryDelayMs k
          pstate := if b = 0 then .poweredOff else .poweredOn
          status := .ok, answers := ans, drawn := dr }) ∧
      (IsLost s 0 → ∃ ans dr,
        exec (.setpower b) s = .next { s with
          bus := s.bus ++ lostTrace tr s.cfg.retryDelayMs s.cfg.retryMax
          xfail := true, status := .xfail, answers := ans, drawn := dr }))

/-- R134, R135, R140: INIT. Outside Uninitialized it changes `STATUS` only. In Uninitialized, with every
transaction answered ok within its bound: the reset pulse, display off, the 19 entries in order, display
on, and PoweredOn. When the first transactions succeed and the next one is lost, INIT ends there:
`PSTATE` is Configuring, or PoweredOff if it was the display-on command. Entry 12 is 0xB4 by position
(R140: "Entry 12 is matched to 0xB4 by position"; conflict C2). -/
def Obligations.InitResult : Prop :=
  decodePacket [0x85] = .ok .init ∧
  ∀ s : State,
    (s.pstate ≠ .uninitialized → exec .init s = .next { s with status := .illegalState }) ∧
    (s.pstate = .uninitialized →
      (∀ ks : List Nat, ks.length = 21 → AllSucceed s 0 ks → ∃ ans dr,
        exec .init s = .next { s with
          bus := s.bus ++ pulseTrace ++ sentTrace (initList s.cfg) s.cfg.retryDelayMs ks
          pstate := .poweredOn, wincol := none, winrow := none
          status := .ok, answers := ans, drawn := dr } ∧
        UsedAnswers s { s with answers := ans, drawn := dr } (answersUsed ks)) ∧
      (∀ (ks : List Nat) (tr : Transaction), (initList s.cfg)[ks.length]? = some tr →
        AllSucceed s 0 ks → IsLost s (answersUsed ks) → ∃ ans dr,
        exec .init s = .next { s with
          bus := s.bus ++ pulseTrace ++ sentTrace (initList s.cfg) s.cfg.retryDelayMs ks ++
            lostTrace tr s.cfg.retryDelayMs s.cfg.retryMax
          pstate := if ks.length = 20 then .poweredOff else .configuring
          wincol := none, winrow := none
          xfail := true, status := .xfail, answers := ans, drawn := dr }))

/-! The parameters -/

/-- R7: the values the spec chose for the four parameters that are not OPEN (92 D3, D13, D15, D28),
which the state after reset carries; the five OPEN ones have none (log 1). -/
def Obligations.ChosenParameters : Prop :=
  let c := State.reset.cfg
  c.pktMax = 32768 ∧ c.coordBits = 16 ∧ c.nScroll = 4 ∧ c.rowFraming = .cmdPrefixed

/-- R9, R10: the reduction of what is written to a coordinate register. At `COORD_BITS` = 16 it is
`wrap16`, by its formula; at every width it gives an integer that fits the register and agrees with what
was written modulo `2^bits`; it changes nothing that fits; and a register of 16 bits or more (log 21)
keeps every packet field. -/
def Obligations.CoordinateReduction : Prop :=
  (∀ n : Int, wrapTo 16 n = (n + 32768) % 65536 - 32768) ∧
  ∀ (bits : Nat) (n : Int), 1 ≤ bits →
    InCoord bits (wrapTo bits n) ∧ (2 : Int) ^ bits ∣ wrapTo bits n - n ∧
    (InCoord bits n → wrapTo bits n = n) ∧
    (16 ≤ bits → ∀ v : S16, wrapTo bits v.toInt = v.toInt)
end

