-- ==== Sys2Proof/Laws/Coord.lean ====
section
/-!
SUPPORT. What a coordinate register holds (00 R9, R10): `wrapTo` always gives an integer that fits, and
leaves one that fits alone.
-/

namespace Sys2Proof.Machine

theorem inCoord_zero (bits : Nat) : InCoord bits 0 := by
  have : (0 : Int) < 2 ^ (bits - 1) := by positivity
  constructor <;> omega

/-- The range doubled is the modulus, but for a register of no bits. -/
theorem two_pow_split {bits : Nat} (h : 1 ≤ bits) : (2 : Int) ^ bits = 2 * 2 ^ (bits - 1) := by
  obtain ⟨k, rfl⟩ : ∃ k, bits = k + 1 := ⟨bits - 1, by omega⟩
  rw [Nat.add_sub_cancel, pow_succ, Int.mul_comm]

/-- Whatever is written, the register holds an integer that fits it. -/
theorem wrapTo_range (bits : Nat) (n : Int) : InCoord bits (wrapTo bits n) := by
  unfold wrapTo
  have hp : (0 : Int) < 2 ^ (bits - 1) := by positivity
  have hq : (0 : Int) < 2 ^ bits := by positivity
  have h1 := Int.emod_nonneg (n + 2 ^ (bits - 1)) (ne_of_gt hq)
  have h2 := Int.emod_lt_of_pos (n + 2 ^ (bits - 1)) hq
  rcases Nat.eq_zero_or_pos bits with rfl | hb
  · simp only [pow_zero, Int.emod_one] at *
    constructor <;> simp
  · rw [two_pow_split hb] at *
    constructor <;> omega

/-- An integer that fits is kept. -/
theorem wrapTo_of_range {bits : Nat} {n : Int} (hb : 1 ≤ bits) (h : InCoord bits n) :
    wrapTo bits n = n := by
  unfold wrapTo
  rw [two_pow_split hb, Int.emod_eq_of_lt (by omega) (by omega)]
  omega

/-- What fits 16 bits fits a wider register. -/
theorem inCoord_of_packet {bits : Nat} {n : Int} (hb : 16 ≤ bits) (h1 : -32768 ≤ n)
    (h2 : n < 32768) : InCoord bits n := by
  have : (2 : Int) ^ 15 ≤ 2 ^ (bits - 1) := pow_le_pow_right₀ (by omega) (by omega)
  constructor <;> omega

/-- A register of 16 bits or more keeps every value of a packet field (30 R95). -/
theorem wrapTo_of_packet {bits : Nat} {n : Int} (hb : 16 ≤ bits) (h1 : -32768 ≤ n) (h2 : n < 32768) :
    wrapTo bits n = n :=
  wrapTo_of_range (by omega) (inCoord_of_packet hb h1 h2)

theorem sext16_range (v : S16) : -32768 ≤ sext16 v ∧ sext16 v < 32768 := by
  have h1 := BitVec.le_toInt v
  have h2 := @BitVec.toInt_lt 16 v
  unfold sext16
  constructor <;> omega

/-- A register that holds an integer above 0 has at least one bit. -/
theorem one_le_bits {bits : Nat} {n : Int} (h : InCoord bits n) (hn : 0 < n) : 1 ≤ bits := by
  rcases Nat.eq_zero_or_pos bits with rfl | hb
  · simp only [InCoord, Nat.zero_sub, pow_zero] at h; omega
  · exact hb

end Sys2Proof.Machine
end

