-- ==== Sys2Proof/Laws/Memory.lean ====
section
/-!
SUPPORT. The laws of GRID: reading what was written, the canonical form kept by every memory operation,
equal reads mean equal memories, and what a sequence of `Plot` calls leaves in a cell.
-/

namespace Sys2Proof.Machine

/-! The canonical form -/

/-- A canonical memory whose addresses all lie above a bound. -/
def Memory.Above (m : Memory) (lo : Nat) : Prop := ∀ c ∈ m, lo < c.1

/-- Taking a canonical memory apart. -/
theorem Memory.wf_cons {a : Nat} {v : Level} {m : Memory} :
    Memory.wf ((a, v) :: m) = true ↔
      a < 8192 ∧ v ≠ Memory.blank ∧ Memory.Above m a ∧ Memory.wf m = true := by
  induction m generalizing a v with
  | nil => simp [Memory.wf, Memory.Above]
  | cons c rest ih =>
    obtain ⟨b, w⟩ := c
    have key : Memory.wf ((b, w) :: rest) = true → (a < b ↔ Memory.Above ((b, w) :: rest) a) := by
      intro h
      have h2 := (ih.mp h).2.2.1
      constructor
      · intro hab c hc
        rcases List.mem_cons.mp hc with rfl | hc
        · exact hab
        · exact Nat.lt_trans hab (h2 c hc)
      · intro h3; exact h3 (b, w) (List.mem_cons_self ..)
    rw [Memory.wf]
    simp only [Bool.and_eq_true, decide_eq_true_eq]
    constructor
    · rintro ⟨⟨⟨h1, h2⟩, h3⟩, h4⟩
      exact ⟨h1, h2, (key h4).mp h3, h4⟩
    · rintro ⟨h1, h2, h3, h4⟩
      exact ⟨⟨⟨h1, h2⟩, (key h4).mpr h3⟩, h4⟩

@[simp] theorem Memory.wf_nil : Memory.wf [] = true := rfl

/-- A cell below everything listed reads as unlisted. -/
theorem Memory.read_of_above {m : Memory} {lo a : Nat} (h : Memory.Above m lo) (ha : a ≤ lo) :
    Memory.read m a = Memory.blank := by
  induction m with
  | nil => rfl
  | cons c rest ih =>
    obtain ⟨b, w⟩ := c
    have hb : lo < b := h (b, w) (List.mem_cons_self ..)
    rw [Memory.read, if_neg (by omega)]
    exact ih fun c hc => h c (List.mem_cons_of_mem _ hc)

/-- A canonical memory reads as unlisted beyond the grid. -/
theorem Memory.read_beyond {m : Memory} (h : Memory.wf m = true) {a : Nat} (ha : 8192 ≤ a) :
    Memory.read m a = Memory.blank := by
  induction m with
  | nil => rfl
  | cons c rest ih =>
    obtain ⟨b, w⟩ := c
    have hw := Memory.wf_cons.mp h
    rw [Memory.read, if_neg (by omega)]
    exact ih hw.2.2.2

/-- Writing keeps a lower bound of the addresses. -/
theorem Memory.above_write {m : Memory} {lo a : Nat} {v : Level} (h : Memory.Above m lo)
    (ha : lo < a) : Memory.Above (Memory.write m a v) lo := by
  induction m with
  | nil =>
    intro c hc
    unfold Memory.write at hc
    split at hc
    · cases hc
    · simp only [List.mem_singleton] at hc; subst hc; exact ha
  | cons d rest ih =>
    obtain ⟨b, w⟩ := d
    have hrest : Memory.Above rest lo := fun c hc => h c (List.mem_cons_of_mem _ hc)
    intro c hc
    unfold Memory.write at hc
    split at hc
    · split at hc
      · exact h c hc
      · rcases List.mem_cons.mp hc with rfl | hc
        · exact ha
        · exact h c hc
    · split at hc
      · split at hc
        · exact hrest c hc
        · rcases List.mem_cons.mp hc with rfl | hc
          · exact ha
          · exact hrest c hc
      · rcases List.mem_cons.mp hc with rfl | hc
        · exact h (b, w) (List.mem_cons_self ..)
        · exact ih hrest c hc

/-- Writing a cell of the grid keeps the canonical form. -/
theorem Memory.wf_write {m : Memory} {a : Nat} {v : Level} (h : Memory.wf m = true)
    (ha : a < 8192) : Memory.wf (Memory.write m a v) = true := by
  induction m with
  | nil =>
    unfold Memory.write
    split
    · rfl
    · rename_i hv; exact Memory.wf_cons.mpr ⟨ha, hv, fun c hc => (by cases hc), rfl⟩
  | cons d rest ih =>
    obtain ⟨b, w⟩ := d
    obtain ⟨hb, hw, habove, hrest⟩ := Memory.wf_cons.mp h
    unfold Memory.write
    split
    · rename_i hab
      split
      · exact h
      · rename_i hv
        refine Memory.wf_cons.mpr ⟨ha, hv, fun c hc => ?_, h⟩
        rcases List.mem_cons.mp hc with rfl | hc
        · exact hab
        · exact Nat.lt_trans hab (habove c hc)
    · split
      · rename_i _ hab
        subst hab
        split
        · exact hrest
        · rename_i hv; exact Memory.wf_cons.mpr ⟨ha, hv, habove, hrest⟩
      · exact Memory.wf_cons.mpr ⟨hb, hw, Memory.above_write habove (by omega), ih hrest⟩

/-- Reading the cell that was written gives the level written. -/
theorem Memory.read_write_self {m : Memory} {a : Nat} {v : Level} (h : Memory.wf m = true) :
    Memory.read (Memory.write m a v) a = v := by
  induction m with
  | nil =>
    unfold Memory.write
    split
    · rename_i hv; exact hv.symm
    · simp [Memory.read]
  | cons d rest ih =>
    obtain ⟨b, w⟩ := d
    obtain ⟨_, _, habove, hrest⟩ := Memory.wf_cons.mp h
    unfold Memory.write
    split
    · rename_i hab
      split
      · rename_i hv
        rw [Memory.read, if_neg (by omega), Memory.read_of_above habove (by omega)]
        exact hv.symm
      · simp [Memory.read]
    · split
      · rename_i _ hab
        subst hab
        split
        · rename_i hv; rw [Memory.read_of_above habove (Nat.le_refl _)]; exact hv.symm
        · simp [Memory.read]
      · rw [Memory.read, if_neg (by omega)]; exact ih hrest

/-- Writing a cell leaves every other cell alone. -/
theorem Memory.read_write_other {m : Memory} {a b : Nat} {v : Level} (hab : b ≠ a) :
    Memory.read (Memory.write m a v) b = Memory.read m b := by
  induction m with
  | nil =>
    unfold Memory.write
    split
    · rfl
    · simp [Memory.read, Ne.symm hab]
  | cons d rest ih =>
    obtain ⟨c, w⟩ := d
    unfold Memory.write
    split
    · split
      · rfl
      · rw [Memory.read, if_neg (by omega)]
    · split
      · rename_i _ hac
        subst hac
        split
        · conv_rhs => rw [Memory.read, if_neg (by omega)]
        · rw [Memory.read, if_neg (by omega)]
          conv_rhs => rw [Memory.read, if_neg (by omega)]
      · rw [Memory.read]; conv_rhs => rw [Memory.read]
        rw [ih]

/-- Canonical memories that read alike everywhere are equal data. -/
theorem Memory.ext {m n : Memory} (hm : Memory.wf m = true) (hn : Memory.wf n = true)
    (h : ∀ a, Memory.read m a = Memory.read n a) : m = n := by
  induction m generalizing n with
  | nil =>
    cases n with
    | nil => rfl
    | cons d rest =>
      obtain ⟨b, w⟩ := d
      have := h b
      simp [Memory.read] at this
      exact absurd this.symm (Memory.wf_cons.mp hn).2.1
  | cons c rest ih =>
    obtain ⟨a, v⟩ := c
    obtain ⟨_, hv, ha, hr⟩ := Memory.wf_cons.mp hm
    cases n with
    | nil =>
      have := h a
      simp [Memory.read] at this
      exact absurd this hv
    | cons d rest' =>
      obtain ⟨b, w⟩ := d
      obtain ⟨_, hw, hb, hr'⟩ := Memory.wf_cons.mp hn
      have hab : a = b := by
        rcases Nat.lt_trichotomy a b with hlt | heq | hgt
        · have h1 := h a
          rw [Memory.read, if_pos rfl, Memory.read, if_neg (by omega),
            Memory.read_of_above hb (by omega)] at h1
          exact absurd h1 hv
        · exact heq
        · have h1 := h b
          rw [Memory.read, if_neg (by omega), Memory.read_of_above ha (by omega), Memory.read,
            if_pos rfl] at h1
          exact absurd h1.symm hw
      subst hab
      have hvw : v = w := by have := h a; simpa [Memory.read] using this
      subst hvw
      have : rest = rest' := by
        refine ih hr hr' fun x => ?_
        by_cases hx : a = x
        · subst hx
          rw [Memory.read_of_above ha (Nat.le_refl _), Memory.read_of_above hb (Nat.le_refl _)]
        · have := h x
          rwa [Memory.read, if_neg hx, Memory.read, if_neg hx] at this
      rw [this]

/-- A filtered canonical memory is canonical. -/
theorem Memory.wf_filter {m : Memory} (p : Nat × Level → Bool) (h : Memory.wf m = true) :
    Memory.wf (m.filter p) = true := by
  induction m with
  | nil => rfl
  | cons c rest ih =>
    obtain ⟨a, v⟩ := c
    obtain ⟨h1, h2, h3, h4⟩ := Memory.wf_cons.mp h
    rw [List.filter_cons]
    split
    · exact Memory.wf_cons.mpr ⟨h1, h2, fun c hc => h3 c (List.mem_of_mem_filter hc), ih h4⟩
    · exact ih h4

/-- Reading a memory filtered by address. -/
theorem Memory.read_filter (m : Memory) (p : Nat → Bool) (a : Nat) :
    Memory.read (m.filter fun c => p c.1) a = if p a then Memory.read m a else Memory.blank := by
  induction m with
  | nil => simp [Memory.read]
  | cons c rest ih =>
    obtain ⟨b, v⟩ := c
    rw [List.filter_cons]
    by_cases hb : b = a
    · subst hb
      by_cases hp : p b = true
      · simp [hp, Memory.read]
      · rw [if_neg (by simpa using hp), ih, if_neg hp, if_neg hp]
    · split
      · rw [Memory.read, if_neg hb, ih]; conv_rhs => rw [Memory.read, if_neg hb]
      · rw [ih]; conv_rhs => rw [Memory.read, if_neg hb]

/-- The memory of given levels from `start` on, `n` cells. -/
theorem Memory.wf_levels (f : Nat → Level) (n start : Nat) (h : start + n ≤ 8192) :
    Memory.wf ((List.range' start n).filterMap fun a =>
      if f a = Memory.blank then none else some (a, f a)) = true := by
  induction n generalizing start with
  | zero => rfl
  | succ k ih =>
    rw [List.range'_succ, List.filterMap_cons]
    by_cases hf : f start = Memory.blank
    · simp only [hf, if_true]; exact ih (start + 1) (by omega)
    · simp only [hf, if_false]
      refine Memory.wf_cons.mpr ⟨by omega, hf, fun c hc => ?_, ih (start + 1) (by omega)⟩
      obtain ⟨x, hx, hxc⟩ := List.mem_filterMap.mp hc
      have hx' := List.mem_range'.mp hx
      split at hxc
      · cases hxc
      · cases hxc; simp only; omega

/-- The grid of given levels is canonical. -/
theorem Memory.wf_ofLevels (f : Nat → Level) : Memory.wf (Memory.ofLevels f) = true := by
  unfold Memory.ofLevels
  rw [List.range_eq_range']
  exact Memory.wf_levels f 8192 0 (by omega)

/-! Cells and `Plot` -/

theorem cell_eq (m : Memory) (x y : Nat) : cell m x y = Memory.read m (128 * y + x) := rfl

/-- `Plot` keeps the canonical form. -/
theorem wf_plot {m : Memory} (x y : Int) (v : Nat) (h : Memory.wf m = true) :
    Memory.wf (plot x y v m) = true := by
  unfold plot
  split
  · exact Memory.wf_write h (by unfold cellAddr; omega)
  · exact h

/-- What `Plot` leaves in a cell of the grid (41 R160). -/
theorem cell_plot {m : Memory} (x y : Int) (v : Nat) (h : Memory.wf m = true) {X Y : Nat}
    (hX : X < 128) (hY : Y < 64) :
    cell (plot x y v m) X Y = if x = X ∧ y = Y then low2 v else cell m X Y := by
  unfold plot
  split
  · rename_i hin
    by_cases hxy : x = X ∧ y = Y
    · obtain ⟨rfl, rfl⟩ := hxy
      rw [if_pos ⟨rfl, rfl⟩]
      exact Memory.read_write_self h
    · rw [if_neg hxy]
      exact Memory.read_write_other (by unfold cellAddr; omega)
  · rename_i hout
    rw [if_neg (by omega)]

/-- `Plot` changes no address beyond the grid. -/
theorem read_plot_beyond {m : Memory} (x y : Int) (v : Nat) {a : Nat} (ha : 8192 ≤ a) :
    Memory.read (plot x y v m) a = Memory.read m a := by
  unfold plot
  split
  · exact Memory.read_write_other (by unfold cellAddr; omega)
  · rfl

theorem plotAll_cons (d : Dot) (ds : List Dot) (m : Memory) :
    plotAll (d :: ds) m = plotAll ds (plot d.x d.y d.v m) := rfl

theorem plotAll_append (ds es : List Dot) (m : Memory) :
    plotAll (ds ++ es) m = plotAll es (plotAll ds m) := by
  unfold plotAll; rw [List.foldl_append]

/-- A sequence of `Plot` calls keeps the canonical form. -/
theorem wf_plotAll (ds : List Dot) {m : Memory} (h : Memory.wf m = true) :
    Memory.wf (plotAll ds m) = true := by
  induction ds generalizing m with
  | nil => exact h
  | cons d rest ih => exact ih (wf_plot d.x d.y d.v h)

/-- A cell no call names keeps its level. -/
theorem cell_plotAll_miss (ds : List Dot) {m : Memory} (h : Memory.wf m = true) {X Y : Nat}
    (hX : X < 128) (hY : Y < 64) (hmiss : ∀ d ∈ ds, ¬ (d.x = X ∧ d.y = Y)) :
    cell (plotAll ds m) X Y = cell m X Y := by
  induction ds generalizing m with
  | nil => rfl
  | cons d rest ih =>
    rw [plotAll_cons, ih (wf_plot _ _ _ h) fun e he => hmiss e (List.mem_cons_of_mem _ he),
      cell_plot _ _ _ h hX hY, if_neg (hmiss d (List.mem_cons_self ..))]

/-- A cell that some call names, and to which every call that names it gives the level `v`, holds `v`. -/
theorem cell_plotAll_hit (ds : List Dot) {m : Memory} (h : Memory.wf m = true) {X Y : Nat}
    (hX : X < 128) (hY : Y < 64) {v : Level} (hhit : ∃ d ∈ ds, d.x = X ∧ d.y = Y)
    (hall : ∀ d ∈ ds, d.x = X → d.y = Y → low2 d.v = v) : cell (plotAll ds m) X Y = v := by
  induction ds generalizing m with
  | nil => obtain ⟨d, hd, _⟩ := hhit; cases hd
  | cons d rest ih =>
    rw [plotAll_cons]
    by_cases hlater : ∃ e ∈ rest, e.x = X ∧ e.y = Y
    · exact ih (wf_plot _ _ _ h) hlater fun e he => hall e (List.mem_cons_of_mem _ he)
    · have hd : d.x = X ∧ d.y = Y := by
        obtain ⟨e, he, hxy⟩ := hhit
        rcases List.mem_cons.mp he with rfl | he
        · exact hxy
        · exact absurd ⟨e, he, hxy⟩ hlater
      rw [cell_plotAll_miss rest (wf_plot _ _ _ h) hX hY fun e he hxy => hlater ⟨e, he, hxy⟩,
        cell_plot _ _ _ h hX hY, if_pos hd]
      exact hall d (List.mem_cons_self ..) hd.1 hd.2

/-! The zero fills -/

theorem wf_clearGrid : Memory.wf clearGrid = true := rfl

@[simp] theorem cell_clearGrid (X Y : Nat) : cell clearGrid X Y = 0 := rfl

theorem wf_clearBand (y : Int) {m : Memory} (h : Memory.wf m = true) :
    Memory.wf (clearBand y m) = true := Memory.wf_filter _ h

/-- What the band clear leaves in a cell (42 R186). -/
theorem cell_clearBand (y : Int) (m : Memory) {X Y : Nat} (hX : X < 128) :
    cell (clearBand y m) X Y = if y ≤ Y ∧ (Y : Int) ≤ y + 7 then 0 else cell m X Y := by
  unfold cell clearBand cellAddr
  rw [Memory.read_filter m fun a =>
    !(decide (y ≤ ((a / 128 : Nat) : Int)) && decide (((a / 128 : Nat) : Int) ≤ y + 7))]
  have hdiv : (128 * Y + X) / 128 = Y := by omega
  rw [hdiv]
  by_cases hb : y ≤ Y ∧ (Y : Int) ≤ y + 7
  · simp [hb, Memory.blank]
  · rw [if_neg hb, if_pos]
    simp only [Bool.not_eq_true', Bool.and_eq_false_iff, decide_eq_false_iff_not]
    omega

/-- Canonical grids with the same cells are equal data. -/
theorem grid_ext {m n : Memory} (hm : Memory.wf m = true) (hn : Memory.wf n = true)
    (h : ∀ X Y : Nat, X < 128 → Y < 64 → cell m X Y = cell n X Y) : m = n := by
  refine Memory.ext hm hn fun a => ?_
  by_cases ha : a < 8192
  · have := h (a % 128) (a / 128) (by omega) (by omega)
    rw [cell_eq, cell_eq] at this
    rwa [show 128 * (a / 128) + a % 128 = a by omega] at this
  · rw [Memory.read_beyond hm (by omega), Memory.read_beyond hn (by omega)]

end Sys2Proof.Machine
end

