-- ==== Sys2Proof/Laws/State.lean ====
section
/-!
SUPPORT. One lemma per field per update of the state, so that no proof unfolds a record update.
-/

namespace Sys2Proof.Machine

@[simp] theorem endWith_grid (st : Status) (s : State) : (endWith st s).grid = s.grid := rfl
@[simp] theorem endWith_tc (st : Status) (s : State) : (endWith st s).tc = s.tc := rfl
@[simp] theorem endWith_scr (st : Status) (s : State) : (endWith st s).scr = s.scr := rfl
@[simp] theorem endWith_pstate (st : Status) (s : State) : (endWith st s).pstate = s.pstate := rfl
@[simp] theorem endWith_wincol (st : Status) (s : State) : (endWith st s).wincol = s.wincol := rfl
@[simp] theorem endWith_winrow (st : Status) (s : State) : (endWith st s).winrow = s.winrow := rfl
@[simp] theorem endWith_xfail (st : Status) (s : State) : (endWith st s).xfail = s.xfail := rfl
@[simp] theorem endWith_status (st : Status) (s : State) : (endWith st s).status = st := rfl
@[simp] theorem endWith_bus (st : Status) (s : State) : (endWith st s).bus = s.bus := rfl
@[simp] theorem endWith_cfg (st : Status) (s : State) : (endWith st s).cfg = s.cfg := rfl
@[simp] theorem endWith_port (st : Status) (s : State) : (endWith st s).port = s.port := rfl
@[simp] theorem endWith_answers (st : Status) (s : State) : (endWith st s).answers = s.answers := rfl
@[simp] theorem endWith_drawn (st : Status) (s : State) : (endWith st s).drawn = s.drawn := rfl
@[simp] theorem endWith_resets (st : Status) (s : State) : (endWith st s).resets = s.resets := rfl

@[simp] theorem refuse_grid (st : Status) (s : State) : (refuse st s).grid = s.grid := rfl
@[simp] theorem refuse_tc (st : Status) (s : State) : (refuse st s).tc = s.tc := rfl
@[simp] theorem refuse_scr (st : Status) (s : State) : (refuse st s).scr = s.scr := rfl
@[simp] theorem refuse_pstate (st : Status) (s : State) : (refuse st s).pstate = s.pstate := rfl
@[simp] theorem refuse_wincol (st : Status) (s : State) : (refuse st s).wincol = s.wincol := rfl
@[simp] theorem refuse_winrow (st : Status) (s : State) : (refuse st s).winrow = s.winrow := rfl
@[simp] theorem refuse_xfail (st : Status) (s : State) : (refuse st s).xfail = s.xfail := rfl
@[simp] theorem refuse_status (st : Status) (s : State) : (refuse st s).status = st := rfl
@[simp] theorem refuse_bus (st : Status) (s : State) : (refuse st s).bus = s.bus := rfl
@[simp] theorem refuse_cfg (st : Status) (s : State) : (refuse st s).cfg = s.cfg := rfl
@[simp] theorem refuse_port (st : Status) (s : State) : (refuse st s).port = s.port := rfl
@[simp] theorem refuse_answers (st : Status) (s : State) : (refuse st s).answers = s.answers := rfl
@[simp] theorem refuse_drawn (st : Status) (s : State) : (refuse st s).drawn = s.drawn := rfl
@[simp] theorem refuse_resets (st : Status) (s : State) : (refuse st s).resets = s.resets := rfl

@[simp] theorem complete_grid (s : State) : (complete s).grid = s.grid := rfl
@[simp] theorem complete_tc (s : State) : (complete s).tc = s.tc := rfl
@[simp] theorem complete_scr (s : State) : (complete s).scr = s.scr := rfl
@[simp] theorem complete_pstate (s : State) : (complete s).pstate = s.pstate := rfl
@[simp] theorem complete_wincol (s : State) : (complete s).wincol = s.wincol := rfl
@[simp] theorem complete_winrow (s : State) : (complete s).winrow = s.winrow := rfl
@[simp] theorem complete_xfail (s : State) : (complete s).xfail = s.xfail := rfl
@[simp] theorem complete_status (s : State) : (complete s).status = .ok := rfl
@[simp] theorem complete_bus (s : State) : (complete s).bus = s.bus := rfl
@[simp] theorem complete_cfg (s : State) : (complete s).cfg = s.cfg := rfl
@[simp] theorem complete_port (s : State) : (complete s).port = s.port := rfl
@[simp] theorem complete_answers (s : State) : (complete s).answers = s.answers := rfl
@[simp] theorem complete_drawn (s : State) : (complete s).drawn = s.drawn := rfl
@[simp] theorem complete_resets (s : State) : (complete s).resets = s.resets := rfl

@[simp] theorem setXfail_grid (s : State) : (setXfail s).grid = s.grid := rfl
@[simp] theorem setXfail_tc (s : State) : (setXfail s).tc = s.tc := rfl
@[simp] theorem setXfail_scr (s : State) : (setXfail s).scr = s.scr := rfl
@[simp] theorem setXfail_pstate (s : State) : (setXfail s).pstate = s.pstate := rfl
@[simp] theorem setXfail_wincol (s : State) : (setXfail s).wincol = s.wincol := rfl
@[simp] theorem setXfail_winrow (s : State) : (setXfail s).winrow = s.winrow := rfl
@[simp] theorem setXfail_xfail (s : State) : (setXfail s).xfail = true := rfl
@[simp] theorem setXfail_status (s : State) : (setXfail s).status = s.status := rfl
@[simp] theorem setXfail_bus (s : State) : (setXfail s).bus = s.bus := rfl
@[simp] theorem setXfail_cfg (s : State) : (setXfail s).cfg = s.cfg := rfl
@[simp] theorem setXfail_port (s : State) : (setXfail s).port = s.port := rfl
@[simp] theorem setXfail_answers (s : State) : (setXfail s).answers = s.answers := rfl
@[simp] theorem setXfail_drawn (s : State) : (setXfail s).drawn = s.drawn := rfl
@[simp] theorem setXfail_resets (s : State) : (setXfail s).resets = s.resets := rfl

@[simp] theorem emit_grid (e : Event) (s : State) : (emit e s).grid = s.grid := rfl
@[simp] theorem emit_tc (e : Event) (s : State) : (emit e s).tc = s.tc := rfl
@[simp] theorem emit_scr (e : Event) (s : State) : (emit e s).scr = s.scr := rfl
@[simp] theorem emit_pstate (e : Event) (s : State) : (emit e s).pstate = s.pstate := rfl
@[simp] theorem emit_wincol (e : Event) (s : State) : (emit e s).wincol = s.wincol := rfl
@[simp] theorem emit_winrow (e : Event) (s : State) : (emit e s).winrow = s.winrow := rfl
@[simp] theorem emit_xfail (e : Event) (s : State) : (emit e s).xfail = s.xfail := rfl
@[simp] theorem emit_status (e : Event) (s : State) : (emit e s).status = s.status := rfl
@[simp] theorem emit_bus (e : Event) (s : State) : (emit e s).bus = s.bus ++ [e] := rfl
@[simp] theorem emit_cfg (e : Event) (s : State) : (emit e s).cfg = s.cfg := rfl
@[simp] theorem emit_port (e : Event) (s : State) : (emit e s).port = s.port := rfl
@[simp] theorem emit_answers (e : Event) (s : State) : (emit e s).answers = s.answers := rfl
@[simp] theorem emit_drawn (e : Event) (s : State) : (emit e s).drawn = s.drawn := rfl
@[simp] theorem emit_resets (e : Event) (s : State) : (emit e s).resets = s.resets := rfl

@[simp] theorem resetPulse_grid (s : State) : (resetPulse s).grid = s.grid := rfl
@[simp] theorem resetPulse_tc (s : State) : (resetPulse s).tc = s.tc := rfl
@[simp] theorem resetPulse_scr (s : State) : (resetPulse s).scr = s.scr := rfl
@[simp] theorem resetPulse_pstate (s : State) : (resetPulse s).pstate = .resetting := rfl
@[simp] theorem resetPulse_wincol (s : State) : (resetPulse s).wincol = none := rfl
@[simp] theorem resetPulse_winrow (s : State) : (resetPulse s).winrow = none := rfl
@[simp] theorem resetPulse_xfail (s : State) : (resetPulse s).xfail = s.xfail := rfl
@[simp] theorem resetPulse_status (s : State) : (resetPulse s).status = s.status := rfl
@[simp] theorem resetPulse_cfg (s : State) : (resetPulse s).cfg = s.cfg := rfl
@[simp] theorem resetPulse_port (s : State) : (resetPulse s).port = s.port := rfl
@[simp] theorem resetPulse_answers (s : State) : (resetPulse s).answers = s.answers := rfl
@[simp] theorem resetPulse_drawn (s : State) : (resetPulse s).drawn = s.drawn := rfl
@[simp] theorem resetPulse_resets (s : State) : (resetPulse s).resets = s.resets := rfl

@[simp] theorem takeAnswer_grid (s : State) : (takeAnswer s).grid = s.grid := by
  unfold takeAnswer; split <;> rfl
@[simp] theorem takeAnswer_tc (s : State) : (takeAnswer s).tc = s.tc := by
  unfold takeAnswer; split <;> rfl
@[simp] theorem takeAnswer_scr (s : State) : (takeAnswer s).scr = s.scr := by
  unfold takeAnswer; split <;> rfl
@[simp] theorem takeAnswer_pstate (s : State) : (takeAnswer s).pstate = s.pstate := by
  unfold takeAnswer; split <;> rfl
@[simp] theorem takeAnswer_wincol (s : State) : (takeAnswer s).wincol = s.wincol := by
  unfold takeAnswer; split <;> rfl
@[simp] theorem takeAnswer_winrow (s : State) : (takeAnswer s).winrow = s.winrow := by
  unfold takeAnswer; split <;> rfl
@[simp] theorem takeAnswer_xfail (s : State) : (takeAnswer s).xfail = s.xfail := by
  unfold takeAnswer; split <;> rfl
@[simp] theorem takeAnswer_status (s : State) : (takeAnswer s).status = s.status := by
  unfold takeAnswer; split <;> rfl
@[simp] theorem takeAnswer_bus (s : State) : (takeAnswer s).bus = s.bus := by
  unfold takeAnswer; split <;> rfl
@[simp] theorem takeAnswer_cfg (s : State) : (takeAnswer s).cfg = s.cfg := by
  unfold takeAnswer; split <;> rfl
@[simp] theorem takeAnswer_port (s : State) : (takeAnswer s).port = s.port := by
  unfold takeAnswer; split <;> rfl
@[simp] theorem takeAnswer_resets (s : State) : (takeAnswer s).resets = s.resets := by
  unfold takeAnswer; split <;> rfl

/-- A reset pulse adds its four events (40 R126). -/
@[simp] theorem resetPulse_bus (s : State) :
    (resetPulse s).bus = s.bus ++ [.resetLine 0, .delay 150, .resetLine 1, .delay 150] := by
  simp [resetPulse, resetHoldMs]

/-- Taking an answer changes only where the answers come from. -/
theorem takeAnswer_eq (s : State) :
    takeAnswer s = { s with answers := (takeAnswer s).answers, drawn := (takeAnswer s).drawn } := by
  unfold takeAnswer; split <;> rfl

@[simp] theorem finish_done (s : State) : (Run.done s).finish = endWith .ok s := rfl
@[simp] theorem finish_raised (s : State) : (Run.raised s).finish = endWith .xfail s := rfl
@[simp] theorem andThen_done (s : State) (f : State → Run) : (Run.done s).andThen f = f s := rfl
@[simp] theorem andThen_raised (s : State) (f : State → Run) :
    (Run.raised s).andThen f = .raised s := rfl

section
variable (n : Nat) (cfg : Config) (port : List Input) (answers : List Answer) (drawn : Nat)

@[simp] theorem afterReset_grid :
    (State.afterReset n cfg port answers drawn).grid = Memory.ofLevels (Config.freeLevel n) := rfl
@[simp] theorem afterReset_tc :
    (State.afterReset n cfg port answers drawn).tc = { cx := 0, cy := 0, size := 1, color := 3, wrap := false } := rfl
@[simp] theorem afterReset_scr :
    (State.afterReset n cfg port answers drawn).scr = (List.range cfg.nScroll).map (Slot.afterReset cfg.coordBits n) := rfl
@[simp] theorem afterReset_pstate :
    (State.afterReset n cfg port answers drawn).pstate = .uninitialized := rfl
@[simp] theorem afterReset_wincol :
    (State.afterReset n cfg port answers drawn).wincol = none := rfl
@[simp] theorem afterReset_winrow :
    (State.afterReset n cfg port answers drawn).winrow = none := rfl
@[simp] theorem afterReset_xfail :
    (State.afterReset n cfg port answers drawn).xfail = false := rfl
@[simp] theorem afterReset_status :
    (State.afterReset n cfg port answers drawn).status = .ok := rfl
@[simp] theorem afterReset_bus :
    (State.afterReset n cfg port answers drawn).bus = [] := rfl
@[simp] theorem afterReset_cfg :
    (State.afterReset n cfg port answers drawn).cfg = cfg := rfl
@[simp] theorem afterReset_port :
    (State.afterReset n cfg port answers drawn).port = port := rfl
@[simp] theorem afterReset_answers :
    (State.afterReset n cfg port answers drawn).answers = answers := rfl
@[simp] theorem afterReset_drawn :
    (State.afterReset n cfg port answers drawn).drawn = drawn := rfl
@[simp] theorem afterReset_resets :
    (State.afterReset n cfg port answers drawn).resets = n := rfl

end

end Sys2Proof.Machine
end

