-- ==== Sys2Proof/Laws/Draw.lean ====
section
/-!
SUPPORT. What each drawing procedure leaves in a cell, in closed form, and that each keeps the grid
canonical.
-/

namespace Sys2Proof.Machine

theorem isGlyph_iff (c : Byte) : isGlyph c = true ↔ 32 ≤ c.toNat ∧ c.toNat ≤ 127 := by
  simp [isGlyph]

theorem low2_eq (v : Nat) : low2 v = BitVec.ofNat 2 v := rfl

/-! Plain glyphs -/

theorem mem_charDots {font : Font} {x y : Int} {c : Byte} {d : Dot} :
    d ∈ charDots font x y c ↔ isGlyph c = true ∧ ∃ k < 6, ∃ r < 8,
      d = ⟨x + (k : Nat), y + (r : Nat), if glyphBit font c k r then 3 else 0⟩ := by
  unfold charDots
  split
  · rename_i h
    simp only [List.mem_flatMap, List.mem_map, List.mem_range, h, true_and]
    constructor
    · rintro ⟨k, hk, r, hr, rfl⟩; exact ⟨k, hk, r, hr, rfl⟩
    · rintro ⟨k, hk, r, hr, rfl⟩; exact ⟨k, hk, r, hr, rfl⟩
  · rename_i h; simp [h]

theorem wf_drawChar (font : Font) (x y : Int) (c : Byte) {m : Memory} (h : Memory.wf m = true) :
    Memory.wf (drawChar font x y c m) = true := wf_plotAll _ h

/-- A plain glyph in a cell (42 R180). -/
theorem cell_drawChar (font : Font) (x y : Int) (c : Byte) {m : Memory} (h : Memory.wf m = true)
    {X Y : Nat} (hX : X < 128) (hY : Y < 64) :
    cell (drawChar font x y c m) X Y = (glyphCell font x y c X Y).getD (cell m X Y) := by
  unfold drawChar glyphCell
  split
  · rename_i hin
    obtain ⟨h1, h2, h3, h4, h5, h6⟩ := hin
    refine cell_plotAll_hit _ h hX hY ⟨_, mem_charDots.mpr ⟨(isGlyph_iff c).mpr ⟨h1, h2⟩,
      (X - x).toNat, by omega, (Y - y).toNat, by omega, rfl⟩, by simp only; omega,
      by simp only; omega⟩ ?_
    intro d hd hdx hdy
    obtain ⟨_, k, hk, r, hr, rfl⟩ := mem_charDots.mp hd
    simp only at hdx hdy
    have hk' : k = (X - x).toNat := by omega
    have hr' : r = (Y - y).toNat := by omega
    subst hk' hr'
    simp only [low2]
    split <;> rfl
  · rename_i hout
    refine cell_plotAll_miss _ h hX hY ?_
    intro d hd hxy
    obtain ⟨hg, k, hk, r, hr, rfl⟩ := mem_charDots.mp hd
    have := (isGlyph_iff c).mp hg
    simp only at hxy
    omega

theorem wf_drawChars (font : Font) (str : List Byte) (x y : Int) {m : Memory}
    (h : Memory.wf m = true) : Memory.wf (drawChars font x y str m) = true := by
  induction str generalizing x m with
  | nil => exact h
  | cons c rest ih => exact ih _ (wf_drawChar font x y c h)

/-- The string in a cell, peeled by one character. -/
theorem pitchCell_cons (font : Font) (c : Byte) (rest : List Byte) (x y : Int) (X Y : Nat)
    (old : Level) :
    (pitchCell font (c :: rest) x y X Y).getD old =
      (pitchCell font rest (x + 7) y X Y).getD ((glyphCell font x y c X Y).getD old) := by
  by_cases hx : x ≤ X
  · by_cases h7 : x + 7 ≤ X
    · have hdiv : (X - x).toNat / 7 = (X - (x + 7)).toNat / 7 + 1 := by omega
      have hnone : glyphCell font x y c X Y = none := by
        unfold glyphCell; rw [if_neg (by omega)]
      have hcol : x + 7 * (((X - (x + 7)).toNat / 7 + 1 : Nat) : Int)
          = x + 7 + 7 * (((X - (x + 7)).toNat / 7 : Nat) : Int) := by omega
      unfold pitchCell
      rw [if_pos hx, if_pos h7, hdiv, List.getElem?_cons_succ, hnone, hcol]
      rfl
    · have hdiv : (X - x).toNat / 7 = 0 := by omega
      unfold pitchCell
      rw [if_pos hx, if_neg h7, hdiv]
      simp
  · have hnone : glyphCell font x y c X Y = none := by
      unfold glyphCell; rw [if_neg (by omega)]
    unfold pitchCell
    rw [if_neg hx, if_neg (by omega), hnone]
    rfl

/-- A string of plain glyphs in a cell (42 R184, R186). -/
theorem cell_drawChars (font : Font) (str : List Byte) (x y : Int) {m : Memory}
    (h : Memory.wf m = true) {X Y : Nat} (hX : X < 128) (hY : Y < 64) :
    cell (drawChars font x y str m) X Y = (pitchCell font str x y X Y).getD (cell m X Y) := by
  induction str generalizing x m with
  | nil => unfold pitchCell; split <;> rfl
  | cons c rest ih =>
    rw [drawChars, ih _ (wf_drawChar font x y c h), cell_drawChar font x y c h hX hY,
      pitchCell_cons]

/-- A string draws only in the 8 rows of its band. -/
theorem pitchCell_outside (font : Font) (str : List Byte) (x y : Int) (X Y : Nat)
    (hY : ¬ (y ≤ Y ∧ (Y : Int) ≤ y + 7)) : pitchCell font str x y X Y = none := by
  unfold pitchCell
  split
  · split
    · unfold glyphCell; rw [if_neg (by omega)]
    · rfl
  · rfl

theorem wf_drawStringAtOffset (font : Font) (str : List Byte) (y offset : Int) {m : Memory}
    (h : Memory.wf m = true) : Memory.wf (drawStringAtOffset font str y offset m) = true :=
  wf_drawChars font str _ y (wf_clearBand y h)

/-- `DrawStringAtOffset` in a cell (42 R186). -/
theorem cell_drawStringAtOffset (font : Font) (str : List Byte) (y offset : Int) {m : Memory}
    (h : Memory.wf m = true) {X Y : Nat} (hX : X < 128) (hY : Y < 64) :
    cell (drawStringAtOffset font str y offset m) X Y =
      if y ≤ Y ∧ (Y : Int) ≤ y + 7 then (pitchCell font str (-offset) y X Y).getD 0
      else cell m X Y := by
  unfold drawStringAtOffset
  rw [cell_drawChars font str _ y (wf_clearBand y h) hX hY, cell_clearBand y m hX]
  by_cases hb : y ≤ Y ∧ (Y : Int) ≤ y + 7
  · rw [if_pos hb, if_pos hb]
  · rw [if_neg hb, if_neg hb, pitchCell_outside font str _ y X Y hb]; rfl

theorem wf_centredGrid (font : Font) (str : List Byte) : Memory.wf (centredGrid font str) = true :=
  wf_drawChars font str _ 28 wf_clearGrid

/-- `DrawStringCentered` in a cell (42 R184). -/
theorem cell_centredGrid (font : Font) (str : List Byte) {X Y : Nat} (hX : X < 128) (hY : Y < 64) :
    cell (centredGrid font str) X Y =
      (pitchCell font str (Int.tdiv (128 - (7 * (str.length : Int) - 1)) 2) 28 X Y).getD 0 := by
  unfold centredGrid
  rw [cell_drawChars font str _ 28 wf_clearGrid hX hY, cell_clearGrid]
  unfold centredColumn tdiv
  rw [show (128 - (6 * (str.length : Int) + ((str.length : Int) - 1)))
    = 128 - (7 * (str.length : Int) - 1) by omega]

/-! Scaled glyphs -/

theorem mem_scaledDots {font : Font} {x y : Int} {c : Byte} {size color : Nat} {d : Dot} :
    d ∈ scaledDots font x y c size color ↔ isGlyph c = true ∧ ∃ k < 6, ∃ r < 8,
      glyphBit font c k r = true ∧ ∃ dx < size, ∃ dy < size,
        d = ⟨x + ((k * size + dx : Nat) : Int), y + ((r * size + dy : Nat) : Int), color⟩ := by
  unfold scaledDots
  split
  · rename_i h
    simp only [List.mem_flatMap, List.mem_range, h, true_and]
    constructor
    · rintro ⟨k, hk, r, hr, hd⟩
      split at hd
      · rename_i hb
        simp only [List.mem_flatMap, List.mem_map, List.mem_range] at hd
        obtain ⟨dx, hdx, dy, hdy, rfl⟩ := hd
        exact ⟨k, hk, r, hr, hb, dx, hdx, dy, hdy, rfl⟩
      · cases hd
    · rintro ⟨k, hk, r, hr, hb, dx, hdx, dy, hdy, rfl⟩
      refine ⟨k, hk, r, hr, ?_⟩
      rw [if_pos hb]
      simp only [List.mem_flatMap, List.mem_map, List.mem_range]
      exact ⟨dx, hdx, dy, hdy, rfl⟩
  · rename_i h; simp [h]

theorem wf_drawCharScaled (font : Font) (x y : Int) (c : Byte) (size color : Nat) {m : Memory}
    (h : Memory.wf m = true) : Memory.wf (drawCharScaled font x y c size color m) = true :=
  wf_plotAll _ h

/-- A block index from a position inside the box: `n = k * size + d`. -/
theorem block_split {n size k d : Nat} (hd : d < size) (h : n = k * size + d) : n / size = k := by
  subst h
  rw [Nat.mul_comm, Nat.mul_add_div (by omega), Nat.div_eq_of_lt hd, Nat.add_zero]

/-- A scaled glyph in a cell (42 R182). -/
theorem cell_drawCharScaled (font : Font) (x y : Int) (c : Byte) (size color : Nat) {m : Memory}
    (h : Memory.wf m = true) {X Y : Nat} (hX : X < 128) (hY : Y < 64) :
    cell (drawCharScaled font x y c size color m) X Y =
      (scaledCell font x y c size color X Y).getD (cell m X Y) := by
  unfold drawCharScaled scaledCell
  split
  · rename_i hin
    obtain ⟨h1, h2, h3, h4, h5, h6, h7⟩ := hin
    have hs : 0 < size := by
      rcases Nat.eq_zero_or_pos size with h0 | h0
      · subst h0; omega
      · exact h0
    have hk : (X - x).toNat / size < 6 := Nat.div_lt_of_lt_mul (by rw [Nat.mul_comm]; omega)
    have hr : (Y - y).toNat / size < 8 := Nat.div_lt_of_lt_mul (by rw [Nat.mul_comm]; omega)
    have ek := Nat.div_add_mod (X - x).toNat size
    have er := Nat.div_add_mod (Y - y).toNat size
    rw [Nat.mul_comm] at ek er
    refine cell_plotAll_hit _ h hX hY ⟨_, mem_scaledDots.mpr ⟨(isGlyph_iff c).mpr ⟨h1, h2⟩,
      _, hk, _, hr, h7, (X - x).toNat % size, Nat.mod_lt _ hs, (Y - y).toNat % size,
      Nat.mod_lt _ hs, rfl⟩, by simp only [ek]; omega, by simp only [er]; omega⟩ ?_
    intro d hd _ _
    obtain ⟨_, k, _, r, _, _, dx, _, dy, _, rfl⟩ := mem_scaledDots.mp hd
    rfl
  · rename_i hout
    refine cell_plotAll_miss _ h hX hY ?_
    intro d hd hxy
    obtain ⟨hg, k, hk, r, hr, hb, dx, hdx, dy, hdy, rfl⟩ := mem_scaledDots.mp hd
    obtain ⟨hxx, hyy⟩ := hxy
    simp only at hxx hyy
    have hgl := (isGlyph_iff c).mp hg
    have bx : k * size + dx < 6 * size := by
      calc k * size + dx < k * size + size := by omega
        _ = (k + 1) * size := by rw [Nat.add_mul, Nat.one_mul]
        _ ≤ 6 * size := Nat.mul_le_mul_right _ (by omega)
    have by' : r * size + dy < 8 * size := by
      calc r * size + dy < r * size + size := by omega
        _ = (r + 1) * size := by rw [Nat.add_mul, Nat.one_mul]
        _ ≤ 8 * size := Nat.mul_le_mul_right _ (by omega)
    have ex : (X - x).toNat = k * size + dx := by omega
    have ey : (Y - y).toNat = r * size + dy := by omega
    apply hout
    rw [block_split hdx ex, block_split hdy ey]
    exact ⟨hgl.1, hgl.2, by omega, by omega, by omega, by omega, hb⟩

/-! Bitmaps -/

theorem mem_blitDots {pixel : Nat → Nat → Nat} {x y : Int} {w h : Nat} {d : Dot} :
    d ∈ blitDots pixel x y w h ↔ ∃ r < h, ∃ q < w, d = ⟨x + (q : Nat), y + (r : Nat), pixel r q⟩ := by
  unfold blitDots
  simp only [List.mem_flatMap, List.mem_map, List.mem_range]
  constructor
  · rintro ⟨r, hr, q, hq, rfl⟩; exact ⟨r, hr, q, hq, rfl⟩
  · rintro ⟨r, hr, q, hq, rfl⟩; exact ⟨r, hr, q, hq, rfl⟩

/-- A blit in a cell (45 R245). -/
theorem cell_blit (pixel : Nat → Nat → Nat) (x y : Int) (w h : Nat) {m : Memory}
    (hm : Memory.wf m = true) {X Y : Nat} (hX : X < 128) (hY : Y < 64) :
    cell (plotAll (blitDots pixel x y w h) m) X Y =
      if x ≤ X ∧ (X : Int) < x + w ∧ y ≤ Y ∧ (Y : Int) < y + h then
        low2 (pixel (Y - y).toNat (X - x).toNat)
      else cell m X Y := by
  split
  · refine cell_plotAll_hit _ hm hX hY ⟨_, mem_blitDots.mpr
      ⟨(Y - y).toNat, by omega, (X - x).toNat, by omega, rfl⟩, by simp only; omega,
      by simp only; omega⟩ ?_
    intro d hd hdx hdy
    obtain ⟨r, hr, q, hq, rfl⟩ := mem_blitDots.mp hd
    simp only at hdx hdy ⊢
    rw [show r = (Y - y).toNat by omega, show q = (X - x).toNat by omega]
  · refine cell_plotAll_miss _ hm hX hY ?_
    intro d hd hxy
    obtain ⟨r, hr, q, hq, rfl⟩ := mem_blitDots.mp hd
    simp only at hxy
    omega

/-! DRAWSTR -/

/-- DRAWSTR peeled by one character: newline, line break first, or drawn in place (43 R210). -/
theorem drawStr_cons (font : Font) (tc : TextContext) (x cx cy : Int) (c : Byte)
    (rest : List Byte) (m : Memory) :
    drawStr font tc x cx cy (c :: rest) m =
      if c.toNat = 10 then drawStr font tc x x (cy + 9 * tc.size.toNat) rest m
      else if tc.wrap = true ∧ cx + 6 * tc.size.toNat > 128 then
        if 64 ≤ cy + 9 * tc.size.toNat then m
        else drawStr font tc x (x + 7 * tc.size.toNat) (cy + 9 * tc.size.toNat) rest
          (drawCharScaled font x (cy + 9 * tc.size.toNat) c tc.size.toNat tc.color.toNat m)
      else if 64 ≤ cy then m
      else drawStr font tc x (cx + 7 * tc.size.toNat) cy rest
        (drawCharScaled font cx cy c tc.size.toNat tc.color.toNat m) := by
  rw [drawStr]
  by_cases hw : tc.wrap = true ∧ cx + 6 * (tc.size.toNat : Int) > 128
  · have hb : (tc.wrap && passesEdge cx tc.size.toNat) = true := by
      simpa [passesEdge] using hw
    simp only [hb, if_true, lineAdvance, charAdvance]
    rw [if_pos hw]
  · have hb : (tc.wrap && passesEdge cx tc.size.toNat) = false := by
      simpa [passesEdge] using hw
    simp only [hb, if_false, lineAdvance, charAdvance, Bool.false_eq_true]
    rw [if_neg hw]

theorem wf_drawStr (font : Font) (tc : TextContext) (x : Int) (str : List Byte) (cx cy : Int)
    {m : Memory} (h : Memory.wf m = true) : Memory.wf (drawStr font tc x cx cy str m) = true := by
  induction str generalizing cx cy m with
  | nil => exact h
  | cons c rest ih =>
    rw [drawStr_cons]
    split
    · exact ih _ _ h
    · split <;> split
      · exact h
      · exact ih _ _ (wf_drawCharScaled _ _ _ _ _ _ h)
      · exact h
      · exact ih _ _ (wf_drawCharScaled _ _ _ _ _ _ h)

/-- No character of DRAWSTR stands above the row its loop is at. -/
theorem strOrigins_below (tc : TextContext) (x : Int) (str : List Byte) (cx cy : Int) :
    ∀ o ∈ strOrigins tc x cx cy str, cy ≤ o.2.1 := by
  induction str generalizing cx cy with
  | nil => intro o ho; cases ho
  | cons c rest ih =>
    intro o ho
    rw [strOrigins] at ho
    split at ho
    · have := ih _ _ o ho; omega
    · split at ho
      · rcases List.mem_cons.mp ho with rfl | ho
        · simp only; omega
        · have := ih _ _ o ho; omega
      · rcases List.mem_cons.mp ho with rfl | ho
        · exact Int.le_refl _
        · exact ih _ _ o ho

/-- What a scaled glyph puts in a cell is its colour. -/
theorem scaledCell_some {font : Font} {x y : Int} {c : Byte} {size X Y : Nat} {color v : Level}
    (h : scaledCell font x y c size color.toNat X Y = some v) : v = color := by
  unfold scaledCell at h
  split at h
  · cases h; simp
  · cases h

/-- A glyph that begins at row 64 or below covers no cell of the grid. -/
theorem scaledCell_below {font : Font} {x y : Int} {c : Byte} {size color X Y : Nat} (hY : Y < 64)
    (hy : 64 ≤ y) : scaledCell font x y c size color X Y = none := by
  unfold scaledCell; rw [if_neg (by omega)]

/-- One character of DRAWSTR, drawn or ending the loop, and the rest: the same cells either way
(43 R210). -/
theorem drawStr_step (font : Font) (tc : TextContext) (x cx cy cx' : Int) (c : Byte)
    (rest : List Byte) {m : Memory} (h : Memory.wf m = true) {X Y : Nat} (hX : X < 128) (hY : Y < 64)
    (ih : ∀ (cx cy : Int) {m : Memory}, Memory.wf m = true →
      cell (drawStr font tc x cx cy rest m) X Y =
        if ∃ o ∈ strOrigins tc x cx cy rest,
            (scaledCell font o.1 o.2.1 o.2.2 tc.size.toNat tc.color.toNat X Y).isSome
        then tc.color else cell m X Y) :
    cell (if 64 ≤ cy then m
      else drawStr font tc x cx' cy rest
        (drawCharScaled font cx cy c tc.size.toNat tc.color.toNat m)) X Y =
      if ∃ o ∈ (cx, cy, c) :: strOrigins tc x cx' cy rest,
          (scaledCell font o.1 o.2.1 o.2.2 tc.size.toNat tc.color.toNat X Y).isSome
      then tc.color else cell m X Y := by
  split
  · rename_i hstop
    rw [if_neg]
    rintro ⟨o, ho, hsome⟩
    have hrow : 64 ≤ o.2.1 := by
      rcases List.mem_cons.mp ho with rfl | ho
      · exact hstop
      · exact Int.le_trans hstop (strOrigins_below tc x rest _ _ o ho)
    rw [scaledCell_below hY hrow] at hsome
    cases hsome
  · rw [ih _ _ (wf_drawCharScaled _ _ _ _ _ _ h), cell_drawCharScaled _ _ _ _ _ _ h hX hY]
    by_cases hrest : ∃ o ∈ strOrigins tc x cx' cy rest,
        (scaledCell font o.1 o.2.1 o.2.2 tc.size.toNat tc.color.toNat X Y).isSome
    · rw [if_pos hrest, if_pos]
      obtain ⟨o, ho, hs⟩ := hrest
      exact ⟨o, List.mem_cons_of_mem _ ho, hs⟩
    · rw [if_neg hrest]
      cases hc : scaledCell font cx cy c tc.size.toNat tc.color.toNat X Y with
      | none =>
        rw [if_neg]
        · rfl
        · rintro ⟨o, ho, hs⟩
          rcases List.mem_cons.mp ho with rfl | ho
          · simp only at hs; rw [hc] at hs; cases hs
          · exact hrest ⟨o, ho, hs⟩
      | some v =>
        rw [if_pos ⟨(cx, cy, c), List.mem_cons_self .., by simp only; rw [hc]; rfl⟩,
          scaledCell_some hc]
        rfl

/-- DRAWSTR in a cell (43 R210). -/
theorem cell_drawStr (font : Font) (tc : TextContext) (x : Int) (str : List Byte) (cx cy : Int)
    {m : Memory} (h : Memory.wf m = true) {X Y : Nat} (hX : X < 128) (hY : Y < 64) :
    cell (drawStr font tc x cx cy str m) X Y =
      if ∃ o ∈ strOrigins tc x cx cy str,
          (scaledCell font o.1 o.2.1 o.2.2 tc.size.toNat tc.color.toNat X Y).isSome
      then tc.color else cell m X Y := by
  induction str generalizing cx cy m with
  | nil => simp [drawStr, strOrigins]
  | cons c rest ih =>
    rw [drawStr_cons, strOrigins]
    split
    · exact ih _ _ h
    · split
      · exact drawStr_step font tc x _ _ _ c rest h hX hY ih
      · exact drawStr_step font tc x _ _ _ c rest h hX hY ih

/-! Printing -/

theorem printChar_endWith (c : Byte) (s : State) (st : Status) :
    printChar c (endWith st s) = endWith st (printChar c s) := by
  obtain ⟨g, tc, scr, p, wc, wr, xf, st', bus, cfg, port, ans, dr, rs⟩ := s
  change (if c.toNat = 10 then _ else _) = endWith st (if c.toNat = 10 then _ else _)
  by_cases h1 : c.toNat = 10
  · rw [if_pos h1, if_pos h1]; rfl
  · rw [if_neg h1, if_neg h1, apply_ite (endWith st)]; rfl

theorem printString_endWith (str : List Byte) (s : State) (st : Status) :
    printString str (endWith st s) = endWith st (printString str s) := by
  induction str generalizing s with
  | nil => rfl
  | cons c r ih => rw [printString, printString, printChar_endWith, ih]

/-- Everything `PrintChar` can do (43 R207): the grid stays canonical, the cursor may move and stays
within its registers. -/
theorem printChar_shape (c : Byte) (s : State) :
    ∃ g cx cy, printChar c s = { s with grid := g, tc := { s.tc with cx := cx, cy := cy } } ∧
      (Memory.wf s.grid = true → Memory.wf g = true) ∧
      (s.tc.InRange s.cfg.coordBits → InCoord s.cfg.coordBits cx ∧ InCoord s.cfg.coordBits cy) := by
  have h0 := inCoord_zero s.cfg.coordBits
  have hw := wrapTo_range s.cfg.coordBits
  unfold printChar
  dsimp only
  split
  · exact ⟨s.grid, _, _, rfl, fun h => h, fun _ => ⟨h0, hw _⟩⟩
  · split <;> split
    · exact ⟨s.grid, _, _, rfl, fun h => h, fun _ => ⟨h0, hw _⟩⟩
    · exact ⟨_, _, _, rfl, fun h => wf_drawCharScaled _ _ _ _ _ _ h, fun _ => ⟨hw _, hw _⟩⟩
    · exact ⟨s.grid, _, _, rfl, fun h => h, fun h => h⟩
    · exact ⟨_, _, _, rfl, fun h => wf_drawCharScaled _ _ _ _ _ _ h, fun h => ⟨hw _, h.2⟩⟩

/-- Everything a sequence of `PrintChar` can do (43 R209). -/
theorem printString_shape (str : List Byte) (s : State) :
    ∃ g cx cy, printString str s = { s with grid := g, tc := { s.tc with cx := cx, cy := cy } } ∧
      (Memory.wf s.grid = true → Memory.wf g = true) ∧
      (s.tc.InRange s.cfg.coordBits → InCoord s.cfg.coordBits cx ∧ InCoord s.cfg.coordBits cy) := by
  induction str generalizing s with
  | nil => exact ⟨s.grid, s.tc.cx, s.tc.cy, rfl, fun h => h, fun h => h⟩
  | cons c r ih =>
    obtain ⟨g1, x1, y1, h1, w1, r1⟩ := printChar_shape c s
    obtain ⟨g2, x2, y2, h2, w2, r2⟩ := ih (printChar c s)
    rw [h1] at h2 w2 r2
    exact ⟨g2, x2, y2, by rw [printString, h1, h2], fun h => w2 (w1 h), fun h => r2 (r1 h)⟩

/-! Pixels of the packed bitmaps -/

/-- The level a 4-bit pixel stores (30 R106, 45 R247). -/
theorem low2_pixel4 (data : List Byte) (w r q : Nat) :
    low2 (pixel4 data w r q) =
      if q % 2 = 0 then (data.getD (r * stride4 w + q / 2) 0).extractLsb' 6 2
      else (data.getD (r * stride4 w + q / 2) 0).extractLsb' 2 2 := by
  have hi : ∀ b : Byte, low2 ((b.toNat >>> 4) >>> 2) = b.extractLsb' 6 2 := by decide
  have lo : ∀ b : Byte, low2 ((b.toNat &&& 15) >>> 2) = b.extractLsb' 2 2 := by decide
  unfold pixel4 dataByte
  by_cases hq : q % 2 = 0
  · simp only [if_pos hq]; exact hi _
  · simp only [if_neg hq]; exact lo _

/-- The level a 2-bit pixel stores (30 R107, 45 R251). -/
theorem low2_pixel2 (data : List Byte) (w r q : Nat) :
    low2 (pixel2 data w r q) =
      (data.getD (r * stride2 w + q / 4) 0).extractLsb' (6 - 2 * (q % 4)) 2 := by
  have pair : ∀ b : Byte, ∀ k : Fin 4,
      low2 ((b.toNat >>> (6 - 2 * k.val)) &&& 3) = b.extractLsb' (6 - 2 * k.val) 2 := by decide
  exact pair _ ⟨q % 4, Nat.mod_lt _ (by omega)⟩

end Sys2Proof.Machine
end

