-- ==== Sys2Proof/Laws/Encoding.lean ====
section
/-!
SUPPORT. The byte order of 16-bit fields (30 R95): splitting and joining are inverse.
-/

namespace Sys2Proof

/-- A field is what its two bytes join to. -/
@[simp] theorem joinBytes_split (v : S16) : joinBytes (loByte v) (hiByte v) = v := by
  unfold joinBytes loByte hiByte
  ext i hi
  simp only [BitVec.getElem_append, BitVec.getElem_extractLsb']
  split
  · simp [BitVec.getLsbD_eq_getElem hi]
  · rename_i h
    rw [show 8 + (i - 8) = i by omega, BitVec.getLsbD_eq_getElem hi]

@[simp] theorem loByte_join (lo hi : Byte) : loByte (joinBytes lo hi) = lo := by
  unfold joinBytes loByte
  ext i h
  rw [BitVec.getElem_extractLsb', Nat.zero_add]
  refine (BitVec.getLsbD_append (x := hi) (y := lo) (i := i)).trans ?_
  rw [if_pos h, BitVec.getLsbD_eq_getElem h]

@[simp] theorem hiByte_join (lo hi : Byte) : hiByte (joinBytes lo hi) = hi := by
  unfold joinBytes hiByte
  ext i h
  rw [BitVec.getElem_extractLsb']
  refine (BitVec.getLsbD_append (x := hi) (y := lo) (i := 8 + i)).trans ?_
  rw [if_neg (by omega), show 8 + i - 8 = i by omega, BitVec.getLsbD_eq_getElem h]

/-- A byte whose value is a numeral is that numeral. -/
theorem byte_of_toNat {b : Byte} {n : Nat} (h : b.toNat = n) : b = BitVec.ofNat 8 n := by
  rw [← h, BitVec.ofNat_toNat, BitVec.setWidth_eq]

end Sys2Proof
end

