-- ==== Sys2Proof/Laws/Transport.lean ====
section
/-!
SUPPORT. What the transport operations can do, said once: the answers a transaction uses up, the events
it leaves, and the frame every procedure of the sequencer keeps.
-/

namespace Sys2Proof.Machine

/-! The answers -/

theorem nextAnswer_eq (s : State) : nextAnswer s = upcoming s 0 := by
  unfold nextAnswer upcoming
  cases h : s.answers <;> simp

theorem upcoming_takeAnswer (s : State) (k : Nat) : upcoming (takeAnswer s) k = upcoming s (1 + k) := by
  unfold takeAnswer upcoming
  cases h : s.answers with
  | nil => simp [Nat.add_assoc]
  | cons a rest => simp [Nat.add_comm 1 k, Nat.add_sub_add_right]

/-- The answers to come depend on the two fields that hold them and on nothing else. -/
theorem upcoming_congr {s t : State} (ha : t.answers = s.answers) (hd : t.drawn = s.drawn) (k : Nat) :
    upcoming t k = upcoming s k := by
  unfold upcoming; rw [ha, hd]

theorem usedAnswers_trans {s t u : State} {m n : Nat} (h : UsedAnswers s t m)
    (h' : UsedAnswers t u n) : UsedAnswers s u (m + n) := by
  intro k; rw [h' k, h (n + k), Nat.add_assoc]

theorem usedAnswers_of {s t u : State} {n : Nat} (h : UsedAnswers s t n)
    (ha : u.answers = t.answers) (hd : u.drawn = t.drawn) : UsedAnswers s u n := fun k =>
  (upcoming_congr ha hd k).trans (h k)

theorem answersFail_used {s t : State} {m j n : Nat} (h : AnswersFail s (m + j) n)
    (hu : UsedAnswers s t m) : AnswersFail t j n := fun k hk => by
  rw [hu, ← Nat.add_assoc]; exact h k hk

/-- What holds of the answers from `m` on holds from the start once `m` are used. -/
theorem succeedsAfter_used {s t : State} {m j k : Nat} (h : SucceedsAfter s (m + j) k)
    (hu : UsedAnswers s t m) (hc : t.cfg = s.cfg) : SucceedsAfter t j k :=
  ⟨by rw [hc]; exact h.1, answersFail_used h.2.1 hu, by rw [hu, ← Nat.add_assoc]; exact h.2.2⟩

theorem isLost_used {s t : State} {m j : Nat} (h : IsLost s (m + j)) (hu : UsedAnswers s t m)
    (hc : t.cfg = s.cfg) : IsLost t j := by
  unfold IsLost; rw [hc]; exact answersFail_used h hu

theorem allSucceed_used {s t : State} {m : Nat} (hu : UsedAnswers s t m) (hc : t.cfg = s.cfg)
    (ks : List Nat) {j : Nat} (h : AllSucceed s (m + j) ks) : AllSucceed t j ks := by
  induction ks generalizing j with
  | nil => trivial
  | cons k rest ih =>
    exact ⟨succeedsAfter_used h.1 hu hc,
      ih (by rw [show m + (j + k + 1) = m + j + k + 1 by omega]; exact h.2)⟩

theorem allSucceed_append {s : State} (as bs : List Nat) {j : Nat} :
    AllSucceed s j (as ++ bs) ↔ AllSucceed s j as ∧ AllSucceed s (j + answersUsed as) bs := by
  induction as generalizing j with
  | nil => simp [AllSucceed, answersUsed]
  | cons a rest ih =>
    have : j + answersUsed (a :: rest) = j + a + 1 + answersUsed rest := by
      simp [answersUsed]; omega
    rw [List.cons_append, AllSucceed, AllSucceed, ih, this, and_assoc]

theorem answersUsed_append (as bs : List Nat) :
    answersUsed (as ++ bs) = answersUsed as + answersUsed bs := by
  simp [answersUsed]

theorem sentTrace_cons (t : Transaction) (ts : List Transaction) (d k : Nat) (ks : List Nat) :
    sentTrace (t :: ts) d (k :: ks) = okTrace t d k ++ sentTrace ts d ks := by
  simp [sentTrace]

theorem sentTrace_append (ts us : List Transaction) (d : Nat) (as bs : List Nat)
    (h : ts.length = as.length) :
    sentTrace (ts ++ us) d (as ++ bs) = sentTrace ts d as ++ sentTrace us d bs := by
  simp [sentTrace, List.zipWith_append h]

/-- Transactions past the given numbers of attempts leave no event. -/
theorem sentTrace_extra (ts us : List Transaction) (d : Nat) (ks : List Nat)
    (h : ks.length ≤ ts.length) : sentTrace (ts ++ us) d ks = sentTrace ts d ks := by
  induction ts generalizing ks with
  | nil =>
    obtain rfl := List.length_eq_zero_iff.mp (Nat.le_zero.mp h)
    simp [sentTrace]
  | cons t rest ih =>
    cases ks with
    | nil => simp [sentTrace]
    | cons k ks =>
      rw [List.cons_append, sentTrace_cons, sentTrace_cons, ih ks (by simpa using h)]

/-! One transaction -/

theorem attempts_ok_step (t : Transaction) (left : Nat) {s : State} (h : upcoming s 0 = .ok) :
    attempts t left s = .done (emit (.tx t .ok) (takeAnswer s)) := by
  rw [attempts.eq_def]; simp only [nextAnswer_eq, h]

theorem attempts_last_fail (t : Transaction) {s : State} (h : upcoming s 0 = .fail) :
    attempts t 0 s = .raised (setXfail (emit (.tx t .fail) (takeAnswer s))) := by
  rw [attempts.eq_def]; simp only [nextAnswer_eq, h]

theorem attempts_retry (t : Transaction) (left : Nat) {s : State} (h : upcoming s 0 = .fail) :
    attempts t (left + 1) s =
      attempts t left
        (emit (.delay s.cfg.retryDelayMs) (emit (.tx t .fail) (takeAnswer s))) := by
  rw [attempts.eq_def]; simp only [nextAnswer_eq, h, emit_cfg, takeAnswer_cfg]

theorem failTrace_succ (t : Transaction) (d k : Nat) :
    failTrace t d (k + 1) = Event.tx t .fail :: Event.delay d :: failTrace t d k := by
  simp [failTrace, List.replicate_succ]

/-- A transaction that succeeds within its bound (40 R122). -/
theorem attempts_succeeds (t : Transaction) {left k : Nat} {s : State} (hk : k ≤ left)
    (hf : AnswersFail s 0 k) (ho : upcoming s k = .ok) :
    ∃ ans dr, attempts t left s =
        .done { s with
          bus := s.bus ++ okTrace t s.cfg.retryDelayMs k, answers := ans, drawn := dr } ∧
      UsedAnswers s { s with answers := ans, drawn := dr } (k + 1) := by
  induction k generalizing left s with
  | zero =>
    refine ⟨(takeAnswer s).answers, (takeAnswer s).drawn, ?_, fun j => ?_⟩
    · rw [attempts_ok_step t left ho, takeAnswer_eq]; simp [emit, okTrace, failTrace]
    · rw [Nat.zero_add, ← upcoming_takeAnswer]; exact upcoming_congr rfl rfl j
  | succ k ih =>
    obtain ⟨l, rfl⟩ : ∃ l, left = l + 1 := ⟨left - 1, by omega⟩
    have h0 : upcoming s 0 = .fail := by simpa using hf 0 (by omega)
    let s1 := emit (.delay s.cfg.retryDelayMs) (emit (.tx t .fail) (takeAnswer s))
    have hs1 : ∀ j, upcoming s1 j = upcoming s (1 + j) := fun j => by
      rw [← upcoming_takeAnswer]; exact upcoming_congr rfl rfl j
    obtain ⟨ans, dr, hrun, hused⟩ := ih (left := l) (s := s1) (by omega)
      (fun j hj => by rw [hs1]; have := hf (1 + j) (by omega); simpa [Nat.add_comm] using this)
      (by rw [hs1, Nat.add_comm]; exact ho)
    refine ⟨ans, dr, ?_, fun j => ?_⟩
    · rw [attempts_retry t l h0, hrun]
      simp only [Run.done.injEq]
      rw [show s1 = emit (.delay s.cfg.retryDelayMs) (emit (.tx t .fail) (takeAnswer s)) from rfl,
        takeAnswer_eq]
      simp [emit, okTrace, failTrace_succ]
    · have := hused j
      rw [hs1] at this
      rw [show k + 1 + 1 + j = 1 + (k + 1 + j) by omega, ← this]
      exact upcoming_congr rfl rfl j

/-- A transaction that exhausts its attempts (40 R122, R123). -/
theorem attempts_exhausts (t : Transaction) {left : Nat} {s : State}
    (hf : AnswersFail s 0 (left + 1)) :
    ∃ ans dr, attempts t left s =
        .raised { s with
          bus := s.bus ++ lostTrace t s.cfg.retryDelayMs left
          xfail := true, answers := ans, drawn := dr } ∧
      UsedAnswers s { s with answers := ans, drawn := dr } (left + 1) := by
  induction left generalizing s with
  | zero =>
    refine ⟨(takeAnswer s).answers, (takeAnswer s).drawn, ?_, fun j => ?_⟩
    · rw [attempts_last_fail t (by simpa using hf 0 (by omega)), takeAnswer_eq]
      simp [emit, setXfail, lostTrace, failTrace]
    · rw [Nat.zero_add, ← upcoming_takeAnswer]; exact upcoming_congr rfl rfl j
  | succ l ih =>
    have h0 : upcoming s 0 = .fail := by simpa using hf 0 (by omega)
    let s1 := emit (.delay s.cfg.retryDelayMs) (emit (.tx t .fail) (takeAnswer s))
    have hs1 : ∀ j, upcoming s1 j = upcoming s (1 + j) := fun j => by
      rw [← upcoming_takeAnswer]; exact upcoming_congr rfl rfl j
    obtain ⟨ans, dr, hrun, hused⟩ := ih (s := s1) (fun j hj => by
      rw [hs1]; have := hf (1 + j) (by omega); simpa [Nat.add_comm] using this)
    refine ⟨ans, dr, ?_, fun j => ?_⟩
    · rw [attempts_retry t l h0, hrun]
      simp only [Run.raised.injEq]
      rw [show s1 = emit (.delay s.cfg.retryDelayMs) (emit (.tx t .fail) (takeAnswer s)) from rfl,
        takeAnswer_eq]
      simp [emit, lostTrace, failTrace_succ]
    · have := hused j
      rw [hs1] at this
      rw [show l + 1 + 1 + j = 1 + (l + 1 + j) by omega, ← this]
      exact upcoming_congr rfl rfl j

/-- A transaction that succeeds (40 R122). -/
theorem xact_succeeds (t : Transaction) {s : State} {k : Nat} (h : SucceedsAfter s 0 k) :
    ∃ ans dr, xact t s = .done { s with
        bus := s.bus ++ okTrace t s.cfg.retryDelayMs k, answers := ans, drawn := dr } ∧
      UsedAnswers s { s with answers := ans, drawn := dr } (k + 1) :=
  attempts_succeeds t h.1 h.2.1 (by rw [← Nat.zero_add k]; exact h.2.2)

/-- A transaction all of whose attempts fail (40 R122). -/
theorem xact_lost (t : Transaction) {s : State} (h : IsLost s 0) :
    ∃ ans dr, xact t s = .raised { s with
        bus := s.bus ++ lostTrace t s.cfg.retryDelayMs s.cfg.retryMax
        xfail := true, answers := ans, drawn := dr } ∧
      UsedAnswers s { s with answers := ans, drawn := dr } (s.cfg.retryMax + 1) :=
  attempts_exhausts t h

/-- A list of transactions that all succeed. -/
theorem xactAll_succeed (ts : List Transaction) (ks : List Nat) {s : State}
    (hl : ts.length = ks.length) (h : AllSucceed s 0 ks) :
    ∃ ans dr, xactAll ts s = .done { s with
        bus := s.bus ++ sentTrace ts s.cfg.retryDelayMs ks, answers := ans, drawn := dr } ∧
      UsedAnswers s { s with answers := ans, drawn := dr } (answersUsed ks) := by
  induction ts generalizing s ks with
  | nil =>
    obtain rfl := List.length_eq_zero_iff.mp hl.symm
    refine ⟨s.answers, s.drawn, by simp [xactAll, sentTrace], fun k => ?_⟩
    simp only [answersUsed, List.map_nil, List.sum_nil, Nat.zero_add]
  | cons t rest ih =>
    cases ks with
    | nil => simp at hl
    | cons k ks =>
      obtain ⟨a1, d1, h1, u1⟩ := xact_succeeds t h.1
      let s1 : State := { s with
        bus := s.bus ++ okTrace t s.cfg.retryDelayMs k, answers := a1, drawn := d1 }
      have us1 : UsedAnswers s s1 (k + 1) := u1
      obtain ⟨a2, d2, h2, u2⟩ := ih ks (s := s1) (by simpa using hl)
        (allSucceed_used us1 rfl ks (by
          rw [show k + 1 + 0 = 0 + k + 1 by omega]; exact h.2))
      refine ⟨a2, d2, ?_, ?_⟩
      · rw [xactAll, h1, andThen_done, h2, sentTrace_cons]; simp [s1]
      · have := usedAnswers_trans us1 u2
        rw [show answersUsed (k :: ks) = k + 1 + answersUsed ks by simp [answersUsed]]
        exact fun j => this j

/-- A list of transactions of which the first ones succeed and the next is lost (40 R123). -/
theorem xactAll_lost (ts : List Transaction) (ks : List Nat) {s : State} {t : Transaction}
    (ht : ts[ks.length]? = some t) (hok : AllSucceed s 0 ks) (hf : IsLost s (answersUsed ks)) :
    ∃ ans dr, xactAll ts s = .raised { s with
        bus := s.bus ++ sentTrace ts s.cfg.retryDelayMs ks ++
          lostTrace t s.cfg.retryDelayMs s.cfg.retryMax
        xfail := true, answers := ans, drawn := dr } := by
  induction ts generalizing s ks with
  | nil => simp at ht
  | cons u rest ih =>
    cases ks with
    | nil =>
      simp only [List.length_nil, List.getElem?_cons_zero, Option.some.injEq] at ht
      subst ht
      obtain ⟨a1, d1, h1, -⟩ := xact_lost u hf
      exact ⟨a1, d1, by rw [xactAll, h1, andThen_raised]; simp [sentTrace]⟩
    | cons k ks =>
      obtain ⟨a1, d1, h1, u1⟩ := xact_succeeds u hok.1
      let s1 : State := { s with
        bus := s.bus ++ okTrace u s.cfg.retryDelayMs k, answers := a1, drawn := d1 }
      have us1 : UsedAnswers s s1 (k + 1) := u1
      obtain ⟨a2, d2, h2⟩ := ih ks (s := s1) (by simpa using ht)
        (allSucceed_used us1 rfl ks (by
          rw [show k + 1 + 0 = 0 + k + 1 by omega]; exact hok.2))
        (isLost_used (m := k + 1)
          (by rw [show k + 1 + answersUsed ks = answersUsed (k :: ks) by simp [answersUsed]]
              exact hf) us1 rfl)
      exact ⟨a2, d2, by rw [xactAll, h1, andThen_done, h2, sentTrace_cons]; simp [s1]⟩

/-! The frame of the sequencer -/

/-- A transaction's payload is a non-empty byte list where it has one (40 R120). -/
def FitsPayload (t : Transaction) : Prop := ∀ r, (Event.tx t r).PayloadFits

/-- What any part of a transport command may have changed of `s` so far: `BUS` grew at its end by
events with non-empty payloads; `PSTATE`, the shadows, `XFAIL` and the answers may differ. -/
structure Reached (s t : State) : Prop where
  frame : t = { s with
    bus := t.bus, pstate := t.pstate, wincol := t.wincol, winrow := t.winrow,
    xfail := t.xfail, answers := t.answers, drawn := t.drawn }
  grows : s.bus <+: t.bus
  fits : (∀ e ∈ s.bus, e.PayloadFits) → ∀ e ∈ t.bus, e.PayloadFits

theorem Reached.refl (s : State) : Reached s s := ⟨rfl, List.prefix_refl _, fun h => h⟩

theorem Reached.cfg {s t : State} (h : Reached s t) : t.cfg = s.cfg := by
  rw [h.frame]

theorem Reached.grid {s t : State} (h : Reached s t) : t.grid = s.grid := by
  rw [h.frame]

theorem Reached.tc {s t : State} (h : Reached s t) : t.tc = s.tc := by
  rw [h.frame]

theorem Reached.scr {s t : State} (h : Reached s t) : t.scr = s.scr := by
  rw [h.frame]

theorem Reached.port {s t : State} (h : Reached s t) : t.port = s.port := by
  rw [h.frame]

theorem Reached.trans {s t u : State} (h : Reached s t) (h' : Reached t u) : Reached s u := by
  refine ⟨?_, h.grows.trans h'.grows, fun hs => h'.fits (h.fits hs)⟩
  rw [h'.frame]; conv_rhs => rw [h.frame]
  have := h.frame
  generalize hb : u.bus = b at *
  rw [this]

/-- The last attempt recorded in `BUS` failed. -/
def LastFailed (t : State) : Prop := ∃ tr, lastAttempt t.bus = some (tr, .fail)

/-- What a procedure may have done when it stops: gone on with `XFAIL` as it was, or raised XFAIL. -/
def Run.Within (s : State) (r : Run) : Prop :=
  match r with
  | .done t => Reached s t ∧ t.xfail = s.xfail
  | .raised t => Reached s t ∧ t.xfail = true ∧ LastFailed t

theorem Run.Within.andThen {s : State} {r : Run} {f : State → Run} (h : r.Within s)
    (hf : ∀ t, r = .done t → (f t).Within t) : (r.andThen f).Within s := by
  cases r with
  | raised t => exact h
  | done t =>
    have h2 := hf t rfl
    show (f t).Within s
    cases hft : f t with
    | done u => rw [hft] at h2; exact ⟨h.1.trans h2.1, h2.2.trans h.2⟩
    | raised u => rw [hft] at h2; exact ⟨h.1.trans h2.1, h2.2⟩

theorem lastAttempt_append_tx (bus : List Event) (t : Transaction) (r : Answer) :
    lastAttempt (bus ++ [.tx t r]) = some (t, r) := by
  simp [lastAttempt]

theorem reached_emit_tx {t : Transaction} (ht : FitsPayload t) (r : Answer) (s : State) :
    Reached s (emit (.tx t r) (takeAnswer s)) := by
  refine ⟨?_, ?_, fun hs e he => ?_⟩
  · unfold takeAnswer; split <;> rfl
  · simp
  · simp only [emit_bus, takeAnswer_bus, List.mem_append, List.mem_singleton] at he
    rcases he with he | rfl
    · exact hs e he
    · exact ht r

theorem reached_emit_other {e : Event} (he : e.PayloadFits) (s : State) : Reached s (emit e s) :=
  ⟨rfl, by simp, fun hs d hd => by
    simp only [emit_bus, List.mem_append, List.mem_singleton] at hd
    rcases hd with hd | rfl
    · exact hs d hd
    · exact he⟩

/-- Everything an `Xact` can do (40 R122); besides, it moves neither `PSTATE` nor a shadow. -/
theorem attempts_within {t : Transaction} (ht : FitsPayload t) (left : Nat) (s : State) :
    (attempts t left s).Within s ∧
      ∀ u, attempts t left s = .done u ∨ attempts t left s = .raised u →
        u.pstate = s.pstate ∧ u.wincol = s.wincol ∧ u.winrow = s.winrow := by
  induction left generalizing s with
  | zero =>
    cases h : upcoming s 0 with
    | ok =>
      rw [attempts_ok_step t 0 h]
      exact ⟨⟨reached_emit_tx ht _ s, by simp⟩, by (rintro u (h | h) <;> cases h); simp⟩
    | fail =>
      rw [attempts_last_fail t h]
      refine ⟨⟨(reached_emit_tx ht .fail s).trans ⟨rfl, by simp, fun h => by simpa using h⟩, rfl,
        ⟨t, ?_⟩⟩, by (rintro u (h | h) <;> cases h); simp⟩
      simp only [setXfail_bus, emit_bus]; exact lastAttempt_append_tx _ _ _
  | succ l ih =>
    cases h : upcoming s 0 with
    | ok =>
      rw [attempts_ok_step t _ h]
      exact ⟨⟨reached_emit_tx ht _ s, by simp⟩, by (rintro u (h | h) <;> cases h); simp⟩
    | fail =>
      rw [attempts_retry t l h]
      let s1 := emit (.delay s.cfg.retryDelayMs) (emit (.tx t .fail) (takeAnswer s))
      have hr : Reached s s1 :=
        (reached_emit_tx ht .fail s).trans (reached_emit_other (e := .delay _) trivial _)
      obtain ⟨h1, h2⟩ := ih s1
      refine ⟨?_, fun u hu => ?_⟩
      · have : ((Run.done s1).andThen (attempts t l)).Within s :=
          Run.Within.andThen ⟨hr, by simp [s1]⟩ fun t' ht' => by cases ht'; exact h1
        exact this
      · have := h2 u hu
        simpa [s1] using this

theorem xact_within {t : Transaction} (ht : FitsPayload t) (s : State) : (xact t s).Within s :=
  (attempts_within ht _ s).1

theorem xact_keeps {t : Transaction} (ht : FitsPayload t) {s u : State}
    (h : xact t s = .done u ∨ xact t s = .raised u) :
    u.pstate = s.pstate ∧ u.wincol = s.wincol ∧ u.winrow = s.winrow :=
  (attempts_within ht _ s).2 u h

theorem xactAll_within (ts : List Transaction) (hts : ∀ t ∈ ts, FitsPayload t) (s : State) :
    (xactAll ts s).Within s := by
  induction ts generalizing s with
  | nil => exact ⟨Reached.refl s, rfl⟩
  | cons t rest ih =>
    exact (xact_within (hts t (List.mem_cons_self ..)) s).andThen fun u _ =>
      ih (fun t' h => hts t' (List.mem_cons_of_mem _ h)) u

/-- A list of transactions moves neither `PSTATE` nor a shadow. -/
theorem xactAll_keeps (ts : List Transaction) (hts : ∀ t ∈ ts, FitsPayload t) {s u : State}
    (h : xactAll ts s = .done u ∨ xactAll ts s = .raised u) :
    u.pstate = s.pstate ∧ u.wincol = s.wincol ∧ u.winrow = s.winrow := by
  induction ts generalizing s with
  | nil => rcases h with h | h <;> cases h; exact ⟨rfl, rfl, rfl⟩
  | cons t rest ih =>
    have ht := hts t (List.mem_cons_self ..)
    rw [xactAll] at h
    cases hx : xact t s with
    | done v =>
      rw [hx, andThen_done] at h
      obtain ⟨a, b, c⟩ := ih (fun t' h => hts t' (List.mem_cons_of_mem _ h)) h
      obtain ⟨a', b', c'⟩ := xact_keeps ht (.inl hx)
      exact ⟨a.trans a', b.trans b', c.trans c'⟩
    | raised v =>
      rw [hx, andThen_raised] at h
      rcases h with h | h <;> cases h
      exact xact_keeps ht (.inr hx)

theorem fits_cmd (op : Byte) : FitsPayload (.cmd op) := fun _ => trivial

theorem fits_cmdData {op : Byte} {p : List Byte} (h : p ≠ []) : FitsPayload (.cmdData op p) :=
  fun _ => h

theorem fits_data {p : List Byte} (h : p ≠ []) : FitsPayload (.data p) := fun _ => h

theorem fits_transactionOf (op : Byte) (p : List Byte) : FitsPayload (transactionOf op p) := by
  cases p with
  | nil => exact fits_cmd op
  | cons a l => exact fits_cmdData (by simp)

/-- A record update of the shadows or `PSTATE` stays within the frame. -/
theorem Run.Within.after {s t : State} (h : Reached s t) (hx : t.xfail = s.xfail) {r : Run}
    (hr : r.Within t) : r.Within s := by
  cases r with
  | done u => exact ⟨h.trans hr.1, hr.2.trans hx⟩
  | raised u => exact ⟨h.trans hr.1, hr.2⟩

theorem setWindow_within (cs ce rs re : Byte) (s : State) : (setWindow cs ce rs re s).Within s := by
  refine (xact_within (fits_cmdData (by simp)) s).andThen fun t _ => ?_
  refine Run.Within.after (t := { t with wincol := some (cs, ce) })
    ⟨rfl, List.prefix_refl _, fun h => h⟩ rfl ?_
  exact (xact_within (fits_cmdData (by simp)) _).andThen fun u _ =>
    ⟨⟨rfl, List.prefix_refl _, fun h => h⟩, rfl⟩

theorem setPower_within (on : Bool) (s : State) : (setPower on s).Within s :=
  (xact_within (fits_cmd _) s).andThen fun _ _ =>
    ⟨⟨rfl, List.prefix_refl _, fun h => h⟩, rfl⟩

end Sys2Proof.Machine
end

