-- ==== Sys2Proof/Laws/Procedures.lean ====
section
/-!
SUPPORT. One lemma per shared procedure of the sequencer (40 R122, R126, R129, R132, R134, 41 R165):
the state it leaves when its transactions succeed, when one is lost, and its frame in every case.
-/

namespace Sys2Proof.Machine

theorem isPowered_iff (s : State) :
    isPowered s = true ↔ s.pstate = .poweredOff ∨ s.pstate = .poweredOn := by
  simp [isPowered]

theorem isPowered_false (s : State) (h1 : s.pstate ≠ .poweredOff) (h2 : s.pstate ≠ .poweredOn) :
    isPowered s = false := by
  simp [isPowered, h1, h2]

/-- Every instruction that issues one raw transaction is that transaction and its end. -/
theorem exec_raw {i : Instr} {t : Transaction} (h : rawTransaction i = some t) (s : State) :
    exec i s = .next (xact t s).finish := by
  cases i
  case sendcmdd cop p =>
    cases p <;> simp only [rawTransaction, Option.some.injEq, reduceCtorEq] at h
    subst h; rfl
  all_goals first
    | (simp only [rawTransaction, encode, Instr.side, Option.some.injEq, reduceCtorEq] at h; subst h; rfl)
    | (simp only [rawTransaction, Instr.side, reduceCtorEq] at h; done)
    | (rename_i p; cases p <;> simp only [rawTransaction, encode, Instr.side, Option.some.injEq] at h <;> subst h <;> rfl)

theorem refreshList_length (cfg : Config) (m : Memory) : (refreshList cfg m).length = 67 := by
  simp [refreshList]

theorem initList_length (cfg : Config) : (initList cfg).length = 21 := by
  simp [initList]

theorem transactionOf_eq (op : Byte) (p : List Byte) :
    transactionOf op p = if p.length = 0 then .cmd op else .cmdData op p := by
  cases p <;> simp [transactionOf]

theorem initList_eq (cfg : Config) :
    initList cfg = .cmd 0xAE :: (initTransactions cfg.initPayload ++ [.cmd 0xAF]) := by
  have : (fun op payload => transactionOf op payload) =
      (fun op (payload : List Byte) => if payload.length = 0 then .cmd op else .cmdData op payload) := by
    funext op p; exact transactionOf_eq op p
  simp only [initList, initTransactions, initOps]
  rw [← this]; rfl

theorem refreshList_eq (cfg : Config) (m : Memory) :
    refreshList cfg m = .cmdData 0x15 [cfg.winFull.colStart, cfg.winFull.colEnd] ::
      .cmdData 0x75 [cfg.winFull.rowStart, cfg.winFull.rowEnd] :: .cmd 0x5C ::
      rowTransactions cfg.rowFraming m := by
  simp only [refreshList, rowTransactions]
  cases cfg.rowFraming <;> rfl

/-! Sending -/

/-- `SetWindow` whose two transactions succeed (40 R129). -/
theorem setWindow_succeeds (cs ce rs re : Byte) {s : State} {k m : Nat}
    (h : AllSucceed s 0 [k, m]) :
    ∃ ans dr, setWindow cs ce rs re s = .done { s with
        bus := s.bus ++ okTrace (.cmdData 0x15 [cs, ce]) s.cfg.retryDelayMs k ++
          okTrace (.cmdData 0x75 [rs, re]) s.cfg.retryDelayMs m
        wincol := some (cs, ce), winrow := some (rs, re), answers := ans, drawn := dr } ∧
      UsedAnswers s { s with answers := ans, drawn := dr } (answersUsed [k, m]) := by
  obtain ⟨a1, d1, h1, u1⟩ := xact_succeeds (.cmdData 0x15 [cs, ce]) h.1
  let s1 : State := { s with
    bus := s.bus ++ okTrace (.cmdData 0x15 [cs, ce]) s.cfg.retryDelayMs k
    wincol := some (cs, ce), answers := a1, drawn := d1 }
  have us1 : UsedAnswers s s1 (k + 1) := u1
  obtain ⟨a2, d2, h2, u2⟩ := xact_succeeds (s := s1) (k := m) (.cmdData 0x75 [rs, re])
    (succeedsAfter_used (by rw [show k + 1 + 0 = 0 + k + 1 by omega]; exact h.2.1) us1 rfl)
  refine ⟨a2, d2, ?_, ?_⟩
  · rw [setWindow, h1, andThen_done, h2, andThen_done]
  · have := usedAnswers_trans us1 u2
    exact fun j => this j

/-- `SetWindow` whose row transaction is lost (40 R129, R130). -/
theorem setWindow_row_lost (cs ce rs re : Byte) {s : State} {k : Nat} (h : SucceedsAfter s 0 k)
    (hf : IsLost s (k + 1)) :
    ∃ ans dr, setWindow cs ce rs re s = .raised { s with
        bus := s.bus ++ okTrace (.cmdData 0x15 [cs, ce]) s.cfg.retryDelayMs k ++
          lostTrace (.cmdData 0x75 [rs, re]) s.cfg.retryDelayMs s.cfg.retryMax
        wincol := some (cs, ce), xfail := true, answers := ans, drawn := dr } := by
  obtain ⟨a1, d1, h1, u1⟩ := xact_succeeds (.cmdData 0x15 [cs, ce]) h
  let s1 : State := { s with
    bus := s.bus ++ okTrace (.cmdData 0x15 [cs, ce]) s.cfg.retryDelayMs k
    wincol := some (cs, ce), answers := a1, drawn := d1 }
  have us1 : UsedAnswers s s1 (k + 1) := u1
  obtain ⟨a2, d2, h2, -⟩ := xact_lost (s := s1) (.cmdData 0x75 [rs, re])
    (isLost_used (m := k + 1) hf us1 rfl)
  exact ⟨a2, d2, by rw [setWindow, h1, andThen_done, h2, andThen_raised]⟩

/-- `SetWindow` whose column transaction is lost (40 R129). -/
theorem setWindow_col_lost (cs ce rs re : Byte) {s : State} (hf : IsLost s 0) :
    ∃ ans dr, setWindow cs ce rs re s = .raised { s with
        bus := s.bus ++ lostTrace (.cmdData 0x15 [cs, ce]) s.cfg.retryDelayMs s.cfg.retryMax
        xfail := true, answers := ans, drawn := dr } := by
  obtain ⟨a1, d1, h1, -⟩ := xact_lost (.cmdData 0x15 [cs, ce]) hf
  exact ⟨a1, d1, by rw [setWindow, h1, andThen_raised]⟩

/-- The part of `Refresh()` after its window, as one list (41 R165). -/
theorem refreshDisplay_tail (s : State) :
    ((xact (.cmd 0x5C) s).andThen fun s2 =>
      xactAll (rowTransactions s2.cfg.rowFraming s2.grid) s2) =
    xactAll (.cmd 0x5C :: rowTransactions s.cfg.rowFraming s.grid) s := by
  have hf := xact_within (fits_cmd 0x5C) s
  rw [xactAll]
  cases hx : xact (.cmd 0x5C) s with
  | raised u => rw [andThen_raised, andThen_raised]
  | done u =>
    rw [hx] at hf
    rw [andThen_done, andThen_done, hf.1.cfg, hf.1.grid]

theorem refreshTail_length (framing : RowFraming) (m : Memory) :
    (Transaction.cmd 0x5C :: rowTransactions framing m).length = 65 := by
  simp [rowTransactions]

/-- `Refresh()` when every transaction succeeds (41 R165). -/
theorem refreshDisplay_succeeds {s : State} {ks : List Nat} (hl : ks.length = 67)
    (h : AllSucceed s 0 ks) :
    ∃ ans dr, refreshDisplay s = .done { s with
        bus := s.bus ++ sentTrace (refreshList s.cfg s.grid) s.cfg.retryDelayMs ks
        wincol := some (s.cfg.winFull.colStart, s.cfg.winFull.colEnd)
        winrow := some (s.cfg.winFull.rowStart, s.cfg.winFull.rowEnd)
        answers := ans, drawn := dr } ∧
      UsedAnswers s { s with answers := ans, drawn := dr } (answersUsed ks) := by
  match ks, hl, h with
  | k :: m :: rest, hl, h =>
    have h2 := (allSucceed_append [k, m] rest).mp h
    obtain ⟨a1, d1, h1, u1⟩ := setWindow_succeeds s.cfg.winFull.colStart s.cfg.winFull.colEnd
      s.cfg.winFull.rowStart s.cfg.winFull.rowEnd h2.1
    generalize hs1 : ({ s with
      bus := _, wincol := _, winrow := _, answers := a1, drawn := d1 } : State) = s1 at h1
    have us1 : UsedAnswers s s1 (answersUsed [k, m]) := by rw [← hs1]; exact u1
    have hc : s1.cfg = s.cfg := by rw [← hs1]
    obtain ⟨a2, d2, h3, u2⟩ := xactAll_succeed (s := s1)
      (.cmd 0x5C :: rowTransactions s1.cfg.rowFraming s1.grid) rest
      (by rw [refreshTail_length]; simp at hl; omega)
      (allSucceed_used us1 hc rest (by
        rw [Nat.add_zero, ← Nat.zero_add (answersUsed [k, m])]; exact h2.2))
    refine ⟨a2, d2, ?_, ?_⟩
    · rw [refreshDisplay, h1, andThen_done, refreshDisplay_tail, h3, refreshList_eq, sentTrace_cons,
        sentTrace_cons, ← hs1]
      simp only [List.append_assoc]
    · rw [show k :: m :: rest = [k, m] ++ rest from rfl, answersUsed_append]
      have := usedAnswers_trans us1 u2
      exact fun j => this j

/-- `Refresh()` whose first transactions succeed and whose next one is lost (41 R165, 40 R123). -/
theorem refreshDisplay_lost {s : State} {ks : List Nat} {t : Transaction}
    (ht : (refreshList s.cfg s.grid)[ks.length]? = some t) (hok : AllSucceed s 0 ks)
    (hf : IsLost s (answersUsed ks)) :
    ∃ ans dr, refreshDisplay s = .raised { s with
        bus := s.bus ++ sentTrace (refreshList s.cfg s.grid) s.cfg.retryDelayMs ks ++
          lostTrace t s.cfg.retryDelayMs s.cfg.retryMax
        wincol := if ks.length = 0 then s.wincol
          else some (s.cfg.winFull.colStart, s.cfg.winFull.colEnd)
        winrow := if ks.length ≤ 1 then s.winrow
          else some (s.cfg.winFull.rowStart, s.cfg.winFull.rowEnd)
        xfail := true, answers := ans, drawn := dr } := by
  rw [refreshList_eq] at ht ⊢
  match ks, ht, hok, hf with
  | [], ht, hok, hf =>
    simp only [List.length_nil, List.getElem?_cons_zero, Option.some.injEq] at ht
    subst ht
    obtain ⟨a, d, h⟩ := setWindow_col_lost s.cfg.winFull.colStart s.cfg.winFull.colEnd
      s.cfg.winFull.rowStart s.cfg.winFull.rowEnd hf
    exact ⟨a, d, by rw [refreshDisplay, h, andThen_raised]; simp [sentTrace]⟩
  | [k], ht, hok, hf =>
    simp only [List.length_cons, List.length_nil, Nat.zero_add, List.getElem?_cons_succ,
      List.getElem?_cons_zero, Option.some.injEq] at ht
    subst ht
    obtain ⟨a, d, h⟩ := setWindow_row_lost s.cfg.winFull.colStart s.cfg.winFull.colEnd
      s.cfg.winFull.rowStart s.cfg.winFull.rowEnd hok.1 hf
    exact ⟨a, d, by rw [refreshDisplay, h, andThen_raised]; simp [sentTrace]⟩
  | k :: m :: rest, ht, hok, hf =>
    simp only [List.length_cons, List.getElem?_cons_succ] at ht
    have h2 := (allSucceed_append [k, m] rest).mp hok
    obtain ⟨a1, d1, h1, u1⟩ := setWindow_succeeds s.cfg.winFull.colStart s.cfg.winFull.colEnd
      s.cfg.winFull.rowStart s.cfg.winFull.rowEnd h2.1
    generalize hs1 : ({ s with
      bus := _, wincol := _, winrow := _, answers := a1, drawn := d1 } : State) = s1 at h1
    have us1 : UsedAnswers s s1 (answersUsed [k, m]) := by rw [← hs1]; exact u1
    have hc : s1.cfg = s.cfg := by rw [← hs1]
    have hg : s1.grid = s.grid := by rw [← hs1]
    obtain ⟨a2, d2, h3⟩ := xactAll_lost (s := s1) (t := t)
      (.cmd 0x5C :: rowTransactions s1.cfg.rowFraming s1.grid) rest
      (by rw [hc, hg]; exact ht)
      (allSucceed_used us1 hc rest (by
        rw [Nat.add_zero, ← Nat.zero_add (answersUsed [k, m])]; exact h2.2))
      (isLost_used (m := answersUsed [k, m]) (by rw [← answersUsed_append]; exact hf) us1 hc)
    refine ⟨a2, d2, ?_⟩
    rw [refreshDisplay, h1, andThen_done, refreshDisplay_tail, h3, sentTrace_cons, sentTrace_cons,
      ← hs1]
    simp

/-- `SetPower` whose transaction succeeds (40 R132). -/
theorem setPower_succeeds (on : Bool) {s : State} {k : Nat} (h : SucceedsAfter s 0 k) :
    ∃ ans dr, setPower on s = .done { s with
        bus := s.bus ++ okTrace (.cmd (if on then 0xAF else 0xAE)) s.cfg.retryDelayMs k
        pstate := if on then .poweredOn else .poweredOff
        answers := ans, drawn := dr } ∧
      UsedAnswers s { s with answers := ans, drawn := dr } (k + 1) := by
  obtain ⟨a1, d1, h1, u1⟩ := xact_succeeds (.cmd (if on then 0xAF else 0xAE)) h
  exact ⟨a1, d1, by rw [setPower, h1, andThen_done], u1⟩

/-- `SetPower` whose transaction is lost (40 R132). -/
theorem setPower_lost (on : Bool) {s : State} (h : IsLost s 0) :
    ∃ ans dr, setPower on s = .raised { s with
        bus := s.bus ++ lostTrace (.cmd (if on then 0xAF else 0xAE)) s.cfg.retryDelayMs s.cfg.retryMax
        xfail := true, answers := ans, drawn := dr } := by
  obtain ⟨a1, d1, h1, -⟩ := xact_lost (.cmd (if on then 0xAF else 0xAE)) h
  exact ⟨a1, d1, by rw [setPower, h1, andThen_raised]⟩

theorem initTransactions_length (p : InitPayload) : (initTransactions p).length = 19 := by
  simp [initTransactions, initOps]

/-- INIT's body when every transaction succeeds (40 R134). -/
theorem initSequence_succeeds {s : State} {ks : List Nat} (hl : ks.length = 21)
    (h : AllSucceed s 0 ks) :
    ∃ ans dr, initSequence s = .done { s with
        bus := s.bus ++ pulseTrace ++ sentTrace (initList s.cfg) s.cfg.retryDelayMs ks
        pstate := .poweredOn, wincol := none, winrow := none
        answers := ans, drawn := dr } ∧
      UsedAnswers s { s with answers := ans, drawn := dr } (answersUsed ks) := by
  generalize hs0 : ({ resetPulse s with pstate := .configuring } : State) = s0
  have us0 : UsedAnswers s s0 0 := fun k => by
    rw [← hs0, Nat.zero_add]; exact upcoming_congr rfl rfl k
  have hc0 : s0.cfg = s.cfg := by rw [← hs0]; rfl
  obtain ⟨k, mid, last, rfl, hmid⟩ : ∃ k mid last, ks = k :: (mid ++ [last]) ∧ mid.length = 19 := by
    match ks, hl with
    | k :: rest, hl =>
      have hr : rest ≠ [] := fun he => by rw [he] at hl; simp at hl
      exact ⟨k, rest.dropLast, rest.getLast hr, by rw [List.dropLast_append_getLast],
        by simp at hl ⊢; omega⟩
  have hm := (allSucceed_append mid [last]).mp h.2
  obtain ⟨a1, d1, h1, u1⟩ := xact_succeeds (.cmd 0xAE) (s := s0) (succeedsAfter_used (m := 0)
    (by rw [Nat.zero_add]; exact h.1) us0 hc0)
  generalize hs1 : ({ s0 with bus := _, answers := a1, drawn := d1 } : State) = s1 at h1
  have us1 : UsedAnswers s s1 (0 + (k + 1)) :=
    usedAnswers_trans us0 (u := s1) (by rw [← hs1]; exact u1)
  have hc1 : s1.cfg = s.cfg := by rw [← hs1, ← hc0]
  obtain ⟨a2, d2, h2, u2⟩ := xactAll_succeed (s := s1) (initTransactions s1.cfg.initPayload) mid
    (by rw [initTransactions_length, hmid])
    (allSucceed_used us1 hc1 mid (by rw [Nat.add_zero]; exact hm.1))
  generalize hs2 : ({ s1 with bus := _, answers := a2, drawn := d2 } : State) = s2 at h2
  generalize hs2' : ({ s2 with pstate := .poweredOff } : State) = s2'
  have us2 : UsedAnswers s s2' (0 + (k + 1) + answersUsed mid) :=
    usedAnswers_trans us1 (u := s2') (by rw [← hs2', ← hs2]; exact u2)
  have hc2 : s2'.cfg = s.cfg := by rw [← hs2', ← hs2]; exact hc1
  obtain ⟨a3, d3, h3, u3⟩ := xact_succeeds (.cmd 0xAF) (s := s2')
    (succeedsAfter_used (by rw [Nat.add_zero]; exact hm.2.1) us2 hc2)
  refine ⟨a3, d3, ?_, ?_⟩
  · rw [initSequence, hs0, h1, andThen_done, h2, andThen_done, hs2', h3, andThen_done]
    rw [initList_eq, sentTrace_cons, sentTrace_append _ _ _ _ _ (by rw [initTransactions_length, hmid]),
      ← hs2', ← hs2, ← hs1, ← hs0]
    simp [resetPulse, emit, pulseTrace, sentTrace, resetHoldMs]
  · have := usedAnswers_trans us2 u3
    rw [show answersUsed (k :: (mid ++ [last])) = 0 + (k + 1) + answersUsed mid + (last + 1) by
      simp [answersUsed]; omega]
    exact fun j => this j

/-- INIT's body whose first transactions succeed and whose next one is lost (40 R134). -/
theorem initSequence_lost {s : State} {ks : List Nat} {t : Transaction}
    (ht : (initList s.cfg)[ks.length]? = some t) (hok : AllSucceed s 0 ks)
    (hf : IsLost s (answersUsed ks)) :
    ∃ ans dr, initSequence s = .raised { s with
        bus := s.bus ++ pulseTrace ++ sentTrace (initList s.cfg) s.cfg.retryDelayMs ks ++
          lostTrace t s.cfg.retryDelayMs s.cfg.retryMax
        pstate := if ks.length = 20 then .poweredOff else .configuring
        wincol := none, winrow := none
        xfail := true, answers := ans, drawn := dr } := by
  generalize hs0 : ({ resetPulse s with pstate := .configuring } : State) = s0
  have us0 : UsedAnswers s s0 0 := fun k => by
    rw [← hs0, Nat.zero_add]; exact upcoming_congr rfl rfl k
  have hc0 : s0.cfg = s.cfg := by rw [← hs0]; rfl
  rw [initList_eq] at ht ⊢
  cases ks with
  | nil =>
    simp only [List.length_nil, List.getElem?_cons_zero, Option.some.injEq] at ht
    subst ht
    obtain ⟨a1, d1, h1, -⟩ := xact_lost (.cmd 0xAE) (s := s0) (isLost_used (m := 0) hf us0 hc0)
    refine ⟨a1, d1, ?_⟩
    rw [initSequence, hs0, h1, andThen_raised, ← hs0]
    simp [resetPulse, emit, pulseTrace, sentTrace, resetHoldMs]
  | cons k ks =>
    simp only [List.length_cons, List.getElem?_cons_succ] at ht
    obtain ⟨a1, d1, h1, u1⟩ := xact_succeeds (.cmd 0xAE) (s := s0) (succeedsAfter_used (m := 0)
      (by rw [Nat.zero_add]; exact hok.1) us0 hc0)
    generalize hs1 : ({ s0 with bus := _, answers := a1, drawn := d1 } : State) = s1 at h1
    have us1 : UsedAnswers s s1 (0 + (k + 1)) :=
      usedAnswers_trans us0 (u := s1) (by rw [← hs1]; exact u1)
    have hc1 : s1.cfg = s.cfg := by rw [← hs1, ← hc0]
    have hok2 : AllSucceed s1 0 ks :=
      allSucceed_used us1 hc1 ks (by rw [Nat.add_zero]; exact hok.2)
    have hused : answersUsed (k :: ks) = 0 + (k + 1) + answersUsed ks := by simp [answersUsed]
    by_cases hj : ks.length < 19
    · rw [List.getElem?_append_left (by rw [initTransactions_length]; exact hj)] at ht
      obtain ⟨a2, d2, h2⟩ := xactAll_lost (s := s1) (initTransactions s1.cfg.initPayload) ks
        (t := t) (by rw [hc1]; exact ht) hok2 (isLost_used (by rw [← hused]; exact hf) us1 hc1)
      refine ⟨a2, d2, ?_⟩
      have htr : sentTrace (initTransactions s.cfg.initPayload ++ [Transaction.cmd 0xAF])
          s.cfg.retryDelayMs ks =
          sentTrace (initTransactions s.cfg.initPayload) s.cfg.retryDelayMs ks :=
        sentTrace_extra _ _ _ _ (by rw [initTransactions_length]; omega)
      have hj20 : ¬ (k :: ks).length = 20 := by simp; omega
      rw [initSequence, hs0, h1, andThen_done, h2, andThen_raised, sentTrace_cons, htr, if_neg hj20,
        ← hs1, ← hs0]
      simp [resetPulse, emit, pulseTrace, resetHoldMs]
    · have hj19 : ks.length = 19 := by
        have := (List.getElem?_eq_some_iff.mp ht).1
        simp [initTransactions_length] at this
        omega
      have htt : t = .cmd 0xAF := by
        rw [hj19, List.getElem?_append_right (by rw [initTransactions_length])] at ht
        simpa [initTransactions_length] using ht.symm
      subst htt
      obtain ⟨a2, d2, h2, u2⟩ := xactAll_succeed (s := s1) (initTransactions s1.cfg.initPayload) ks
        (by rw [initTransactions_length, hj19]) hok2
      generalize hs2 : ({ s1 with bus := _, answers := a2, drawn := d2 } : State) = s2 at h2
      generalize hs2' : ({ s2 with pstate := .poweredOff } : State) = s2'
      have us2 : UsedAnswers s s2' (0 + (k + 1) + answersUsed ks) :=
        usedAnswers_trans us1 (u := s2') (by rw [← hs2', ← hs2]; exact u2)
      have hc2 : s2'.cfg = s.cfg := by rw [← hs2', ← hs2]; exact hc1
      obtain ⟨a3, d3, h3, -⟩ := xact_lost (.cmd 0xAF) (s := s2')
        (isLost_used (by rw [Nat.add_zero, ← hused]; exact hf) us2 hc2)
      refine ⟨a3, d3, ?_⟩
      have hj20 : (k :: ks).length = 20 := by simp [hj19]
      have htr := sentTrace_append (initTransactions s.cfg.initPayload) [Transaction.cmd 0xAF]
        s.cfg.retryDelayMs ks [] (by rw [initTransactions_length, hj19])
      rw [List.append_nil] at htr
      rw [initSequence, hs0, h1, andThen_done, h2, andThen_done, hs2', h3, andThen_raised,
        sentTrace_cons, htr, if_pos hj20, ← hs2', ← hs2, ← hs1, ← hs0]
      simp [resetPulse, emit, pulseTrace, sentTrace, resetHoldMs]

/-! Frames -/

theorem rowBytes_ne_nil (m : Memory) (y : Nat) : rowBytes m y ≠ [] := by
  intro h
  have := congrArg List.length h
  simp [rowBytes] at this

theorem fits_rowTransactions (framing : RowFraming) (m : Memory) :
    ∀ t ∈ rowTransactions framing m, FitsPayload t := by
  intro t ht
  simp only [rowTransactions, List.mem_map] at ht
  obtain ⟨y, -, rfl⟩ := ht
  cases framing
  · exact fits_cmdData (rowBytes_ne_nil m y)
  · exact fits_data (rowBytes_ne_nil m y)

theorem fits_initTransactions (p : InitPayload) : ∀ t ∈ initTransactions p, FitsPayload t := by
  intro t ht
  simp only [initTransactions, List.mem_iff_getElem?, List.getElem?_zipWith] at ht
  obtain ⟨k, hk⟩ := ht
  split at hk
  · cases hk; exact fits_transactionOf _ _
  · cases hk

/-- Everything `Refresh()` can do. -/
theorem refreshDisplay_within (s : State) : (refreshDisplay s).Within s := by
  refine (setWindow_within _ _ _ _ s).andThen fun t _ => ?_
  rw [refreshDisplay_tail]
  refine xactAll_within _ (fun u hu => ?_) t
  rcases List.mem_cons.mp hu with rfl | hu
  · exact fits_cmd _
  · exact fits_rowTransactions _ _ u hu

/-- The state a procedure stops in. -/
def Run.state (r : Run) : State :=
  match r with
  | .done s => s
  | .raised s => s

/-- `PSTATE` is as it was where the procedure stops. -/
def Run.KeepsPState (s : State) (r : Run) : Prop := r.state.pstate = s.pstate

theorem Run.KeepsPState.andThen {s : State} {r : Run} {f : State → Run} (h : r.KeepsPState s)
    (hf : ∀ t, r = .done t → (f t).KeepsPState t) : (r.andThen f).KeepsPState s := by
  cases r with
  | raised t => exact h
  | done t => exact (hf t rfl).trans h

theorem xact_keepsPState {t : Transaction} (ht : FitsPayload t) (s : State) :
    (xact t s).KeepsPState s := by
  cases h : xact t s with
  | done u => exact (xact_keeps ht (.inl h)).1
  | raised u => exact (xact_keeps ht (.inr h)).1

theorem xactAll_keepsPState (ts : List Transaction) (hts : ∀ t ∈ ts, FitsPayload t) (s : State) :
    (xactAll ts s).KeepsPState s := by
  cases h : xactAll ts s with
  | done u => exact (xactAll_keeps ts hts (.inl h)).1
  | raised u => exact (xactAll_keeps ts hts (.inr h)).1

theorem setWindow_keepsPState (cs ce rs re : Byte) (s : State) :
    (setWindow cs ce rs re s).KeepsPState s := by
  refine (xact_keepsPState (fits_cmdData (by simp)) s).andThen fun t _ => ?_
  exact Run.KeepsPState.andThen (s := { t with wincol := some (cs, ce) })
    (xact_keepsPState (fits_cmdData (by simp)) _) fun u _ => rfl

theorem refreshDisplay_keepsPState (s : State) : (refreshDisplay s).KeepsPState s := by
  refine (setWindow_keepsPState _ _ _ _ s).andThen fun t _ => ?_
  rw [refreshDisplay_tail]
  refine xactAll_keepsPState _ (fun u hu => ?_) t
  rcases List.mem_cons.mp hu with rfl | hu
  · exact fits_cmd _
  · exact fits_rowTransactions _ _ u hu

/-- `SetPower` leaves `PSTATE` at the new value or, when its transaction is lost, as it was. -/
theorem setPower_pstate (on : Bool) (s : State) :
    (∃ t, setPower on s = .done t ∧ t.pstate = if on then .poweredOn else .poweredOff) ∨
    (∃ t, setPower on s = .raised t ∧ t.pstate = s.pstate) := by
  cases h : xact (.cmd (if on then 0xAF else 0xAE)) s with
  | done u => exact .inl ⟨_, by rw [setPower, h, andThen_done], rfl⟩
  | raised u => exact .inr ⟨u, by rw [setPower, h, andThen_raised], (xact_keeps (fits_cmd _) (.inr h)).1⟩

theorem reached_resetPulse (s : State) : Reached s { resetPulse s with pstate := .configuring } := by
  refine ⟨rfl, ?_, fun h e he => ?_⟩
  · rw [show ({ resetPulse s with pstate := .configuring } : State).bus = (resetPulse s).bus from rfl,
      resetPulse_bus]
    exact List.prefix_append _ _
  · rw [show ({ resetPulse s with pstate := .configuring } : State).bus = (resetPulse s).bus from rfl,
      resetPulse_bus] at he
    rcases List.mem_append.mp he with he | he
    · exact h e he
    · simp only [List.mem_cons, List.not_mem_nil, or_false] at he
      rcases he with rfl | rfl | rfl | rfl <;> trivial

/-- Everything INIT's body can do. -/
theorem initSequence_within (s : State) : (initSequence s).Within s := by
  refine Run.Within.after (reached_resetPulse s) rfl ?_
  refine (xact_within (fits_cmd _) _).andThen fun t _ => ?_
  refine (xactAll_within _ (fits_initTransactions _) t).andThen fun u _ => ?_
  refine Run.Within.after (t := { u with pstate := .poweredOff })
    ⟨rfl, List.prefix_refl _, fun h => h⟩ rfl ?_
  exact (xact_within (fits_cmd _) _).andThen fun _ _ =>
    ⟨⟨rfl, List.prefix_refl _, fun h => h⟩, rfl⟩

/-- Where INIT's body leaves `PSTATE` (40 R134). -/
theorem initSequence_pstate (s : State) :
    (∃ t, initSequence s = .done t ∧ t.pstate = .poweredOn) ∨
    (∃ t, initSequence s = .raised t ∧ (t.pstate = .configuring ∨ t.pstate = .poweredOff)) := by
  cases h1 : xact (.cmd 0xAE) { resetPulse s with pstate := .configuring } with
  | raised u =>
    exact .inr ⟨u, by rw [initSequence, h1, andThen_raised], .inl (xact_keeps (fits_cmd _) (.inr h1)).1⟩
  | done t =>
    have ht := (xact_keeps (fits_cmd _) (.inl h1)).1
    cases h2 : xactAll (initTransactions t.cfg.initPayload) t with
    | raised u =>
      exact .inr ⟨u, by rw [initSequence, h1, andThen_done, h2, andThen_raised],
        .inl ((xactAll_keeps _ (fits_initTransactions _) (.inr h2)).1.trans ht)⟩
    | done u =>
      cases h3 : xact (.cmd 0xAF) { u with pstate := .poweredOff } with
      | raised v =>
        exact .inr ⟨v, by rw [initSequence, h1, andThen_done, h2, andThen_done, h3, andThen_raised],
          .inr (xact_keeps (fits_cmd _) (.inr h3)).1⟩
      | done v =>
        exact .inl ⟨_, by rw [initSequence, h1, andThen_done, h2, andThen_done, h3, andThen_done], rfl⟩

end Sys2Proof.Machine
end

