-- ==== Sys2Proof/Laws/Scroll.lean ====
section
/-!
SUPPORT. What SCRINIT and SCRTICK can do (44 R232 to R239), said once, and that they keep a slot good.
-/

namespace Sys2Proof.Machine

theorem scrtick_outside {s : State} {slot : Byte} (h : s.cfg.nScroll ≤ slot.toNat) :
    exec (.scrtick slot) s = .next (refuse .illegalOperand s) := by
  simp only [exec, execScrtick, if_pos h]

theorem scrtick_unset {s : State} {slot : Byte} {l : Slot} (hk : slot.toNat < s.cfg.nScroll)
    (hs : s.scr[slot.toNat]? = some l) (hv : l.valid = false) :
    exec (.scrtick slot) s = .next (refuse .illegalState s) := by
  simp only [exec, execScrtick]
  rw [if_neg (by omega)]
  simp only [hs, hv]; rfl

theorem scrtick_valid {s : State} {slot : Byte} {l : Slot} (hk : slot.toNat < s.cfg.nScroll)
    (hs : s.scr[slot.toNat]? = some l) (hv : l.valid = true) :
    exec (.scrtick slot) s = .next (complete { s with
      grid := drawStringAtOffset s.cfg.font l.text l.y (tickOffset l) s.grid
      scr := s.scr.set slot.toNat (advanceSlot s.cfg.coordBits l) }) := by
  simp only [exec, execScrtick]
  rw [if_neg (by omega)]
  simp only [hs, hv, if_true]

theorem isStatic_true {l : Slot} (h : l.pw ≤ 128) : isStatic l = true := decide_eq_true h

theorem isStatic_false {l : Slot} (h : 128 < l.pw) : isStatic l = false :=
  decide_eq_false (Int.not_le.mpr h)

theorem advanceSlot_static (bits : Nat) {l : Slot} (h : isStatic l = true) :
    advanceSlot bits l = l := by
  unfold advanceSlot; rw [h]; rfl

theorem advanceSlot_wide (bits : Nat) {l : Slot} (h : isStatic l = false) :
    advanceSlot bits l =
      { l with
        offset := wrapTo bits (l.offset + dirStep l.dir)
        dir := if wrapTo bits (l.offset + dirStep l.dir) ≤ 0 then .plus
          else if l.pw ≤ wrapTo bits (l.offset + dirStep l.dir) + 128 then .minus
          else l.dir } := by
  unfold advanceSlot; rw [h]; rfl

theorem initSlot_good {bits : Nat} (hb : 16 ≤ bits) (y : S16) (text : List Byte) :
    (initSlot y text).Good bits := by
  have hlen : (text.take scrollCap).length ≤ 63 := by
    rw [List.length_take]; exact Nat.min_le_left _ _
  have hw : (initSlot y text).pw = 7 * ((text.take scrollCap).length : Int) - 1 := rfl
  have hy := sext16_range y
  refine { ranges := ⟨inCoord_of_packet hb (by omega) (by omega), inCoord_zero _,
             inCoord_of_packet hb hy.1 hy.2⟩,
           unset := fun h => absurd (show true = false from h) (by decide),
           width := fun _ => ⟨hw, hlen⟩, sweep := fun _ h128 => ?_ }
  have h0 : (initSlot y text).offset = 0 := rfl
  rw [h0]
  exact ⟨by omega, by omega, fun _ => rfl, fun h => by omega⟩

/-- A tick keeps a slot good (44 R238, R239). -/
theorem advanceSlot_good {bits : Nat} {l : Slot} (h : l.Good bits) (hv : l.valid = true) :
    (advanceSlot bits l).Good bits := by
  by_cases hw : 128 < l.pw
  · obtain ⟨h0, hT, hplus, hminus⟩ := h.sweep hv hw
    have hstep : 0 ≤ l.offset + dirStep l.dir ∧ l.offset + dirStep l.dir ≤ l.pw - 128 := by
      cases hd : l.dir with
      | plus =>
        have : l.offset ≠ l.pw - 128 := fun he => by
          have := hminus he; rw [hd] at this; cases this
        simp only [dirStep]; omega
      | minus =>
        have : l.offset ≠ 0 := fun he => by
          have := hplus he; rw [hd] at this; cases this
        simp only [dirStep]; omega
    have hp := h.ranges.1
    have hin : InCoord bits (l.offset + dirStep l.dir) := by
      have := inCoord_zero bits
      constructor <;> omega
    have hval := wrapTo_of_range (one_le_bits hp (by omega)) hin
    rw [advanceSlot_wide bits (isStatic_false hw), hval]
    refine { ranges := ⟨hp, hin, h.ranges.2.2⟩,
             unset := fun he => absurd (hv.symm.trans he) (by decide), width := fun _ => h.width hv,
             sweep := fun _ _ => ⟨hstep.1, hstep.2, fun he => if_pos (le_of_eq he), fun he => ?_⟩ }
    dsimp only at he ⊢
    rw [if_neg (by omega), if_pos (by omega)]
  · rw [advanceSlot_static bits (isStatic_true (by omega))]; exact h

theorem set_getElem?_self {l : List Slot} {k : Nat} {v : Slot} (h : l[k]? = some v) :
    l.set k v = l := by
  obtain ⟨hk, rfl⟩ := List.getElem?_eq_some_iff.mp h
  exact List.set_getElem_self hk

end Sys2Proof.Machine
end

