-- ==== Sys2Proof/Laws/Machine.lean ====
section
/-!
SUPPORT. What one instruction can do, said once over all of them: it is refused, or it draws, or it
runs a procedure of the sequencer.
-/

namespace Sys2Proof.Machine

/-- What a drawing command may leave of the three fields it can write: each as good as it was. -/
structure KeepsGood (s : State) (g : Memory) (tc : TextContext) (scr : List Slot) : Prop where
  grid : Memory.wf s.grid = true → Memory.wf g = true
  size : 1 ≤ s.tc.size.toNat ∧ s.tc.size.toNat ≤ 4 → 1 ≤ tc.size.toNat ∧ tc.size.toNat ≤ 4
  count : scr.length = s.scr.length
  cursor : 16 ≤ s.cfg.coordBits → s.tc.InRange s.cfg.coordBits → tc.InRange s.cfg.coordBits
  slots : 16 ≤ s.cfg.coordBits →
    (∀ l ∈ s.scr, l.Good s.cfg.coordBits) → ∀ l ∈ scr, l.Good s.cfg.coordBits

/-- Every way an instruction can end (60 R261). -/
inductive Ending (i : Instr) (s : State) : State → Prop where
  | refused (st : Status) (hst : isRefusal st = true)
      (hslot : isDrawing i = true → st = .illegalState → ∃ slot, i = .scrtick slot) :
      Ending i s (refuse st s)
  | drawn (hi : isDrawing i = true) (g : Memory) (tc : TextContext) (scr : List Slot)
      (h : KeepsGood s g tc scr) : Ending i s (complete { s with grid := g, tc := tc, scr := scr })
  | sent (hi : isDrawing i = false) (g : Memory) (hg : Memory.wf s.grid = true → Memory.wf g = true)
      (r : Run) (hr : r.Within { s with grid := g }) (hp : r.KeepsPState { s with grid := g }) :
      Ending i s r.finish
  | power (b : Byte) (hi : i = .setpower b) (hs : isPowered s = true) :
      Ending i s (setPower (flagOf b) s).finish
  | init (hi : i = .init) (hs : s.pstate = .uninitialized) : Ending i s (initSequence s).finish
  | hwreset (hi : i = .hwreset) :
      Ending i s (complete { resetPulse s with pstate := .uninitialized })

theorem Ending.raw {i : Instr} {s : State} (hi : isDrawing i = false) (op : Byte) (p : List Byte) :
    Ending i s (sendRaw op p s) :=
  .sent hi s.grid (fun h => h) _ (xact_within (fits_transactionOf op p) s)
    (xact_keepsPState (fits_transactionOf op p) s)

theorem Ending.refresh {i : Instr} {s : State} (hi : isDrawing i = false) (g : Memory)
    (hg : Memory.wf s.grid = true → Memory.wf g = true) :
    Ending i s (refreshDisplay { s with grid := g }).finish :=
  .sent hi g hg _ (refreshDisplay_within _) (refreshDisplay_keepsPState _)

theorem Ending.refused_other {i : Instr} {s : State} (st : Status) (hst : isRefusal st = true)
    (hi : isDrawing i = false ∨ st ≠ .illegalState) : Ending i s (refuse st s) :=
  .refused st hst fun hd hs => by rcases hi with hi | hi <;> simp_all

/-- Only the grid changed. -/
theorem Ending.grid {i : Instr} {s : State} (hi : isDrawing i = true) (g : Memory)
    (hg : Memory.wf s.grid = true → Memory.wf g = true) :
    Ending i s (complete { s with grid := g }) :=
  .drawn hi g s.tc s.scr ⟨hg, fun h => h, rfl, fun _ h => h, fun _ h => h⟩

/-- Only the text context changed. -/
theorem Ending.text {i : Instr} {s : State} (hi : isDrawing i = true) (tc : TextContext)
    (h : 1 ≤ s.tc.size.toNat ∧ s.tc.size.toNat ≤ 4 → 1 ≤ tc.size.toNat ∧ tc.size.toNat ≤ 4)
    (hc : 16 ≤ s.cfg.coordBits → s.tc.InRange s.cfg.coordBits → tc.InRange s.cfg.coordBits) :
    Ending i s (complete { s with tc := tc }) :=
  .drawn hi s.grid tc s.scr ⟨fun h => h, h, rfl, hc, fun _ h => h⟩

/-- Text printed: the grid and the cursor changed. -/
theorem Ending.print {i : Instr} {s : State} (hi : isDrawing i = true) (str : List Byte) :
    Ending i s (complete (printString str s)) := by
  obtain ⟨g, cx, cy, h, hw, hc⟩ := printString_shape str s
  rw [h]
  exact .drawn hi g { s.tc with cx := cx, cy := cy } s.scr ⟨hw, fun h => h, rfl, fun _ => hc, fun _ h => h⟩

theorem good_set {bits : Nat} {scr : List Slot} {k : Nat} {l : Slot}
    (hl : (∀ l ∈ scr, l.Good bits) → l.Good bits) :
    (∀ l ∈ scr, l.Good bits) → ∀ m ∈ scr.set k l, m.Good bits := fun h m hm => by
  rcases List.mem_or_eq_of_mem_set hm with hm | rfl
  · exact h m hm
  · exact hl h

theorem scrtick_ending (slot : Byte) (s : State) :
    ∃ t, exec (.scrtick slot) s = .next t ∧ Ending (.scrtick slot) s t := by
  by_cases hk : s.cfg.nScroll ≤ slot.toNat
  · exact ⟨_, scrtick_outside hk, .refused_other _ rfl (.inr (by decide))⟩
  · cases hs : s.scr[slot.toNat]? with
    | none =>
      refine ⟨refuse .illegalState s, ?_, .refused _ rfl fun _ _ => ⟨slot, rfl⟩⟩
      simp only [exec, execScrtick]
      rw [if_neg hk]
      simp only [hs]
    | some l =>
      by_cases hv : l.valid = true
      · refine ⟨_, scrtick_valid (by omega) hs hv, .drawn rfl _ s.tc _
          ⟨wf_drawStringAtOffset _ _ _ _, fun h => h, by simp, fun _ h => h, fun _ => good_set fun h =>
            advanceSlot_good (h l (List.mem_of_getElem? hs)) hv⟩⟩
      · exact ⟨_, scrtick_unset (by omega) hs (by simpa using hv),
          .refused _ rfl fun _ _ => ⟨slot, rfl⟩⟩

/-- Every instruction answers a next state, by one of these endings. -/
theorem exec_ending (i : Instr) (s : State) : ∃ t, exec i s = .next t ∧ Ending i s t := by
  cases i
  case setpixel x y b => exact ⟨_, rfl, .grid rfl _ (wf_plot _ _ _)⟩
  case clear => exact ⟨_, rfl, .grid rfl _ fun _ => rfl⟩
  case drawchar x y c => exact ⟨_, rfl, .grid rfl _ (wf_drawChar _ _ _ _)⟩
  case drawchars x y c size color =>
    refine ⟨_, rfl, ?_⟩
    split
    · exact .refused_other _ rfl (.inr (by decide))
    · exact .grid rfl _ (wf_drawCharScaled _ _ _ _ _ _)
  case drawstrc str =>
    refine ⟨_, rfl, ?_⟩
    split
    · exact .refresh rfl _ fun _ => wf_centredGrid _ _
    · exact .refused_other _ rfl (.inl rfl)
  case drawstroff y o str => exact ⟨_, rfl, .grid rfl _ (wf_drawStringAtOffset _ _ _ _)⟩
  case txtinit => exact ⟨_, rfl, .text rfl _ (fun _ => by decide) fun _ _ => ⟨inCoord_zero _, inCoord_zero _⟩⟩
  case setcursor x y =>
    have hx := sext16_range x
    have hy := sext16_range y
    exact ⟨_, rfl, .text rfl _ (fun h => h) fun hb _ =>
      ⟨inCoord_of_packet hb hx.1 hx.2, inCoord_of_packet hb hy.1 hy.2⟩⟩
  case setsize b =>
    refine ⟨_, rfl, ?_⟩
    split
    · exact .refused_other _ rfl (.inr (by decide))
    · refine .text rfl _ (fun _ => ?_) fun _ h => h
      simp only [BitVec.toNat_ofNat]; omega
  case setcolor b => exact ⟨_, rfl, .text rfl _ (fun h => h) fun _ h => h⟩
  case setwrap b => exact ⟨_, rfl, .text rfl _ (fun h => h) fun _ h => h⟩
  case printchar c => exact ⟨_, rfl, .print rfl [c]⟩
  case printstr str => exact ⟨_, rfl, .print rfl str⟩
  case drawstr x y str => exact ⟨_, rfl, .grid rfl _ (wf_drawStr _ _ _ _ _ _)⟩
  case scrinit slot y text =>
    refine ⟨_, rfl, ?_⟩
    split
    · exact .refused_other _ rfl (.inr (by decide))
    · exact .drawn rfl s.grid s.tc _
        ⟨fun h => h, fun h => h, by simp, fun _ h => h, fun hb => good_set fun _ => initSlot_good hb y text⟩
  case scrtick slot => exact scrtick_ending slot s
  case blit4 x y w h data =>
    refine ⟨_, rfl, ?_⟩
    split
    · exact .grid rfl _ (wf_plotAll _)
    · exact .refused_other _ rfl (.inr (by decide))
  case blit2 x y w h data =>
    refine ⟨_, rfl, ?_⟩
    split
    · exact .grid rfl _ (wf_plotAll _)
    · exact .refused_other _ rfl (.inr (by decide))
  case refresh =>
    refine ⟨_, rfl, ?_⟩
    split
    · exact .refresh rfl s.grid fun h => h
    · exact .refused_other _ rfl (.inl rfl)
  case clrrefresh =>
    refine ⟨_, rfl, ?_⟩
    split
    · exact .refresh rfl _ fun _ => rfl
    · exact .refused_other _ rfl (.inl rfl)
  case sendcmdd cop payload =>
    refine ⟨_, rfl, ?_⟩
    split
    · exact .refused_other _ rfl (.inl rfl)
    · exact .raw rfl _ _
  case hwreset => exact ⟨_, rfl, .hwreset rfl⟩
  case setwin cs ce rs re =>
    exact ⟨_, rfl, .sent rfl s.grid (fun h => h) _ (setWindow_within _ _ _ _ s)
      (setWindow_keepsPState _ _ _ _ s)⟩
  case setpower b =>
    refine ⟨_, rfl, ?_⟩
    split
    · rename_i h; exact .power b rfl h
    · exact .refused_other _ rfl (.inl rfl)
  case init =>
    refine ⟨_, rfl, ?_⟩
    split
    · rename_i h; exact .init rfl h
    · exact .refused_other _ rfl (.inl rfl)
  all_goals exact ⟨_, rfl, .raw rfl _ _⟩

/-- A packet that decodes and is no longer than `PKT_MAX` is the command at the port (30 R81, R82). -/
theorem readPacket_of_decodes {cfg : Config} {pkt : List Byte} {i : Instr}
    (hl : pkt.length ≤ cfg.pktMax) (hd : decodePacket pkt = .ok i) : readPacket cfg pkt = .ok i := by
  have h1 : 1 ≤ pkt.length := by
    cases pkt with
    | nil => simp [decodePacket] at hd
    | cons _ _ => simp
  simp only [readPacket, presentable, h1, hl, and_self, decide_true, if_true, hd]

/-- Everything a step can do: wait, be reset, run the decoded instruction, reject the packet, or stop
on one that cannot be presented (30 R80, R81, R96, R97, 70 R290). -/
theorem step_cases (s : State) :
    (s.port = [] ∧ step s = .next s) ∨
    (∃ later, s.port = .blockReset :: later ∧
      step s = .next (resetBlock { s with port := later })) ∨
    (∃ pkt later, s.port = .packet pkt :: later ∧
      ((∃ i t, readPacket s.cfg pkt = .ok i ∧ step s = exec i { s with port := later } ∧
          step s = .next t ∧ Ending i { s with port := later } t) ∨
        (∃ st, isRefusal st = true ∧ step s = .next (refuse st { s with port := later })) ∨
        step s = .fault .packetNotPresentable)) := by
  cases hp : s.port with
  | nil => exact .inl ⟨rfl, by simp only [step, fetch, hp]⟩
  | cons a later =>
    cases a with
    | blockReset => exact .inr (.inl ⟨later, rfl, by simp only [step, fetch, hp]⟩)
    | packet pkt =>
      refine .inr (.inr ⟨pkt, later, rfl, ?_⟩)
      simp only [step, fetch, hp]
      cases hd : readPacket s.cfg pkt with
      | ok i => 
        obtain ⟨t, h1, h2⟩ := exec_ending i { s with port := later }
        exact .inl ⟨i, t, rfl, rfl, h1, h2⟩
      | error e => 
        cases e
        · exact .inr (.inr rfl)
        · exact .inr (.inl ⟨_, rfl, rfl⟩)
        · exact .inr (.inl ⟨_, rfl, rfl⟩)

end Sys2Proof.Machine
end

