-- ==== Sys2Proof/Laws/PerInstr.lean ====
section
/-!
SUPPORT. Per instruction: the bytes of a well-formed host command fit the port (30 R81).
-/

namespace Sys2Proof.Laws

/-- The packet of a well-formed host command is between 1 and `PKT_MAX` bytes long (30 R81), where
`PKT_MAX` holds the longest packet of fixed length, the 8 bytes of F_XYBBB (30 R86). -/
def EncodedLength.Statement (i : Instr) : Prop :=
  ∀ cfg : Config, i.side = .host → 8 ≤ cfg.pktMax → i.wellFormed cfg = true →
    1 ≤ (encode i).length ∧ (encode i).length ≤ cfg.pktMax

theorem EncodedLength.setpixel (a0 a1 : S16) (a2 : Byte) : EncodedLength.Statement (.setpixel a0 a1 a2) := by
  intro _ _ hm _; simp only [encode, List.length_cons, List.length_nil]; omega

theorem EncodedLength.clear : EncodedLength.Statement .clear := by
  intro _ _ hm _; simp only [encode, List.length_cons, List.length_nil]; omega

theorem EncodedLength.drawchar (a0 a1 : S16) (a2 : Byte) : EncodedLength.Statement (.drawchar a0 a1 a2) := by
  intro _ _ hm _; simp only [encode, List.length_cons, List.length_nil]; omega

theorem EncodedLength.drawchars (a0 a1 : S16) (a2 a3 a4 : Byte) : EncodedLength.Statement (.drawchars a0 a1 a2 a3 a4) := by
  intro _ _ hm _; simp only [encode, List.length_cons, List.length_nil]; omega

theorem EncodedLength.drawstrc (a0 : List Byte) : EncodedLength.Statement (.drawstrc a0) := by
  intro _ _ hm hw
  simp only [Instr.wellFormed, decide_eq_true_eq] at hw
  simp only [encode, List.length_cons]
  omega

theorem EncodedLength.drawstroff (a0 a1 : S16) (a2 : List Byte) : EncodedLength.Statement (.drawstroff a0 a1 a2) := by
  intro _ _ hm hw
  simp only [Instr.wellFormed, decide_eq_true_eq] at hw
  simp only [encode, List.length_cons]
  omega

theorem EncodedLength.txtinit : EncodedLength.Statement .txtinit := by
  intro _ _ hm _; simp only [encode, List.length_cons, List.length_nil]; omega

theorem EncodedLength.setcursor (a0 a1 : S16) : EncodedLength.Statement (.setcursor a0 a1) := by
  intro _ _ hm _; simp only [encode, List.length_cons, List.length_nil]; omega

theorem EncodedLength.setsize (a0 : Byte) : EncodedLength.Statement (.setsize a0) := by
  intro _ _ hm _; simp only [encode, List.length_cons, List.length_nil]; omega

theorem EncodedLength.setcolor (a0 : Byte) : EncodedLength.Statement (.setcolor a0) := by
  intro _ _ hm _; simp only [encode, List.length_cons, List.length_nil]; omega

theorem EncodedLength.setwrap (a0 : Byte) : EncodedLength.Statement (.setwrap a0) := by
  intro _ _ hm _; simp only [encode, List.length_cons, List.length_nil]; omega

theorem EncodedLength.printchar (a0 : Byte) : EncodedLength.Statement (.printchar a0) := by
  intro _ _ hm _; simp only [encode, List.length_cons, List.length_nil]; omega

theorem EncodedLength.printstr (a0 : List Byte) : EncodedLength.Statement (.printstr a0) := by
  intro _ _ hm hw
  simp only [Instr.wellFormed, decide_eq_true_eq] at hw
  simp only [encode, List.length_cons]
  omega

theorem EncodedLength.drawstr (a0 a1 : S16) (a2 : List Byte) : EncodedLength.Statement (.drawstr a0 a1 a2) := by
  intro _ _ hm hw
  simp only [Instr.wellFormed, decide_eq_true_eq] at hw
  simp only [encode, List.length_cons]
  omega

theorem EncodedLength.scrinit (a0 : Byte) (a1 : S16) (a2 : List Byte) : EncodedLength.Statement (.scrinit a0 a1 a2) := by
  intro _ _ hm hw
  simp only [Instr.wellFormed, decide_eq_true_eq] at hw
  simp only [encode, List.length_cons]
  omega

theorem EncodedLength.scrtick (a0 : Byte) : EncodedLength.Statement (.scrtick a0) := by
  intro _ _ hm _; simp only [encode, List.length_cons, List.length_nil]; omega

theorem EncodedLength.blit4 (x y : S16) (w h : Byte) (data : List Byte) : EncodedLength.Statement (.blit4 x y w h data) := by
  intro _ _ hm hw
  simp only [Instr.wellFormed, decide_eq_true_eq] at hw
  simp only [encode, List.length_cons]
  omega

theorem EncodedLength.blit2 (x y : S16) (w h : Byte) (data : List Byte) : EncodedLength.Statement (.blit2 x y w h data) := by
  intro _ _ hm hw
  simp only [Instr.wellFormed, decide_eq_true_eq] at hw
  simp only [encode, List.length_cons]
  omega

theorem EncodedLength.refresh : EncodedLength.Statement .refresh := by
  intro _ _ hm _; simp only [encode, List.length_cons, List.length_nil]; omega

theorem EncodedLength.clrrefresh : EncodedLength.Statement .clrrefresh := by
  intro _ _ hm _; simp only [encode, List.length_cons, List.length_nil]; omega

theorem EncodedLength.sendcmd (a0 : Byte) : EncodedLength.Statement (.sendcmd a0) := by
  intro _ _ hm _; simp only [encode, List.length_cons, List.length_nil]; omega

theorem EncodedLength.sendcmdd (cop : Byte) (payload : List Byte) : EncodedLength.Statement (.sendcmdd cop payload) := by
  intro _ _ hm hw
  simp only [Instr.wellFormed, decide_eq_true_eq] at hw
  simp only [encode, List.length_cons]
  omega

theorem EncodedLength.hwreset : EncodedLength.Statement .hwreset := by
  intro _ _ hm _; simp only [encode, List.length_cons, List.length_nil]; omega

theorem EncodedLength.setwin (a0 a1 a2 a3 : Byte) : EncodedLength.Statement (.setwin a0 a1 a2 a3) := by
  intro _ _ hm _; simp only [encode, List.length_cons, List.length_nil]; omega

theorem EncodedLength.setpower (a0 : Byte) : EncodedLength.Statement (.setpower a0) := by
  intro _ _ hm _; simp only [encode, List.length_cons, List.length_nil]; omega

theorem EncodedLength.init : EncodedLength.Statement .init := by
  intro _ _ hm _; simp only [encode, List.length_cons, List.length_nil]; omega

theorem EncodedLength.cSetcol (a0 a1 : Byte) : EncodedLength.Statement (.cSetcol a0 a1) := by
  intro _ hs; cases hs

theorem EncodedLength.cSetrow (a0 a1 : Byte) : EncodedLength.Statement (.cSetrow a0 a1) := by
  intro _ hs; cases hs

theorem EncodedLength.cWriteram (a0 : List Byte) : EncodedLength.Statement (.cWriteram a0) := by
  intro _ hs; cases hs

theorem EncodedLength.cDispoff : EncodedLength.Statement .cDispoff := by
  intro _ hs; cases hs

theorem EncodedLength.cDispon : EncodedLength.Statement .cDispon := by
  intro _ hs; cases hs

theorem EncodedLength.cEntireNormal : EncodedLength.Statement .cEntireNormal := by
  intro _ hs; cases hs

theorem EncodedLength.cEntireOn : EncodedLength.Statement .cEntireOn := by
  intro _ hs; cases hs

theorem EncodedLength.cLock (a0 : List Byte) : EncodedLength.Statement (.cLock a0) := by
  intro _ hs; cases hs

theorem EncodedLength.cClkdiv (a0 : List Byte) : EncodedLength.Statement (.cClkdiv a0) := by
  intro _ hs; cases hs

theorem EncodedLength.cMux (a0 : List Byte) : EncodedLength.Statement (.cMux a0) := by
  intro _ hs; cases hs

theorem EncodedLength.cOffset (a0 : List Byte) : EncodedLength.Statement (.cOffset a0) := by
  intro _ hs; cases hs

theorem EncodedLength.cFuncsel (a0 : List Byte) : EncodedLength.Statement (.cFuncsel a0) := by
  intro _ hs; cases hs

theorem EncodedLength.cStartline (a0 : List Byte) : EncodedLength.Statement (.cStartline a0) := by
  intro _ hs; cases hs

theorem EncodedLength.cRemap (a0 : List Byte) : EncodedLength.Statement (.cRemap a0) := by
  intro _ hs; cases hs

theorem EncodedLength.cMastercontrast (a0 : List Byte) : EncodedLength.Statement (.cMastercontrast a0) := by
  intro _ hs; cases hs

theorem EncodedLength.cContrast (a0 : List Byte) : EncodedLength.Statement (.cContrast a0) := by
  intro _ hs; cases hs

theorem EncodedLength.cPhase (a0 : List Byte) : EncodedLength.Statement (.cPhase a0) := by
  intro _ hs; cases hs

theorem EncodedLength.cPrecharge (a0 : List Byte) : EncodedLength.Statement (.cPrecharge a0) := by
  intro _ hs; cases hs

theorem EncodedLength.cEnha (a0 : List Byte) : EncodedLength.Statement (.cEnha a0) := by
  intro _ hs; cases hs

theorem EncodedLength.cVcomh (a0 : List Byte) : EncodedLength.Statement (.cVcomh a0) := by
  intro _ hs; cases hs

theorem EncodedLength.cNormal (a0 : List Byte) : EncodedLength.Statement (.cNormal a0) := by
  intro _ hs; cases hs

theorem EncodedLength.cExitpartial (a0 : List Byte) : EncodedLength.Statement (.cExitpartial a0) := by
  intro _ hs; cases hs

theorem EncodedLength.cEnhb (a0 : List Byte) : EncodedLength.Statement (.cEnhb a0) := by
  intro _ hs; cases hs

theorem EncodedLength.cGpio (a0 : List Byte) : EncodedLength.Statement (.cGpio a0) := by
  intro _ hs; cases hs

theorem EncodedLength.cDefgray (a0 : List Byte) : EncodedLength.Statement (.cDefgray a0) := by
  intro _ hs; cases hs

theorem EncodedLength.cPrecharge2 (a0 : List Byte) : EncodedLength.Statement (.cPrecharge2 a0) := by
  intro _ hs; cases hs

end Sys2Proof.Laws
end

