-- ==== Sys2Proof/Tests/Slice0.lean ====
section
/-!
SUPPORT. The model's own tests. Expected results are the spec's: the packets and tables of
30_encoding.md and the vectors of 95_test_vectors.md (named in each comment), under the test
configuration `CFG_T` of 95 section 0. At the end, for every statement with hypotheses, a witness that
meets them.
-/

namespace Sys2Proof.Tests

open Sys2Proof Sys2Proof.Machine

/-! The test configuration and helpers -/

/-- `FONT_T[c][k] = (c + 17*k) mod 256` (95 section 0). -/
def fontBytes : List Byte :=
  (List.range 576).map fun i => BitVec.ofNat 8 (32 + i / 6 + 17 * (i % 6))

def fontT : Font := ⟨fontBytes.toArray, by simp [fontBytes]⟩

/-- `CFG_T` (95 section 0; the payloads are the example of 40 R141). -/
def cfgT : Config where
  font := fontT
  initPayload :=
    ⟨#[[0x12], [0x91], [0x3F], [0x00], [0x01], [0x00], [0x14, 0x11], [0x0F], [0x9F], [0xE2], [0x1F],
      [0xA0, 0xFD], [0x07], [], [], [0x82, 0x20], [0x00], [], [0x08]], rfl⟩
  winFull := { colStart := 0x1C, colEnd := 0x5B, rowStart := 0x00, rowEnd := 0x3F }
  retryMax := 2
  retryDelayMs := 5
  rowFraming := .cmdPrefixed
  nScroll := 4
  pktMax := 32768
  coordBits := 16

/-- The state after reset under `CFG_T`, with the grid all 0. -/
def s0 : State := { State.afterReset 0 cfgT [] [] 0 with grid := [] }

/-- The first `w` columns of `h` rows from row `y` on at level `v`, the rest 0. -/
def patch (w y h : Nat) (v : Level) : Memory :=
  (List.range h).flatMap fun r => (List.range w).map fun q => (cellAddr q (y + r), v)

/-- One step with this packet presented. -/
def sent (pkt : List Byte) (s : State) : State :=
  match step { s with port := [.packet pkt] } with
  | .next t => t
  | _ => s

/-- The levels of a row of cells from column `x` on, as digits. -/
def row (s : State) (x y n : Nat) : List Nat :=
  (List.range n).map fun q => (cell s.grid (x + q) y).toNat

/-- The levels of a box of the grid, row by row. -/
def box (s : State) (x y w h : Nat) : List (List Nat) := (List.range h).map fun r => row s x (y + r) w

/-- The number of nonzero cells and the sum of all levels. -/
def total (s : State) : Nat × Nat := (s.grid.length, (s.grid.map fun c => c.2.toNat).sum)

/-- The status byte. -/
def code (s : State) : Nat := (statusCode s.status).toNat

/-- How many events, the status byte and XFAIL. -/
def summary (s : State) : Nat × Nat × Bool := (s.bus.length, code s, s.xfail)

/-- A text context as 95 writes it: cursor, size, colour, wrap. -/
def tcAt (cx cy : Int) (size color : Nat) (wrap : Bool) : TextContext where
  cx := cx
  cy := cy
  size := BitVec.ofNat 3 size
  color := BitVec.ofNat 2 color
  wrap := wrap

/-- The display powered on, its next answers as given. -/
def on (answers : List Answer) : State := { s0 with pstate := .poweredOn, answers := answers }

/-- A slot of the given width, offset and direction. -/
def slotAt (pw offset : Int) (dir : Direction) : Slot where
  valid := true
  text := [0x41]
  pw := pw
  offset := offset
  dir := dir
  y := 0

/-- `s0` with slot 0 as given. -/
def withSlot (l : Slot) : State := { s0 with scr := [l] ++ s0.scr.drop 1 }

/-- The offset and direction of slot 0. -/
def sweep (s : State) : Option (Int × Direction) := (s.scr[0]?).map fun l => (l.offset, l.dir)


/-! Ill-formed terms, one per check of `Instr.wellFormed` -/

theorem test_wf_string : (Instr.printstr (List.replicate 32768 0)).wellFormed cfgT = false ∧
    (Instr.drawstrc (List.replicate 32767 0)).wellFormed cfgT = true := by
  simp only [Instr.wellFormed, List.length_replicate]; decide

theorem test_wf_placed_string : (Instr.drawstr 0 0 (List.replicate 32764 0)).wellFormed cfgT = false ∧
    (Instr.drawstroff 0 0 (List.replicate 32763 0)).wellFormed cfgT = true := by
  simp only [Instr.wellFormed, List.length_replicate]; decide

theorem test_wf_scroll_text : (Instr.scrinit 0 0 (List.replicate 32765 0)).wellFormed cfgT = false ∧
    (Instr.scrinit 0 0 (List.replicate 32764 0)).wellFormed cfgT = true := by
  simp only [Instr.wellFormed, List.length_replicate]; decide

theorem test_wf_blit4 : (Instr.blit4 0 0 3 1 [0xFF]).wellFormed cfgT = false ∧
    (Instr.blit4 0 0 3 1 [0xFF, 0]).wellFormed cfgT = true := by decide

theorem test_wf_blit2 : (Instr.blit2 0 0 5 1 [0xFF]).wellFormed cfgT = false ∧
    (Instr.blit2 0 0 5 1 [0xFF, 0]).wellFormed cfgT = true := by decide

theorem test_wf_blit_port :
    (Instr.blit4 0 0 3 1 [0xFF, 0]).wellFormed { cfgT with pktMax := 8 } = false ∧
    (Instr.blit2 0 0 5 1 [0xFF, 0]).wellFormed { cfgT with pktMax := 8 } = false ∧
    (Instr.blit2 0 0 5 1 [0xFF, 0]).wellFormed { cfgT with pktMax := 9 } = true := by decide

theorem test_wf_raw_payload : (Instr.sendcmdd 0xC1 []).wellFormed cfgT = false ∧
    (Instr.sendcmdd 0xC1 (List.replicate 32767 0)).wellFormed cfgT = false := by
  simp only [Instr.wellFormed, List.length_replicate]; decide

theorem test_wf_write_ram : (Instr.cWriteram [0x00]).wellFormed cfgT = false ∧
    (Instr.cWriteram []).wellFormed cfgT = true := by decide


/-! Decoding: packets written out from 30 R83 to R95 and 95 -/

theorem test_decode_pixel :
    decodePacket [0x10, 0x7F, 0x00, 0x3F, 0x00, 0x02] = .ok (.setpixel 127 63 2) ∧
    decodePacket [0x10, 0xFF, 0xFF, 0x00, 0x00, 0x03] = .ok (.setpixel (-1) 0 3) ∧
    decodePacket [0x11] = .ok (.clear) ∧
    decodePacket [0x60] = .ok (.refresh) ∧
    decodePacket [0x61] = .ok (.clrrefresh) := by
  decide

theorem test_decode_glyph :
    decodePacket [0x20, 0xFB, 0xFF, 0x00, 0x00, 0x41] = .ok (.drawchar (-5) 0 0x41) ∧
    decodePacket [0x21, 0x78, 0x00, 0x32, 0x00, 0x41, 0x04, 0x03] = .ok (.drawchars 120 50 0x41 4 3) ∧
    decodePacket [0x22, 0x41, 0x42] = .ok (.drawstrc [0x41, 0x42]) ∧
    decodePacket [0x22] = .ok (.drawstrc []) ∧
    decodePacket [0x23, 0x08, 0x00, 0xFD, 0xFF, 0x48, 0x69] = .ok (.drawstroff 8 (-3) [0x48, 0x69]) := by
  decide

theorem test_decode_text :
    decodePacket [0x30] = .ok (.txtinit) ∧
    decodePacket [0x31, 0xFD, 0x7F, 0x00, 0x00] = .ok (.setcursor 32765 0) ∧
    decodePacket [0x32, 0x02] = .ok (.setsize 2) ∧
    decodePacket [0x33, 0x06] = .ok (.setcolor 6) ∧
    decodePacket [0x34, 0x01] = .ok (.setwrap 1) ∧
    decodePacket [0x35, 0x41] = .ok (.printchar 0x41) ∧
    decodePacket [0x36, 0x41, 0x0A, 0x42] = .ok (.printstr [0x41, 0x0A, 0x42]) ∧
    decodePacket [0x37, 0x0A, 0x00, 0xF7, 0xFF, 0x41, 0x0A, 0x42] = .ok (.drawstr 10 (-9) [0x41, 0x0A, 0x42]) := by
  decide

theorem test_decode_scroll :
    decodePacket [0x40, 0x03, 0x05, 0x01, 0x48] = .ok (.scrinit 3 0x0105 [0x48]) ∧
    decodePacket [0x41, 0x09] = .ok (.scrtick 9) := by
  decide

theorem test_decode_blit :
    decodePacket [0x50, 0x03, 0x00, 0x02, 0x00, 0x03, 0x02, 0x48, 0xC0, 0xF3, 0x7F] = .ok (.blit4 3 2 3 2 [0x48, 0xC0, 0xF3, 0x7F]) ∧
    decodePacket [0x50, 0x00, 0x00, 0x00, 0x00, 0x00, 0x05] = .ok (.blit4 0 0 0 5 []) ∧
    decodePacket [0x51, 0xFE, 0xFF, 0xFF, 0xFF, 0x04, 0x02, 0x00, 0x1B] = .ok (.blit2 (-2) (-1) 4 2 [0x00, 0x1B]) := by
  decide

theorem test_decode_protocol :
    decodePacket [0x80, 0xA5] = .ok (.sendcmd 0xA5) ∧
    decodePacket [0x81, 0xC1, 0x80] = .ok (.sendcmdd 0xC1 [0x80]) ∧
    decodePacket [0x82] = .ok (.hwreset) ∧
    decodePacket [0x83, 0x1C, 0x5B, 0x00, 0x3F] = .ok (.setwin 0x1C 0x5B 0x00 0x3F) ∧
    decodePacket [0x84, 0x07] = .ok (.setpower 7) ∧
    decodePacket [0x85] = .ok (.init) := by
  decide

/-- V-ENC, and the lengths of 30 R83. -/
theorem test_decode_refused :
    decodePacket [0x00] = .error .illegalOpcode ∧
    decodePacket [0x12, 0x01, 0x02] = .error .illegalOpcode ∧
    decodePacket [0xFF] = .error .illegalOpcode ∧
    decodePacket [0x60, 0x00] = .error .malformed ∧
    decodePacket [0x81, 0x5C] = .error .malformed ∧
    decodePacket [0x51, 0x00, 0x00] = .error .malformed ∧
    decodePacket [0x50, 0x00, 0x00, 0x00, 0x00, 0x03, 0x01, 0xFF] = .error .malformed ∧
    decodePacket [0x50, 0x00, 0x00, 0x00, 0x00, 0x02, 0x01, 0xFF, 0x00] = .error .malformed ∧
    decodePacket [0x51, 0x00, 0x00, 0x00, 0x00, 0x04, 0x01] = .error .malformed ∧
    decodePacket [] = .error .notPresentable := by
  decide

/-! The controller's command bytes (30 R100) with the payloads of 95 P3 -/

theorem test_decode_controller_one :
    decodeWire [0x15, 0x1C, 0x5B] = .ok (.cSetcol 0x1C 0x5B) ∧
    decodeWire [0x75, 0x00, 0x3F] = .ok (.cSetrow 0x00 0x3F) ∧
    decodeWire [0x5C] = .ok (.cWriteram []) ∧
    decodeWire [0xAE] = .ok (.cDispoff) ∧
    decodeWire [0xAF] = .ok (.cDispon) ∧
    decodeWire [0xA4] = .ok (.cEntireNormal) ∧
    decodeWire [0xA5] = .ok (.cEntireOn) := by
  decide

theorem test_decode_controller_two :
    decodeWire [0xFD, 0x12] = .ok (.cLock [0x12]) ∧
    decodeWire [0xB3, 0x91] = .ok (.cClkdiv [0x91]) ∧
    decodeWire [0xCA, 0x3F] = .ok (.cMux [0x3F]) ∧
    decodeWire [0xA2, 0x00] = .ok (.cOffset [0x00]) ∧
    decodeWire [0xAB, 0x01] = .ok (.cFuncsel [0x01]) ∧
    decodeWire [0xA1, 0x00] = .ok (.cStartline [0x00]) ∧
    decodeWire [0xA0, 0x14, 0x11] = .ok (.cRemap [0x14, 0x11]) ∧
    decodeWire [0xC7, 0x0F] = .ok (.cMastercontrast [0x0F]) ∧
    decodeWire [0xC1, 0x9F] = .ok (.cContrast [0x9F]) ∧
    decodeWire [0xB1, 0xE2] = .ok (.cPhase [0xE2]) := by
  decide

theorem test_decode_controller_three :
    decodeWire [0xBB, 0x1F] = .ok (.cPrecharge [0x1F]) ∧
    decodeWire [0xB4, 0xA0, 0xFD] = .ok (.cEnha [0xA0, 0xFD]) ∧
    decodeWire [0xBE, 0x07] = .ok (.cVcomh [0x07]) ∧
    decodeWire [0xA6] = .ok (.cNormal []) ∧
    decodeWire [0xA9] = .ok (.cExitpartial []) ∧
    decodeWire [0xD1, 0x82, 0x20] = .ok (.cEnhb [0x82, 0x20]) ∧
    decodeWire [0xB5, 0x00] = .ok (.cGpio [0x00]) ∧
    decodeWire [0xB9] = .ok (.cDefgray []) ∧
    decodeWire [0xB6, 0x08] = .ok (.cPrecharge2 [0x08]) := by
  decide

/-- Bytes that are no controller command byte (30 R100), and a wrong range length (30 R102). -/
theorem test_decode_controller_refused :
    decodeWire [0x85] = .error .illegalOpcode ∧ decodeWire [0x15, 0x1C] = .error .malformed ∧
    decodeWire [0x5C, 0x00] = .error .malformed ∧
    decodeTransaction (.data [0x00]) = .error .illegalOpcode := by
  decide

/-- Words numbered as the opcode table numbers them: SETPIXEL with its operands, SENDCMD, MASTER
CONTRAST with its payload byte, a bitmap of no rows. -/
theorem test_table_words :
    decodeTableWord 48 0x02003F007F10 = some (.setpixel 127 63 2) ∧
    decodeTableWord 16 0xA580 = some (.sendcmd 0xA5) ∧
    decodeTableWord 16 0x0FC7 = some (.cMastercontrast [0x0F]) ∧
    decodeTableWord 8 0x50 = some (.blit4 0 0 0 0 []) ∧
    decodeTableWord 8 0x12 = none := by
  decide

/-- The first step after reset runs the word placed by `withFetchWord`: CLEAR ends with status OK and
REFRESH, not admitted in Uninitialized, with ILLEGAL_STATE. -/
theorem test_first_step :
    (match step (State.reset.withFetchWord 8 0x11) with | .next t => code t | _ => 9) = 0x00 ∧
    (match step (State.reset.withFetchWord 8 0x60) with | .next t => code t | _ => 9) = 0x05 := by
  decide

/-! Refusals (V-ENC): the status byte -/

theorem test_status_codes :
    code (sent [0x00] s0) = 0x02 ∧
    code (sent [0xFF] s0) = 0x02 ∧
    code (sent [0x60, 0x00] s0) = 0x03 ∧
    code (sent [0x81, 0x5C] s0) = 0x03 ∧
    code (sent [0x50, 0x00, 0x00, 0x00, 0x00, 0x00, 0x05] s0) = 0x00 ∧
    code (sent [0x41, 0x09] s0) = 0x04 ∧
    code (sent [0x41, 0x02] s0) = 0x05 ∧
    code (sent [0x21, 0x00, 0x00, 0x00, 0x00, 0x41, 0x00, 0x00] s0) = 0x04 ∧
    code (sent [0x21, 0x00, 0x00, 0x00, 0x00, 0x00, 0x09, 0x03] s0) = 0x04 ∧
    code (sent [0x60] s0) = 0x05 ∧
    code (sent [0x61] s0) = 0x05 ∧
    code (sent [0x22, 0x41, 0x42] s0) = 0x05 ∧
    code (sent [0x84, 0x01] s0) = 0x05 := by
  decide +kernel

/-! Pixels (V-PIX, S3, S4) -/

/-- V-PIX: the last cell; 254 stores 2. -/
theorem test_setpixel :
    total (sent [0x10, 0x7F, 0x00, 0x3F, 0x00, 0x02] s0) = (1, 2) ∧
    row (sent [0x10, 0x7F, 0x00, 0x3F, 0x00, 0x02] s0) 126 63 2 = [0, 2] ∧
    row (sent [0x10, 0x05, 0x00, 0x05, 0x00, 0xFE] s0) 4 5 3 = [0, 2, 0] := by
  decide +kernel

/-- S4, V-PIX: off the grid nothing is stored; level 4 stores 0. -/
theorem test_setpixel_outside :
    (sent [0x10, 0x80, 0x00, 0x00, 0x00, 0x03] s0).grid = [] ∧
    (sent [0x10, 0xFF, 0xFF, 0x00, 0x00, 0x03] s0).grid = [] ∧
    (sent [0x10, 0x00, 0x00, 0x40, 0x00, 0x03] s0).grid = [] ∧
    (sent [0x10, 0x00, 0x00, 0xFF, 0xFF, 0x03] s0).grid = [] ∧
    (sent [0x10, 0x00, 0x80, 0x00, 0x00, 0x03] s0).grid = [] ∧
    (sent [0x10, 0x00, 0x00, 0x00, 0x00, 0x04] s0).grid = [] := by
  decide +kernel

/-- S3. -/
theorem test_clear :
    (sent [0x11] ({ s0 with grid := patch 9 0 2 3 } : State)).grid = [] := by
  decide +kernel

/-! Glyphs (V-GLY, V-SCL, V-CEN, V-OFF, S2, S5) -/

/-- G1, G3, G4: whole, clipped left, clipped right and bottom. -/
theorem test_drawchar :
    box (sent [0x20, 0x00, 0x00, 0x00, 0x00, 0x41] s0) 0 0 7 9 =
      [[3, 0, 3, 0, 3, 0, 0],
      [0, 3, 3, 0, 0, 3, 0],
      [0, 0, 0, 3, 3, 3, 0],
      [0, 0, 0, 0, 0, 0, 0],
      [0, 3, 0, 3, 0, 3, 0],
      [0, 0, 3, 3, 0, 0, 0],
      [3, 3, 3, 3, 0, 0, 0],
      [0, 0, 0, 0, 3, 3, 0],
      [0, 0, 0, 0, 0, 0, 0]] ∧
    total (sent [0x20, 0xFB, 0xFF, 0x00, 0x00, 0x41] s0) = (4, 12) ∧
    total (sent [0x20, 0xFA, 0xFF, 0x00, 0x00, 0x41] s0) = (0, 0) ∧
    row (sent [0x20, 0x7F, 0x00, 0x3C, 0x00, 0x41] s0) 127 60 1 = [3] := by
  decide +kernel

/-- G5 and S2 on a grid of 1s: unset bits write 0; codes 31 and 128 draw nothing. -/
theorem test_drawchar_overwrites :
    box (sent [0x20, 0x00, 0x00, 0x00, 0x00, 0x7F] ({ s0 with grid := patch 7 0 9 1 } : State)) 0 0 7 9 =
      [[3, 0, 3, 0, 3, 0, 1],
      [3, 0, 0, 3, 3, 0, 1],
      [3, 0, 0, 0, 0, 3, 1],
      [3, 0, 0, 0, 0, 0, 1],
      [3, 3, 0, 3, 0, 3, 1],
      [3, 0, 3, 3, 0, 0, 1],
      [3, 0, 0, 0, 3, 3, 1],
      [0, 3, 3, 3, 3, 3, 1],
      [1, 1, 1, 1, 1, 1, 1]] ∧
    (sent [0x20, 0x00, 0x00, 0x00, 0x00, 0x1F] ({ s0 with grid := patch 9 0 1 1 } : State)).grid = patch 9 0 1 1 ∧
    (sent [0x20, 0x00, 0x00, 0x00, 0x00, 0x80] ({ s0 with grid := patch 9 0 1 1 } : State)).grid = patch 9 0 1 1 := by
  decide +kernel

/-- L2, L6: unset bits keep 2; the edges clip size 4. -/
theorem test_drawchars :
    box (sent [0x21, 0x00, 0x00, 0x00, 0x00, 0x41, 0x01, 0x03] ({ s0 with grid := patch 7 0 9 2 } : State)) 0 0 7 9 =
      [[3, 2, 3, 2, 3, 2, 2],
      [2, 3, 3, 2, 2, 3, 2],
      [2, 2, 2, 3, 3, 3, 2],
      [2, 2, 2, 2, 2, 2, 2],
      [2, 3, 2, 3, 2, 3, 2],
      [2, 2, 3, 3, 2, 2, 2],
      [3, 3, 3, 3, 2, 2, 2],
      [2, 2, 2, 2, 3, 3, 2],
      [2, 2, 2, 2, 2, 2, 2]] ∧
    total (sent [0x21, 0x78, 0x00, 0x32, 0x00, 0x41, 0x04, 0x03] s0) = (32, 96) := by
  decide +kernel

/-- L1: size 2 draws 4 cells a bit. -/
theorem test_drawchars_scaled :
    total (sent [0x21, 0x00, 0x00, 0x00, 0x00, 0x41, 0x02, 0x01] s0) = (80, 80) ∧
    row (sent [0x21, 0x00, 0x00, 0x00, 0x00, 0x41, 0x02, 0x01] s0) 0 1 13 = [1, 1, 0, 0, 1, 1, 0, 0, 1, 1, 0, 0, 0] := by
  decide +kernel

/-- S5: glyphs at columns 57 and 64 of row 28, 67 events. -/
theorem test_drawstrc :
    total (sent [0x22, 0x41, 0x42] (on (List.replicate 67 .ok))) = (42, 126) ∧
    row (sent [0x22, 0x41, 0x42] (on (List.replicate 67 .ok))) 56 28 16 = [0, 3, 0, 3, 0, 3, 0, 0, 0, 3, 0, 3, 0, 3, 0, 0] ∧
    summary (sent [0x22, 0x41, 0x42] (on (List.replicate 67 .ok))) = (67, 0, false) := by
  decide +kernel

/-- V-CEN: the start column truncates toward zero. -/
theorem test_drawstrc_centre :
    [0, 1, 2, 17, 18, 19, 20, 21, 22, 36, 37].map centredColumn =
      [64, 61, 57, 5, 1, -2, -5, -9, -12, -61, -65] := by
  decide +kernel

/-- O1: the band cleared past the string's end, H at column 3, i at column 10. -/
theorem test_drawstroff :
    box (sent [0x23, 0x08, 0x00, 0xFD, 0xFF, 0x48, 0x69] ({ s0 with grid := patch 20 7 10 2 } : State)) 0 7 18 3 =
      [[2, 2, 2, 2, 2, 2, 2, 2, 2, 2, 2, 2, 2, 2, 2, 2, 2, 2],
      [0, 0, 0, 0, 3, 0, 3, 0, 3, 0, 3, 0, 3, 0, 3, 0, 0, 0],
      [0, 0, 0, 0, 0, 3, 3, 0, 0, 0, 0, 3, 3, 0, 0, 3, 0, 0]] ∧
    row (sent [0x23, 0x08, 0x00, 0xFD, 0xFF, 0x48, 0x69] ({ s0 with grid := patch 20 7 10 2 } : State)) 16 15 4 = [0, 0, 0, 0] ∧
    row (sent [0x23, 0x08, 0x00, 0xFD, 0xFF, 0x48, 0x69] ({ s0 with grid := patch 20 7 10 2 } : State)) 0 16 3 = [2, 2, 2] := by
  decide +kernel

/-- O2, O4: the band partly above the grid; wholly above it changes nothing. -/
theorem test_drawstroff_clipped :
    box (sent [0x23, 0xFD, 0xFF, 0x00, 0x00, 0x41] ({ s0 with grid := patch 8 0 6 2 } : State)) 0 0 8 6 =
      [[0, 0, 0, 0, 0, 0, 0, 0],
      [0, 3, 0, 3, 0, 3, 0, 0],
      [0, 0, 3, 3, 0, 0, 0, 0],
      [3, 3, 3, 3, 0, 0, 0, 0],
      [0, 0, 0, 0, 3, 3, 0, 0],
      [2, 2, 2, 2, 2, 2, 2, 2]] ∧
    (sent [0x23, 0xF8, 0xFF, 0x00, 0x00, 0x41] ({ s0 with grid := patch 9 0 1 2 } : State)).grid = patch 9 0 1 2 := by
  decide +kernel

/-! Text (V-TXT, V-DST) -/

/-- T23, T24 and 43 R200 to R204. -/
theorem test_text_registers :
    (sent [0x30] ({ s0 with tc := tcAt (5) (6) 2 1 true } : State)).tc = tcAt (0) (0) 1 3 false ∧
    (sent [0x31, 0x7E, 0x00, 0xFE, 0xFF] s0).tc = tcAt (126) (-2) 1 3 false ∧
    (sent [0x32, 0x02] s0).tc = tcAt (0) (0) 2 3 false ∧
    code (sent [0x32, 0x05] s0) = 4 ∧
    code (sent [0x32, 0x00] s0) = 4 ∧
    (sent [0x33, 0x06] s0).tc = tcAt (0) (0) 1 2 false ∧
    (sent [0x34, 0x80] s0).tc = tcAt (0) (0) 1 3 true := by
  decide +kernel

/-- T8, T9, T10, T22: wrap at size 2, skipped at row 64, newline there, the cursor wraps at 16 bits. -/
theorem test_printchar :
    (sent [0x35, 0x41] ({ s0 with tc := tcAt (117) (0) 2 3 true } : State)).tc = tcAt (14) (18) 2 3 true ∧
    (sent [0x35, 0x41] ({ s0 with tc := tcAt (116) (0) 2 3 true } : State)).tc = tcAt (130) (0) 2 3 true ∧
    (sent [0x35, 0x41] ({ s0 with tc := tcAt (0) (64) 1 3 false } : State)).tc = tcAt (0) (64) 1 3 false ∧
    (sent [0x35, 0x41] ({ s0 with tc := tcAt (0) (64) 1 3 false } : State)).grid = [] ∧
    (sent [0x35, 0x0A] ({ s0 with tc := tcAt (0) (64) 1 3 false } : State)).tc = tcAt (0) (73) 1 3 false ∧
    (sent [0x35, 0x41] ({ s0 with tc := tcAt (32765) (0) 1 3 false } : State)).tc = tcAt (-32764) (0) 1 3 false := by
  decide +kernel

/-- The wider register does not wrap (00 R7, R10: COORD_BITS is a parameter): T22 with 32 bits. -/
theorem test_printchar_wide_register :
    (sent [0x35, 0x41] { s0 with
      tc := tcAt 32765 0 1 3 false, cfg := { cfgT with coordBits := 32 } }).tc = tcAt 32772 0 1 3 false := by
  decide +kernel

/-- T11, T15: the last row; a byte without a glyph takes the wrap and the advance. -/
theorem test_printchar_draws :
    row (sent [0x35, 0x41] ({ s0 with tc := tcAt (0) (63) 1 3 false } : State)) 0 63 7 = [3, 0, 3, 0, 3, 0, 0] ∧
    (sent [0x35, 0xC8] ({ s0 with tc := tcAt (126) (0) 1 3 true } : State)).tc = tcAt (7) (9) 1 3 true ∧
    (sent [0x35, 0xC8] ({ s0 with tc := tcAt (126) (0) 1 3 true } : State)).grid = [] := by
  decide +kernel

/-- S9, T3: wrap before drawing. -/
theorem test_printstr :
    (sent [0x36, 0x41] ({ s0 with tc := tcAt (126) (0) 1 3 true } : State)).tc = tcAt (7) (9) 1 3 true ∧
    row (sent [0x36, 0x41] ({ s0 with tc := tcAt (126) (0) 1 3 true } : State)) 0 9 7 = [3, 0, 3, 0, 3, 0, 0] ∧
    (sent [0x36, 0x41, 0x42] ({ s0 with tc := tcAt (122) (0) 1 3 true } : State)).tc = tcAt (7) (9) 1 3 true ∧
    total (sent [0x36, 0x41, 0x42] ({ s0 with tc := tcAt (122) (0) 1 3 true } : State)) = (42, 126) := by
  decide +kernel

/-- T5, T12, T13: a newline, a skipped tail, a byte without a glyph. -/
theorem test_printstr_lines :
    (sent [0x36, 0x41, 0x0A, 0x42] ({ s0 with tc := tcAt (0) (0) 1 3 false } : State)).tc = tcAt (7) (9) 1 3 false ∧
    (sent [0x36, 0x41, 0x42] ({ s0 with tc := tcAt (126) (55) 1 3 true } : State)).tc = tcAt (0) (64) 1 3 true ∧
    row (sent [0x36, 0x41, 0x07, 0x42] ({ s0 with tc := tcAt (0) (0) 1 3 false } : State)) 0 0 21 =
      [3, 0, 3, 0, 3, 0, 0, 0, 0, 0, 0, 0, 0, 0, 0, 3, 0, 3, 0, 3, 0] := by
  decide +kernel

/-- D1, D3: the line origin; a line above the grid. -/
theorem test_drawstr :
    box (sent [0x37, 0x0A, 0x00, 0x32, 0x00, 0x41, 0x0A, 0x42] s0) 10 58 6 2 = [[0, 0, 0, 0, 0, 0], [0, 3, 0, 3, 0, 3]] ∧
    total (sent [0x37, 0x0A, 0x00, 0x32, 0x00, 0x41, 0x0A, 0x42] s0) = (34, 102) ∧
    (sent [0x37, 0x0A, 0x00, 0x32, 0x00, 0x41, 0x0A, 0x42] s0).tc = tcAt (0) (0) 1 3 false ∧
    total (sent [0x37, 0x00, 0x00, 0xF7, 0xFF, 0x41, 0x0A, 0x42] s0) = (22, 66) := by
  decide +kernel

/-- D2, D4: wrapping goes back to `x`; the first character may wrap. -/
theorem test_drawstr_wraps :
    row (sent [0x37, 0x64, 0x00, 0x00, 0x00, 0x41, 0x41, 0x41, 0x41, 0x41, 0x41] ({ s0 with tc := tcAt (0) (0) 1 3 true } : State)) 100 9 14 =
      [3, 0, 3, 0, 3, 0, 0, 3, 0, 3, 0, 3, 0, 0] ∧
    total (sent [0x37, 0x64, 0x00, 0x00, 0x00, 0x41, 0x41, 0x41, 0x41, 0x41, 0x41] ({ s0 with tc := tcAt (0) (0) 1 3 true } : State)) = (120, 360) ∧
    total (sent [0x37, 0x7D, 0x00, 0x28, 0x00, 0x41, 0x41, 0x41, 0x41, 0x41] ({ s0 with tc := tcAt (0) (0) 1 3 true } : State)) = (15, 45) := by
  decide +kernel

/-! Scrolling (V-SCR, S6, S7) -/

/-- S6, V-SCR: HELLO has width 34; 63 bytes are kept; slot 4 does not exist. -/
theorem test_scrinit :
    (sent [0x40, 0x00, 0x14, 0x00, 0x48, 0x45, 0x4C, 0x4C, 0x4F] s0).scr[0]? = some
      { valid := true, text := [0x48, 0x45, 0x4C, 0x4C, 0x4F], pw := 34, offset := 0, dir := .plus, y := 20 } ∧
    (sent ([0x40, 0x01, 0x00, 0x00] ++ List.replicate 70 0x41) s0).scr[1]?.map
      (fun l => (l.pw, l.text.length)) = some (440, 63) ∧
    code (sent [0x40, 0x04, 0x00, 0x00, 0x41] s0) = 4 := by
  decide +kernel

/-- V-SCR: the empty text has width -1. -/
theorem test_scrinit_empty :
    (sent [0x40, 0x03, 0x05, 0x00] s0).scr[3]?.map (fun l => (l.pw, l.valid)) = some (-1, true) := by
  decide +kernel

/-- S6: the first glyph at column 47, and the slot as it was. -/
theorem test_scrtick_static :
    row (sent [0x41, 0x00] (sent [0x40, 0x00, 0x14, 0x00, 0x48, 0x45, 0x4C, 0x4C, 0x4F] s0)) 46 20 8 = [0, 0, 3, 0, 3, 0, 3, 0] ∧
    total (sent [0x41, 0x00] (sent [0x40, 0x00, 0x14, 0x00, 0x48, 0x45, 0x4C, 0x4C, 0x4F] s0)) = (117, 351) ∧
    (sent [0x41, 0x00] (sent [0x40, 0x00, 0x14, 0x00, 0x48, 0x45, 0x4C, 0x4C, 0x4F] s0)).scr[0]? = (sent [0x40, 0x00, 0x14, 0x00, 0x48, 0x45, 0x4C, 0x4C, 0x4F] s0).scr[0]? := by
  decide +kernel

/-- S7 and V-SCR: the sweep and its ends. -/
theorem test_scrtick_animated :
    sweep (sent [0x41, 0x00] (withSlot (slotAt 200 0 .plus))) = some (1, .plus) ∧
    sweep (sent [0x41, 0x00] (withSlot (slotAt 200 71 .plus))) = some (72, .minus) ∧
    sweep (sent [0x41, 0x00] (withSlot (slotAt 200 72 .minus))) = some (71, .minus) ∧
    sweep (sent [0x41, 0x00] (withSlot (slotAt 200 1 .minus))) = some (0, .plus) ∧
    sweep (sent [0x41, 0x00] (withSlot (slotAt 129 0 .plus))) = some (1, .minus) ∧
    sweep (sent [0x41, 0x00] (withSlot (slotAt 129 1 .minus))) = some (0, .plus) := by
  decide +kernel

/-! Bitmaps (V-BLT, S8) -/

/-- S8, B1: nibbles, high one first, rows on byte boundaries. -/
theorem test_blit4 :
    row (sent [0x50, 0x00, 0x00, 0x00, 0x00, 0x02, 0x01, 0xF0] ({ s0 with grid := patch 9 0 1 1 } : State)) 0 0 3 = [3, 0, 1] ∧
    box (sent [0x50, 0x03, 0x00, 0x02, 0x00, 0x03, 0x02, 0x48, 0xC0, 0xF3, 0x7F] ({ s0 with grid := patch 7 1 4 1 } : State)) 2 1 5 4 =
      [[1, 1, 1, 1, 1],
      [1, 1, 2, 3, 1],
      [1, 3, 0, 1, 1],
      [1, 1, 1, 1, 1]] := by
  decide +kernel

/-- B2, B3, B4: clipped at both ends; all 16 nibble values. -/
theorem test_blit4_clipped :
    row (sent [0x50, 0xFF, 0xFF, 0x00, 0x00, 0x02, 0x01, 0xF8] ({ s0 with grid := patch 9 0 1 1 } : State)) 0 0 2 = [2, 1] ∧
    row (sent [0x50, 0x00, 0x00, 0x00, 0x00, 0x10, 0x01, 0x01, 0x23, 0x45, 0x67, 0x89, 0xAB, 0xCD, 0xEF] s0) 0 0 16 =
      [0, 0, 0, 0, 1, 1, 1, 1, 2, 2, 2, 2, 3, 3, 3, 3] ∧
    total (sent [0x50, 0x7F, 0x00, 0x3F, 0x00, 0x02, 0x02, 0xC8, 0x4C] s0) = (1, 3) := by
  decide +kernel

/-- B6, B7: bit pairs, most significant first, rows on byte boundaries. -/
theorem test_blit2 :
    box (sent [0x51, 0x00, 0x00, 0x00, 0x00, 0x05, 0x02, 0x1B, 0xC0, 0xE4, 0x7F] s0) 0 0 6 3 =
      [[0, 1, 2, 3, 3, 0],
      [3, 2, 1, 0, 1, 0],
      [0, 0, 0, 0, 0, 0]] ∧
    row (sent [0x51, 0x0A, 0x00, 0x0A, 0x00, 0x02, 0x01, 0xB7] s0) 9 10 5 = [0, 2, 3, 0, 0] := by
  decide +kernel

/-- B5, B9. -/
theorem test_blit2_clipped :
    row (sent [0x51, 0x7E, 0x00, 0x00, 0x00, 0x04, 0x01, 0x1B] ({ s0 with grid := patch 128 0 1 1 } : State)) 124 0 4 = [1, 1, 0, 1] ∧
    box (sent [0x51, 0xFE, 0xFF, 0xFF, 0xFF, 0x04, 0x02, 0x00, 0x1B] s0) 0 0 3 2 = [[2, 3, 0], [0, 0, 0]] := by
  decide +kernel

/-! Refresh (V-REF, S1) -/

/-- R1: the window, the write-RAM command, row 5, 67 events and the shadows. -/
theorem test_refresh :
    (sent [0x60] ({ on (List.replicate 67 .ok) with grid := [(0, 1), (127, 3), (641, 2)] } : State)).bus.take 3 =
      [.tx (.cmdData 0x15 [0x1C, 0x5B]) .ok, .tx (.cmdData 0x75 [0x00, 0x3F]) .ok, .tx (.cmd 0x5C) .ok] ∧
    (sent [0x60] ({ on (List.replicate 67 .ok) with grid := [(0, 1), (127, 3), (641, 2)] } : State)).bus[8]? =
      some (.tx (.cmdData 0x5C ([0, 0, 0xAA, 0xAA] ++ List.replicate 252 0)) .ok) ∧
    (sent [0x60] ({ on (List.replicate 67 .ok) with grid := [(0, 1), (127, 3), (641, 2)] } : State)).bus.length = 67 ∧
    (sent [0x60] ({ on (List.replicate 67 .ok) with grid := [(0, 1), (127, 3), (641, 2)] } : State)).wincol = some (0x1C, 0x5B) ∧
    (sent [0x60] ({ on (List.replicate 67 .ok) with grid := [(0, 1), (127, 3), (641, 2)] } : State)).winrow = some (0x00, 0x3F) := by
  decide +kernel

/-- R3: 13 answers ok, then three fails in row 10. -/
theorem test_refresh_fails :
    summary (sent [0x60] (on (List.replicate 13 .ok ++ [.fail, .fail, .fail]))) = (18, 1, true) := by
  decide +kernel

/-- 41 R169: the grid cleared, 67 events; refused, it is not cleared. -/
theorem test_clrrefresh :
    (sent [0x61] ({ on (List.replicate 67 .ok) with grid := [(0, 1), (127, 3), (641, 2)] } : State)).grid = [] ∧
    (sent [0x61] ({ on (List.replicate 67 .ok) with grid := [(0, 1), (127, 3), (641, 2)] } : State)).bus.length = 67 ∧
    (sent [0x61] ({ s0 with grid := patch 9 0 1 1 } : State)).grid = patch 9 0 1 1 := by
  decide +kernel

/-! The sequencer (V-PRO) -/

/-- X1: one retry. -/
theorem test_sendcmdd :
    (sent [0x81, 0xC1, 0x80] (on [.fail, .ok])).bus =
      [.tx (.cmdData 0xC1 [0x80]) .fail, .delay 5, .tx (.cmdData 0xC1 [0x80]) .ok] ∧
    code (sent [0x81, 0xC1, 0x80] (on [.fail, .ok])) = 0 := by
  decide +kernel

/-- X2, X3: exhausted after three attempts, and at once when RETRY_MAX is 0. -/
theorem test_sendcmd :
    (sent [0x80, 0xA5] (on [.fail, .fail, .fail])).bus =
      [.tx (.cmd 0xA5) .fail, .delay 5, .tx (.cmd 0xA5) .fail, .delay 5, .tx (.cmd 0xA5) .fail] ∧
    summary (sent [0x80, 0xA5] (on [.fail, .fail, .fail])) = (5, 1, true) ∧
    (sent [0x80, 0xA5] { on [.fail] with cfg := { cfgT with retryMax := 0 } }).bus =
      [.tx (.cmd 0xA5) .fail] := by
  decide +kernel

/-- X5: the row transaction is lost. -/
theorem test_setwin :
    (sent [0x83, 0x1C, 0x5B, 0x00, 0x3F] (on [.ok, .fail, .fail, .fail])).wincol = some (0x1C, 0x5B) ∧
    (sent [0x83, 0x1C, 0x5B, 0x00, 0x3F] (on [.ok, .fail, .fail, .fail])).winrow = none ∧
    (sent [0x83, 0x1C, 0x5B, 0x00, 0x3F] (on [.ok, .fail, .fail, .fail])).bus.length = 6 := by
  decide +kernel

/-- X6, X8: 0 is off, 7 is on. -/
theorem test_setpower :
    (sent [0x84, 0x00] (on [.ok])).bus = [.tx (.cmd 0xAE) .ok] ∧
    (sent [0x84, 0x00] (on [.ok])).pstate = .poweredOff ∧
    (sent [0x84, 0x07] { on [.ok] with pstate := .poweredOff }).pstate = .poweredOn := by
  decide +kernel

/-- X9. -/
theorem test_hwreset :
    (sent [0x82] { on [] with wincol := some (1, 2), winrow := some (3, 4) }).bus =
      [.resetLine 0, .delay 150, .resetLine 1, .delay 150] ∧
    (sent [0x82] { on [] with wincol := some (1, 2), winrow := some (3, 4) }).pstate =
      .uninitialized ∧
    (sent [0x82] { on [] with wincol := some (1, 2), winrow := some (3, 4) }).wincol = none := by
  decide +kernel

/-- P3: events 5, 12 and 25 of the bring-up. -/
theorem test_init :
    (sent [0x85] { s0 with answers := List.replicate 21 .ok }).bus[4]? = some (.tx (.cmd 0xAE) .ok) ∧
    (sent [0x85] { s0 with answers := List.replicate 21 .ok }).bus[11]? =
      some (.tx (.cmdData 0xA0 [0x14, 0x11]) .ok) ∧
    (sent [0x85] { s0 with answers := List.replicate 21 .ok }).bus[24]? = some (.tx (.cmd 0xAF) .ok) ∧
    (sent [0x85] { s0 with answers := List.replicate 21 .ok }).bus.length = 25 ∧
    (sent [0x85] { s0 with answers := List.replicate 21 .ok }).pstate = .poweredOn := by
  decide +kernel

/-- X10, X11: not admitted when powered; the display-on command lost. -/
theorem test_init_fails :
    code (sent [0x85] (on [])) = 5 ∧
    summary (sent [0x85] { s0 with cfg := { cfgT with retryMax := 1 }, answers := List.replicate 20 .ok ++ [.fail, .fail] }) = (27, 1, true) ∧
    (sent [0x85] { s0 with cfg := { cfgT with retryMax := 1 }, answers := List.replicate 20 .ok ++ [.fail, .fail] }).pstate = .poweredOff := by
  decide +kernel

/-- 40 R142: a controller row alone is the raw transaction; its packet at the port is SENDCMDD. -/
theorem test_controller_row :
    (match exec (.cContrast [0x80]) (on [.ok]) with | .next t => t.bus | _ => []) =
      [.tx (.cmdData 0xC1 [0x80]) .ok] ∧
    tablePacket 16 0x80C1 = [0x81, 0xC1, 0x80] := by
  decide +kernel
/-! Witnesses: for every statement of Certificates/Slice0/Obligations.lean that has hypotheses, concrete
values that meet all of them, one for each clause -/

/-- The three cells of S1. -/
def gridS1 : Memory := [(0, 1), (127, 3), (641, 2)]

/-- A state whose grid is that of S1. -/
def s1 : State := { s0 with grid := gridS1 }

/-- `s0` with this packet presented. -/
def offered (pkt : List Byte) : State := { s0 with port := [.packet pkt] }

/-- Answers that are ok let every transaction succeed at once. -/
theorem allSucceed_zeros {s : State} (n : Nat) {j : Nat}
    (h : ∀ i, i < n → upcoming s (j + i) = .ok) : AllSucceed s j (List.replicate n 0) := by
  induction n generalizing j with
  | zero => trivial
  | succ n ih =>
    refine ⟨⟨Nat.zero_le _, fun k hk => absurd hk (Nat.not_lt_zero k), h 0 (by omega)⟩, ih fun i hi => ?_⟩
    have := h (i + 1) (by omega)
    rwa [show j + (i + 1) = j + 0 + 1 + i by omega] at this

theorem answersUsed_zeros (n : Nat) : answersUsed (List.replicate n 0) = n := by
  simp [answersUsed]

/-- The first answer is fail and the next ones ok: the first transaction succeeds at its second
attempt, the others at once. -/
theorem allSucceed_retry {s : State} (n : Nat) (hr : 1 ≤ s.cfg.retryMax)
    (ha : s.answers = .fail :: List.replicate (n + 1) .ok) :
    AllSucceed s 0 (1 :: List.replicate n 0) := by
  refine ⟨⟨hr, fun k hk => ?_, ?_⟩, allSucceed_zeros n fun i hi => ?_⟩
  · obtain rfl : k = 0 := by omega
    simp [upcoming, ha]
  · simp [upcoming, ha]
  · simp [upcoming, ha, show 0 + 1 + 1 + i = i + 1 + 1 by omega, hi]

theorem witness_DecodeEncodeHost :
    (Instr.blit4 (-1) 63 255 255 (List.replicate 32640 0)).side = .host ∧
    (Instr.blit4 (-1) 63 255 255 (List.replicate 32640 0)).wellFormed cfgT = true := by
  refine ⟨rfl, ?_⟩
  simp only [Instr.wellFormed, List.length_replicate]; decide

theorem witness_DecodeEncodeController :
    (Instr.cWriteram (0x55 :: List.replicate 255 0)).side = .controller ∧
    (Instr.cWriteram (0x55 :: List.replicate 255 0)).wellFormed cfgT = true ∧
    rawTransaction (.cWriteram (0x55 :: List.replicate 255 0)) =
      some (.cmdData 0x5C (0x55 :: List.replicate 255 0)) := by
  refine ⟨rfl, ?_, rfl⟩
  simp only [Instr.wellFormed, List.length_cons, List.length_replicate]; decide

theorem witness_DecodedPacketIsEncoding :
    decodePacket [0x31, 0xFD, 0x7F, 0x00, 0x80] = .ok (.setcursor 32765 (-32768)) ∧
    [(0x31 : Byte), 0xFD, 0x7F, 0x00, 0x80].length ≤ cfgT.pktMax := by decide

theorem witness_ReservedOpcodeRefused :
    (offered [0x12, 0x01, 0x02]).port = .packet (0x12 :: [0x01, 0x02]) :: [] ∧
    [(0x01 : Byte), 0x02].length < (offered [0x12, 0x01, 0x02]).cfg.pktMax ∧
    (0x12 : Byte).toNat ∉ [0x10, 0x11, 0x20, 0x21, 0x22, 0x23, 0x30, 0x31, 0x32, 0x33, 0x34, 0x35,
      0x36, 0x37, 0x40, 0x41, 0x50, 0x51, 0x60, 0x61, 0x80, 0x81, 0x82, 0x83, 0x84, 0x85] := by
  refine ⟨rfl, ?_⟩; decide

theorem witness_WrongLengthRefused :
    (offered [0x60, 0x00]).port = .packet (0x60 :: [0x00]) :: [] ∧
    [(0x00 : Byte)].length < (offered [0x60, 0x00]).cfg.pktMax ∧
    (0x60 : Byte).toNat ∈ [0x10, 0x11, 0x20, 0x21, 0x22, 0x23, 0x30, 0x31, 0x32, 0x33, 0x34, 0x35,
      0x36, 0x37, 0x40, 0x41, 0x50, 0x51, 0x60, 0x61, 0x80, 0x81, 0x82, 0x83, 0x84, 0x85] ∧
    lengthFits [0x60, 0x00] = false := by
  refine ⟨rfl, ?_⟩; decide

/-- The port's limit is the parameter's (30 R81): at `PKT_MAX` bytes decoded, one byte more a fault. -/
theorem test_port_limit :
    readPacket { cfgT with pktMax := 6 } [0x10, 0x7F, 0x00, 0x3F, 0x00, 0x02] =
      .ok (.setpixel 127 63 2) ∧
    step { offered [0x10, 0x7F, 0x00, 0x3F, 0x00, 0x02] with cfg := { cfgT with pktMax := 5 } } =
      .fault .packetNotPresentable := ⟨rfl, rfl⟩

theorem witness_StepRunsDecoded :
    (offered [0x11]).port = .packet [0x11] :: [] ∧
    [(0x11 : Byte)].length ≤ (offered [0x11]).cfg.pktMax ∧ decodePacket [0x11] = .ok .clear :=
  ⟨rfl, by decide, rfl⟩

theorem witness_StepWaitsWithoutInput : s0.port = [] := rfl

theorem witness_UnpresentablePacketFaults_empty :
    (offered []).port = .packet [] :: [] ∧
    (([] : List Byte).length = 0 ∨ (offered []).cfg.pktMax < ([] : List Byte).length) :=
  ⟨rfl, .inl rfl⟩

theorem witness_UnpresentablePacketFaults_long :
    (offered (List.replicate 32769 0x22)).port = .packet (List.replicate 32769 0x22) :: [] ∧
    (offered (List.replicate 32769 0x22)).cfg.pktMax < (List.replicate 32769 (0x22 : Byte)).length := by
  refine ⟨rfl, ?_⟩
  rw [List.length_replicate]; decide

theorem witness_CoordinateReduction :
    1 ≤ 16 ∧ InCoord 16 32767 ∧ InCoord 16 (-32768) ∧ (16 : Nat) ≤ 16 := by decide

theorem witness_BlockResetResult :
    ({ s1 with port := [.blockReset] } : State).port = .blockReset :: [] := rfl

/-- A slot in the middle of its sweep, as SCRINIT of 28 characters and ten ticks leave it. -/
def slotMoving : Slot where
  valid := true
  text := List.replicate 28 0x41
  pw := 195
  offset := 10
  dir := .plus
  y := 20

/-- A state with a picture, a moving line and one transaction sent. -/
def busy : State :=
  { offered [0x41, 0x00] with
    grid := gridS1, pstate := .poweredOn, bus := [.tx (.cmdData 0xC1 [0x80]) .ok]
    scr := [slotMoving, Slot.afterReset 16 0 1, Slot.afterReset 16 0 2, Slot.afterReset 16 0 3] }

theorem slotMoving_good : slotMoving.Good 16 :=
  ⟨by decide, by decide, by decide, by decide⟩

theorem slotUnset_good (n k : Nat) : (Slot.afterReset 16 n k).Good 16 where
  ranges := ⟨wrapTo_range _ _, wrapTo_range _ _, wrapTo_range _ _⟩
  unset := fun _ => rfl
  width := fun h => absurd (show false = true from h) (by decide)
  sweep := fun h => absurd (show false = true from h) (by decide)

theorem witness_StepKeepsInvariant : busy.Inv ∧ ∃ t, step busy = .next t := by
  refine ⟨⟨by decide, by decide, by decide, by decide, by decide, by decide, by decide, ?_, ?_⟩, _, rfl⟩
  · intro l hl
    have : l = slotMoving ∨ l = Slot.afterReset 16 0 1 ∨ l = Slot.afterReset 16 0 2 ∨
        l = Slot.afterReset 16 0 3 := by simpa [busy] using hl
    rcases this with rfl | rfl | rfl | rfl
    · exact slotMoving_good
    all_goals exact slotUnset_good _ _
  · intro e he
    have : e = .tx (.cmdData 0xC1 [0x80]) .ok := by simpa [busy] using he
    subst this
    show [(0x80 : Byte)] ≠ []
    decide

theorem witness_BusOnlyGrows :
    (∃ t, step busy = .next t) ∧ ∀ later, busy.port ≠ .blockReset :: later :=
  ⟨⟨_, rfl⟩, fun later h => by cases h⟩

theorem witness_XfailIsSticky :
    ∃ s t : State, step s = .next t ∧ s.xfail = true ∧ t.xfail = false :=
  ⟨{ s0 with xfail := true, port := [.blockReset] }, _, rfl, rfl, rfl⟩

theorem witness_RefusalChangesOnlyStatus :
    ∃ t, exec .refresh s0 = .next t ∧ isRefusal t.status = true := ⟨_, rfl, rfl⟩

theorem witness_XfailStatusRecord_fail :
    ∃ t, exec (.sendcmd 0xA5) { s0 with answers := [.fail, .fail, .fail] } = .next t ∧
      t.status = .xfail := ⟨_, rfl, by decide +kernel⟩

theorem witness_XfailStatusRecord_other :
    ∃ t, exec .clear { s0 with xfail := true } = .next t ∧ t.status ≠ .xfail :=
  ⟨_, rfl, by decide⟩

theorem witness_DrawingStaysInside : isDrawing (.setpixel 127 63 2) = true := rfl

theorem witness_DrawingStaysInside_state :
    ∃ t, isDrawing (.scrtick 2) = true ∧ exec (.scrtick 2) s0 = .next t ∧
      t.status = .illegalState := ⟨_, rfl, rfl, rfl⟩

theorem witness_ProtocolStateMoves_hwreset :
    ∃ t, exec .hwreset (on []) = .next t ∧ t.pstate ≠ (on []).pstate := ⟨_, rfl, by decide⟩

theorem witness_ProtocolStateMoves_setpower :
    ∃ t, exec (.setpower 0) (on [.ok]) = .next t ∧ t.pstate ≠ (on [.ok]).pstate :=
  ⟨_, rfl, by decide +kernel⟩

theorem witness_ProtocolStateMoves_init :
    ∃ t, exec .init { s0 with answers := [.fail, .fail, .fail] } = .next t ∧
      t.pstate ≠ s0.pstate ∧ t.pstate = .configuring :=
  ⟨_, rfl, by decide +kernel, by decide +kernel⟩

theorem witness_AdmissionTable_refused :
    (Instr.setpower 1).side = .host ∧ admitted (.setpower 1) s0.pstate = false := by decide

theorem witness_AdmissionTable_admitted :
    Instr.init.side = .host ∧ admitted .init s0.pstate = true ∧
    (Instr.scrtick 3).side = .host ∧ admitted (.scrtick 3) s0.pstate = true := by decide

theorem witness_ShadowsWereSent :
    ∃ s t : State, s.ShadowsSent ∧ step s = .next t ∧ s.wincol = some (1, 2) := by
  refine ⟨{ offered [0x11] with
    wincol := some (1, 2), bus := [.tx (.cmdData 0x15 [1, 2]) .ok] }, _, ⟨?_, ?_⟩, rfl, rfl⟩
  · intro a b h
    cases h
    exact List.mem_singleton.mpr rfl
  · intro a b h
    cases h

theorem witness_PlotWritesOneCell_inside :
    Memory.wf gridS1 = true ∧ (127 : Nat) < 128 ∧ (63 : Nat) < 64 := by decide

theorem witness_PlotWritesOneCell_outside :
    Memory.wf gridS1 = true ∧ ¬ (0 ≤ (128 : Int) ∧ (128 : Int) ≤ 127 ∧ 0 ≤ (0 : Int) ∧ (0 : Int) ≤ 63) := by
  decide

theorem witness_SetpixelResult : Memory.wf s1.grid = true := by decide

theorem witness_ClearResult : (127 : Nat) < 128 ∧ (63 : Nat) < 64 := by decide

theorem witness_RowBytesDoubled : (0 : Nat) < 128 ∧ (127 : Nat) < 128 := by decide

theorem witness_RefreshResult_refused : s0.pstate ≠ .poweredOff ∧ s0.pstate ≠ .poweredOn := by
  decide

/-- The answers of a refresh whose first transaction takes a retry. -/
def retryAnswers : List Answer := .fail :: List.replicate 67 .ok

theorem witness_RefreshResult_sent :
    ((on retryAnswers).pstate = .poweredOff ∨ (on retryAnswers).pstate = .poweredOn) ∧
    (1 :: List.replicate 66 0).length = 67 ∧
    AllSucceed (on retryAnswers) 0 (1 :: List.replicate 66 0) :=
  ⟨.inr rfl, by simp, allSucceed_retry 66 (by decide) rfl⟩

/-- The answers that lose transaction `j` of a command, under `RETRY_MAX = 2`. -/
def lostAt (j : Nat) : List Answer := List.replicate j .ok ++ [.fail, .fail, .fail]

theorem lostAt_loses {s : State} (hr : s.cfg.retryMax = 2) (j : Nat) (hj : s.answers = lostAt j) :
    AllSucceed s 0 (List.replicate j 0) ∧ IsLost s (answersUsed (List.replicate j 0)) := by
  refine ⟨allSucceed_zeros j fun i hi => ?_, fun k hk => ?_⟩
  · simp [upcoming, hj, lostAt, hi, List.getElem?_append_left]
  · rw [answersUsed_zeros]
    rw [hr] at hk
    have : k = 0 ∨ k = 1 ∨ k = 2 := by omega
    rcases this with rfl | rfl | rfl <;> simp [upcoming, hj, lostAt]

theorem witness_RefreshResult_lost (j : Nat) (hj : j < 67) :
    ((on (lostAt j)).pstate = .poweredOff ∨ (on (lostAt j)).pstate = .poweredOn) ∧
    (∃ tr, (refreshList (on (lostAt j)).cfg (on (lostAt j)).grid)[(List.replicate j 0).length]? =
      some tr) ∧
    AllSucceed (on (lostAt j)) 0 (List.replicate j 0) ∧
    IsLost (on (lostAt j)) (answersUsed (List.replicate j 0)) := by
  refine ⟨.inr rfl, ⟨_, List.getElem?_eq_getElem ?_⟩, lostAt_loses rfl j rfl⟩
  simp [refreshList]; omega

theorem witness_ClrrefreshResult_refused :
    ({ s0 with pstate := .configuring } : State).pstate ≠ .poweredOff ∧
    ({ s0 with pstate := .configuring } : State).pstate ≠ .poweredOn := by decide

theorem witness_ClrrefreshResult_sent :
    ((on retryAnswers).pstate = .poweredOff ∨ (on retryAnswers).pstate = .poweredOn) ∧
    (1 :: List.replicate 66 0).length = 67 ∧
    AllSucceed (on retryAnswers) 0 (1 :: List.replicate 66 0) ∧ (127 : Nat) < 128 ∧ (63 : Nat) < 64 :=
  ⟨.inr rfl, by simp, allSucceed_retry 66 (by decide) rfl, by decide, by decide⟩

theorem witness_DrawcharResult_glyph :
    (32 ≤ (32 : Byte).toNat ∧ (32 : Byte).toNat ≤ 127 ∧ (0 : Nat) < 6 ∧ (0 : Nat) < 8) ∧
    (32 ≤ (127 : Byte).toNat ∧ (127 : Byte).toNat ≤ 127 ∧ (5 : Nat) < 6 ∧ (7 : Nat) < 8) := by decide

theorem witness_DrawcharResult : Memory.wf s1.grid = true := by decide

theorem witness_DrawcharsResult_drawn :
    Memory.wf s1.grid = true ∧ 1 ≤ (4 : Byte).toNat ∧ (4 : Byte).toNat ≤ 4 := by decide

theorem witness_DrawcharsResult_refused :
    ((0 : Byte).toNat = 0 ∨ 5 ≤ (0 : Byte).toNat) ∧ ((5 : Byte).toNat = 0 ∨ 5 ≤ (5 : Byte).toNat) := by
  decide

theorem witness_DrawstrcResult_refused : s0.pstate ≠ .poweredOff ∧ s0.pstate ≠ .poweredOn := by
  decide

theorem witness_DrawstrcResult_sent :
    ({ on retryAnswers with pstate := .poweredOff } : State).pstate = .poweredOff ∧
    (1 :: List.replicate 66 0).length = 67 ∧
    AllSucceed { on retryAnswers with pstate := .poweredOff } 0 (1 :: List.replicate 66 0) :=
  ⟨rfl, by simp, allSucceed_retry 66 (by decide) rfl⟩

theorem witness_DrawstroffResult :
    Memory.wf s1.grid = true ∧ (127 : Nat) < 128 ∧ (63 : Nat) < 64 := by decide

theorem witness_SetsizeResult_set : 1 ≤ (4 : Byte).toNat ∧ (4 : Byte).toNat ≤ 4 := by decide

theorem witness_SetsizeResult_refused :
    ((0 : Byte).toNat = 0 ∨ 5 ≤ (0 : Byte).toNat) ∧ ((255 : Byte).toNat = 0 ∨ 5 ≤ (255 : Byte).toNat) := by
  decide

theorem witness_PrintcharResult_newline : Memory.wf s1.grid = true ∧ (10 : Byte) = 10 := by decide

theorem witness_PrintcharResult_below :
    Memory.wf s1.grid = true ∧ (0x41 : Byte) ≠ 10 ∧
    64 ≤ ({ s1 with tc := tcAt 0 64 1 3 false } : State).tc.cy := by decide

theorem witness_PrintcharResult_drawn :
    Memory.wf s1.grid = true ∧ (0x41 : Byte) ≠ 10 ∧
    ({ s1 with tc := tcAt 0 63 1 3 false } : State).tc.cy < 64 := by decide

theorem witness_DrawstrResult :
    Memory.wf s1.grid = true ∧ (127 : Nat) < 128 ∧ (63 : Nat) < 64 := by decide

theorem witness_ScrinitResult_outside : s0.cfg.nScroll ≤ (4 : Byte).toNat := by decide

theorem witness_ScrinitResult_stored :
    (3 : Byte).toNat < s0.cfg.nScroll := by decide

theorem witness_ScrtickResult_outside : s0.cfg.nScroll ≤ (4 : Byte).toNat := by decide

theorem witness_ScrtickResult_unset :
    (3 : Byte).toNat < s0.cfg.nScroll ∧ s0.scr[(3 : Byte).toNat]? = some (Slot.afterReset 16 0 3) ∧
    (Slot.afterReset 16 0 3).valid = false := ⟨by decide, rfl, rfl⟩

theorem witness_ScrtickResult_static :
    (0 : Byte).toNat < (withSlot (slotAt 128 0 .plus)).cfg.nScroll ∧
    (withSlot (slotAt 128 0 .plus)).scr[(0 : Byte).toNat]? = some (slotAt 128 0 .plus) ∧
    (slotAt 128 0 .plus).valid = true ∧ Memory.wf (withSlot (slotAt 128 0 .plus)).grid = true ∧
    (slotAt 128 0 .plus).pw ≤ 128 := ⟨by decide, rfl, by decide⟩

theorem witness_ScrtickResult_animated :
    (0 : Byte).toNat < (withSlot (slotAt 129 0 .plus)).cfg.nScroll ∧
    (withSlot (slotAt 129 0 .plus)).scr[(0 : Byte).toNat]? = some (slotAt 129 0 .plus) ∧
    (slotAt 129 0 .plus).valid = true ∧ Memory.wf (withSlot (slotAt 129 0 .plus)).grid = true ∧
    128 < (slotAt 129 0 .plus).pw := ⟨by decide, rfl, by decide⟩

theorem witness_ScrollPingPong :
    (0 : Byte).toNat < (withSlot (slotAt 200 0 .plus)).cfg.nScroll ∧
    (withSlot (slotAt 200 0 .plus)).scr[(0 : Byte).toNat]? = some (slotAt 200 0 .plus) ∧
    (slotAt 200 0 .plus).valid = true ∧ 128 < (slotAt 200 0 .plus).pw ∧
    InCoord (withSlot (slotAt 200 0 .plus)).cfg.coordBits (slotAt 200 0 .plus).pw ∧
    (slotAt 200 0 .plus).offset = 0 ∧ (slotAt 200 0 .plus).dir = .plus := by
  refine ⟨by decide, rfl, by decide⟩

theorem witness_StaticTickIdempotent :
    Memory.wf (withSlot (slotAt 6 0 .plus)).grid = true ∧
    (withSlot (slotAt 6 0 .plus)).scr[(0 : Byte).toNat]? = some (slotAt 6 0 .plus) ∧
    (slotAt 6 0 .plus).pw ≤ 128 ∧
    ∃ t, exec (.scrtick 0) (withSlot (slotAt 6 0 .plus)) = .next t := by
  refine ⟨by decide, rfl, by decide, _, rfl⟩

theorem witness_BlitFourResult :
    Memory.wf s1.grid = true ∧
    [(0x48 : Byte), 0xC0, 0xF3, 0x7F].length = (2 : Byte).toNat * (((3 : Byte).toNat + 1) / 2) := by
  decide

theorem witness_BlitTwoResult :
    Memory.wf s1.grid = true ∧
    [(0x1B : Byte), 0xC0, 0xE4, 0x7F].length = (2 : Byte).toNat * (((5 : Byte).toNat + 3) / 4) := by
  decide

theorem witness_RawSendResult_sent :
    (Instr.sendcmdd 0xC1 [0x80]).side = .host ∧
    rawTransaction (.sendcmdd 0xC1 [0x80]) = some (.cmdData 0xC1 [0x80]) ∧
    SucceedsAfter (on [.fail, .fail, .ok]) 0 2 := by
  unfold SucceedsAfter AnswersFail; decide

theorem witness_RawSendResult_lost :
    (Instr.sendcmd 0xA5).side = .host ∧ rawTransaction (.sendcmd 0xA5) = some (.cmd 0xA5) ∧
    IsLost (on [.fail, .fail, .fail]) 0 := by
  unfold IsLost AnswersFail; decide

theorem witness_ControllerRowResult_sent :
    (Instr.cContrast [0x80]).side = .controller ∧ SucceedsAfter (on [.fail, .fail, .ok]) 0 2 := by
  unfold SucceedsAfter AnswersFail; decide

theorem witness_ControllerRowResult_lost :
    (Instr.cDispon).side = .controller ∧ IsLost (on [.fail, .fail, .fail]) 0 := by
  unfold IsLost AnswersFail; decide

theorem witness_ControllerRowIsRawSend :
    (Instr.cEnha [0xA0, 0xFD]).side = .controller := rfl

theorem witness_SetwinResult_sent :
    AllSucceed (on [.ok, .fail, .ok]) 0 [0, 1] := by
  unfold AllSucceed AllSucceed AllSucceed SucceedsAfter AnswersFail; decide

theorem witness_SetwinResult_row_lost :
    SucceedsAfter (on (lostAt 1)) 0 0 ∧ IsLost (on (lostAt 1)) (0 + 1) := by
  unfold SucceedsAfter IsLost AnswersFail; decide

theorem witness_SetwinResult_col_lost : IsLost (on (lostAt 0)) 0 := by
  unfold IsLost AnswersFail; decide

theorem witness_SetpowerResult_refused : s0.pstate ≠ .poweredOff ∧ s0.pstate ≠ .poweredOn := by
  decide

theorem witness_SetpowerResult_sent :
    ((on [.fail, .ok]).pstate = .poweredOff ∨ (on [.fail, .ok]).pstate = .poweredOn) ∧
    SucceedsAfter (on [.fail, .ok]) 0 1 := by
  unfold SucceedsAfter AnswersFail; decide

theorem witness_SetpowerResult_lost :
    ((on (lostAt 0)).pstate = .poweredOff ∨ (on (lostAt 0)).pstate = .poweredOn) ∧
    IsLost (on (lostAt 0)) 0 := by
  unfold IsLost AnswersFail; decide

/-- A block just reset, with answers laid down. -/
def fresh (answers : List Answer) : State := { s0 with answers := answers }

theorem witness_InitResult_refused : (on []).pstate ≠ .uninitialized := by decide

theorem witness_InitResult_sent :
    (fresh (.fail :: List.replicate 21 .ok)).pstate = .uninitialized ∧
    (1 :: List.replicate 20 0).length = 21 ∧
    AllSucceed (fresh (.fail :: List.replicate 21 .ok)) 0 (1 :: List.replicate 20 0) :=
  ⟨rfl, by simp, allSucceed_retry 20 (by decide) rfl⟩

theorem witness_InitResult_lost (j : Nat) (hj : j < 21) :
    (fresh (lostAt j)).pstate = .uninitialized ∧
    (∃ tr, (initList (fresh (lostAt j)).cfg)[(List.replicate j 0).length]? = some tr) ∧
    AllSucceed (fresh (lostAt j)) 0 (List.replicate j 0) ∧
    IsLost (fresh (lostAt j)) (answersUsed (List.replicate j 0)) := by
  refine ⟨rfl, ⟨_, List.getElem?_eq_getElem ?_⟩, lostAt_loses rfl j rfl⟩
  simp [initList]; omega

end Sys2Proof.Tests
end

section
/-!
PROOFS, the scope of the block (00_scope.md): the reduction of a coordinate register, the invariant right
after a reset, and the parameters the spec chose.
-/

namespace Sys2Proof.Machine

/-! Coordinate registers (00 R9, R10) -/

/-- At 16 bits the reduction is R9's `wrap16`. -/
theorem wrapTo_sixteen (n : Int) : wrapTo 16 n = (n + 32768) % 65536 - 32768 := rfl

/-- The half range added before the reduction is taken off after it, so only the modulus matters. -/
theorem two_pow_dvd_wrapTo_sub (bits : Nat) (n : Int) : (2 : Int) ^ bits ∣ wrapTo bits n - n := by
  have hshift : wrapTo bits n - n =
      (n + 2 ^ (bits - 1)) % 2 ^ bits - (n + 2 ^ (bits - 1)) := by
    unfold wrapTo; ring
  rw [hshift]
  exact Int.dvd_emod_sub_self

/-- A register of 16 bits or more keeps every packet field (30 R95). -/
theorem wrapTo_toInt {bits : Nat} (hb : 16 ≤ bits) (v : S16) : wrapTo bits v.toInt = v.toInt :=
  wrapTo_of_packet hb (sext16_range v).1 (sext16_range v).2

/-- Settles O56: the formula at 16 bits, then range, congruence, identity and packet fields, one lemma
each. -/
theorem coordinateReduction : Obligations.CoordinateReduction :=
  ⟨wrapTo_sixteen, fun bits n hb =>
    ⟨wrapTo_range bits n, two_pow_dvd_wrapTo_sub bits n, wrapTo_of_range hb, wrapTo_toInt⟩⟩

/-! The state after a reset (10 R38) -/

/-- A slot that a reset leaves is good: its coordinates are reduced to the register's width, and being
never initialised it has no text. -/
theorem slotAfterReset_good (bits n k : Nat) : (Slot.afterReset bits n k).Good bits where
  ranges := ⟨wrapTo_range bits _, wrapTo_range bits _, wrapTo_range bits _⟩
  unset _ := rfl
  width hvalid := nomatch hvalid
  sweep hvalid := nomatch hvalid

/-- Every reset of a block whose parameters the invariant admits leaves a state that meets it, whatever
the values the spec leaves unspecified. -/
theorem afterReset_inv (n : Nat) {cfg : Config} (port : List Input) (answers : List Answer)
    (drawn : Nat) (hbits : 16 ≤ cfg.coordBits) (hslots : 1 ≤ cfg.nScroll ∧ cfg.nScroll ≤ 256) :
    (State.afterReset n cfg port answers drawn).Inv where
  grid := Memory.wf_ofLevels _
  size := by simp
  coordBits := hbits
  cursor := ⟨inCoord_zero _, inCoord_zero _⟩
  notResetting := by simp
  configuring := by simp
  slotCount := ⟨by simp, hslots⟩
  slots l hl := by
    obtain ⟨k, -, rfl⟩ := List.mem_map.mp hl
    exact slotAfterReset_good _ n k
  payloads := by simp

/-- Settles O13: the installed parameters are 16 bits and 4 slots, which the invariant admits. -/
theorem resetMeetsInvariant : Obligations.ResetMeetsInvariant :=
  afterReset_inv 0 [] [] 0 (by decide) (by decide)

/-- Settles O55: the state after reset carries the installed parameters. -/
theorem chosenParameters : Obligations.ChosenParameters :=
  ⟨rfl, rfl, rfl, rfl⟩

end Sys2Proof.Machine
end

section
/-!
PROOFS, the state of the block (10_state.md), first part: what every ending of a command keeps, and from
it the invariant of the block, the growth of `BUS` and the stickiness of `XFAIL`; then the moves of
`PSTATE` and the reset values.
-/

namespace Sys2Proof.Machine

/-! What a procedure leaves where it stops -/

theorem Run.finish_eq (r : Run) : ∃ st, r.finish = endWith st r.state := by
  cases r with
  | done t => exact ⟨.ok, rfl⟩
  | raised t => exact ⟨.xfail, rfl⟩

theorem Run.Within.reached {s : State} {r : Run} (h : r.Within s) : Reached s r.state := by
  cases r with
  | done t => exact h.1
  | raised t => exact h.1

/-- A procedure never clears `XFAIL` (10 R34). -/
theorem Run.Within.xfail_sticky {s : State} {r : Run} (h : r.Within s) (hx : s.xfail = true) :
    r.state.xfail = true := by
  cases r with
  | done t => exact h.2.trans hx
  | raised t => exact h.2.1

/-- A pulse and the `PSTATE` that HWRESET leaves stay within the frame of the sequencer. -/
theorem reached_hwreset (s : State) : Reached s { resetPulse s with pstate := .uninitialized } :=
  (reached_resetPulse s).trans ⟨rfl, List.prefix_refl _, fun h => h⟩

/-! What every ending keeps -/

/-- `PSTATE` is where it was, or at a state that holds between commands: not Resetting, and Configuring
only with `XFAIL` set (10 R29). -/
def PStateHolds (s t : State) : Prop :=
  t.pstate = s.pstate ∨ (t.pstate ≠ .resetting ∧ (t.pstate = .configuring → t.xfail = true))

/-- What no command breaks, from `s` to `t`: the three fields a drawing writes stay good, `BUS` grows at
its end by events with non-empty payloads, `XFAIL` is not cleared, and where `PSTATE` moves it moves to a
state that holds between commands (10 R29). -/
structure Kept (s t : State) : Prop where
  good : KeepsGood s t.grid t.tc t.scr
  cfg : t.cfg = s.cfg
  grows : s.bus <+: t.bus
  fits : (∀ e ∈ s.bus, e.PayloadFits) → ∀ e ∈ t.bus, e.PayloadFits
  xfail : s.xfail = true → t.xfail = true
  pstate : PStateHolds s t

/-- Only the grid changed, and it is as good as it was. -/
theorem KeepsGood.grid_only {s : State} {g : Memory}
    (hg : Memory.wf s.grid = true → Memory.wf g = true) : KeepsGood s g s.tc s.scr :=
  ⟨hg, fun h => h, rfl, fun _ h => h, fun _ h => h⟩

theorem Kept.refl (s : State) : Kept s s :=
  ⟨.grid_only fun h => h, rfl, List.prefix_refl _, fun h => h, fun h => h, .inl rfl⟩

/-- The end of a command writes `STATUS` and nothing else (60 R261). -/
theorem Kept.endWith {s t : State} (h : Kept s t) (st : Status) : Kept s (endWith st t) :=
  ⟨h.good, h.cfg, h.grows, h.fits, h.xfail, h.pstate⟩

/-- Taking an input from the port changes nothing else. -/
theorem Kept.of_port {s t : State} {later : List Input} (h : Kept { s with port := later } t) :
    Kept s t :=
  ⟨⟨h.good.grid, h.good.size, h.good.count, h.good.cursor, h.good.slots⟩, h.cfg, h.grows, h.fits,
    h.xfail, h.pstate⟩

/-- What a part of a transport command leaves, begun on a grid as good as that of `s`. -/
theorem Kept.of_reached {s t : State} {g : Memory} (h : Reached { s with grid := g } t)
    (hg : Memory.wf s.grid = true → Memory.wf g = true) (hx : s.xfail = true → t.xfail = true)
    (hp : PStateHolds s t) : Kept s t where
  good := by rw [h.grid, h.tc, h.scr]; exact .grid_only hg
  cfg := h.cfg
  grows := h.grows
  fits := h.fits
  xfail := hx
  pstate := hp

theorem Kept.of_within {s : State} {g : Memory} {r : Run} (h : r.Within { s with grid := g })
    (hg : Memory.wf s.grid = true → Memory.wf g = true)
    (hp : PStateHolds s r.state) : Kept s r.finish := by
  obtain ⟨st, hst⟩ := r.finish_eq
  rw [hst]
  exact (Kept.of_reached h.reached hg h.xfail_sticky hp).endWith st

theorem Kept.setPower (on : Bool) (s : State) : Kept s (setPower on s).finish := by
  refine .of_within (g := s.grid) (setPower_within on s) (fun h => h) ?_
  obtain ⟨t, ht, hp⟩ | ⟨t, ht, hp⟩ := setPower_pstate on s
  · rw [ht]
    exact .inr (by cases on <;> simp [Run.state, hp])
  · rw [ht]
    exact .inl hp

/-- INIT leaves `PSTATE` at Configuring only where it has raised XFAIL (40 R134, 10 R29). -/
theorem Kept.initSequence (s : State) : Kept s (initSequence s).finish := by
  have hw := initSequence_within s
  refine .of_within (g := s.grid) hw (fun h => h) (.inr ?_)
  obtain ⟨t, ht, hp⟩ | ⟨t, ht, hp⟩ := initSequence_pstate s
  · rw [ht]
    simp [Run.state, hp]
  · rw [ht] at hw ⊢
    exact ⟨by rcases hp with hp | hp <;> simp [Run.state, hp], fun _ => hw.2.1⟩

theorem Ending.kept {i : Instr} {s t : State} (h : Ending i s t) : Kept s t := by
  cases h with
  | refused st => exact (Kept.refl s).endWith st
  | drawn _ g tc scr hgood =>
    exact ⟨hgood, rfl, List.prefix_refl _, fun h => h, fun h => h, .inl rfl⟩
  | sent _ g hg r hr hp => exact .of_within hr hg (.inl hp)
  | power b => exact .setPower _ s
  | init => exact .initSequence s
  | hwreset =>
    exact (Kept.of_reached (g := s.grid) (reached_hwreset s) (fun h => h) (fun h => h)
      (.inr ⟨by simp, by simp⟩)).endWith .ok

/-- What a command keeps, it keeps the invariant with: a `PSTATE` that stays at Configuring stays there
with `XFAIL` set, which is not cleared. -/
theorem Kept.inv {s t : State} (h : Kept s t) (hs : s.Inv) : t.Inv where
  grid := h.good.grid hs.grid
  size := h.good.size hs.size
  coordBits := h.cfg ▸ hs.coordBits
  cursor := h.cfg ▸ h.good.cursor hs.coordBits hs.cursor
  notResetting := by
    rcases h.pstate with hp | ⟨hp, -⟩
    · exact hp ▸ hs.notResetting
    · exact hp
  configuring hc := by
    rcases h.pstate with hp | ⟨-, hp⟩
    · exact h.xfail (hs.configuring (hp.symm.trans hc))
    · exact hp hc
  slotCount := by rw [h.cfg, h.good.count]; exact hs.slotCount
  slots := by rw [h.cfg]; exact h.good.slots hs.coordBits hs.slots
  payloads := h.fits hs.payloads

/-- A step is a reset of the block, or it keeps what every command keeps. -/
theorem step_kept {s t : State} (h : step s = .next t) :
    (∃ later, s.port = .blockReset :: later ∧ t = resetBlock { s with port := later }) ∨
      Kept s t := by
  obtain ⟨-, hstep⟩ | ⟨later, hport, hstep⟩ |
    ⟨_, later, -, ⟨i, u, -, -, hstep, hend⟩ | ⟨st, -, hstep⟩ | hstep⟩ := step_cases s
  all_goals rw [hstep] at h; cases h
  · exact .inr (.refl s)
  · exact .inl ⟨later, hport, rfl⟩
  · exact .inr hend.kept.of_port
  · exact .inr ((Kept.refl _).endWith st).of_port

/-- Settles O14: a reset of the block leaves the invariant whatever was before it, and every other step
keeps it. -/
theorem stepKeepsInvariant : Obligations.StepKeepsInvariant := by
  intro s t hs h
  obtain ⟨later, -, rfl⟩ | hkept := step_kept h
  · exact afterReset_inv _ _ _ _ hs.coordBits hs.slotCount.2
  · exact hkept.inv hs

/-- Settles O15: a reset of the block keeps the parameters and is excluded for `BUS`; every other step
keeps both. -/
theorem busOnlyGrows : Obligations.BusOnlyGrows := by
  intro s t h
  obtain ⟨later, hport, rfl⟩ | hkept := step_kept h
  · exact ⟨rfl, fun hno => absurd hport (hno later)⟩
  · exact ⟨hkept.cfg, fun _ => hkept.grows⟩

/-- Settles O16: no step but a reset of the block clears `XFAIL`. -/
theorem xfailIsSticky : Obligations.XfailIsSticky := by
  intro s t h hset hclear
  obtain ⟨later, hport, -⟩ | hkept := step_kept h
  · exact ⟨later, hport⟩
  · exact absurd ((hkept.xfail hset).symm.trans hclear) (by decide)

/-! The moves of `PSTATE` (10 R28) -/

theorem ending_of_exec {i : Instr} {s t : State} (h : exec i s = .next t) : Ending i s t := by
  obtain ⟨u, hu, hend⟩ := exec_ending i s
  rw [hu] at h
  cases h
  exact hend

/-- Where the operand of SETPOWER puts `PSTATE` (40 R131, R132). -/
theorem flagOf_pstate (b : Byte) :
    (if flagOf b then PState.poweredOn else .poweredOff) =
      if b = 0 then .poweredOff else .poweredOn := by
  by_cases hb : b = 0 <;> simp [flagOf, hb]

/-- Settles O20, along the endings of a command: only the last three can move `PSTATE`. -/
theorem protocolStateMoves : Obligations.ProtocolStateMoves := by
  intro i s t h hmove
  cases ending_of_exec h with
  | refused => exact absurd rfl hmove
  | drawn => exact absurd rfl hmove
  | sent _ g _ r _ hp =>
    obtain ⟨st, hst⟩ := r.finish_eq
    rw [hst] at hmove
    exact absurd hp hmove
  | power b hi hs =>
    obtain ⟨u, hu, hp⟩ | ⟨u, hu, hp⟩ := setPower_pstate (flagOf b) s
    · rw [hu]
      exact .inr (.inl ⟨b, hi, hs, rfl, hp.trans (flagOf_pstate b)⟩)
    · rw [hu] at hmove
      exact absurd hp hmove
  | init hi hs =>
    obtain ⟨u, hu, hp⟩ | ⟨u, hu, hp⟩ := initSequence_pstate s
    · rw [hu]
      exact .inr (.inr ⟨hi, hs, .inl ⟨rfl, hp⟩⟩)
    · rw [hu]
      exact .inr (.inr ⟨hi, hs, .inr ⟨rfl, hp⟩⟩)
  | hwreset hi => exact .inl ⟨hi, rfl⟩

/-! Reset (10 R38) -/

/-- Settles O10: every field the spec gives a reset value holds it. -/
theorem resetValues : Obligations.ResetValues := by
  refine ⟨rfl, by simp [State.reset], fun l hl => ?_, rfl, rfl, rfl, rfl, rfl, rfl⟩
  obtain ⟨k, -, rfl⟩ := List.mem_map.mp hl
  exact ⟨rfl, rfl⟩

end Sys2Proof.Machine
end

section
/-!
PROOFS, the state of the block (10_state.md), second part: the records. `XFAIL`, the window shadows,
`STATUS` and `BUS` are written and never read (10 R30, R34, R36): two runs from states that differ only in
them stay in step, and a shadow that a run writes names a range it has sent.
-/

namespace Sys2Proof.Machine

/-! Two states that differ only in the records -/

/-- `s` with other records in place. -/
def State.withRecords (s : State) (x : Bool) (wc wr : Option (Byte × Byte)) (st : Status)
    (bus : List Event) : State :=
  { s with xfail := x, wincol := wc, winrow := wr, status := st, bus := bus }

/-- `u` is `s` but for the records. -/
def SameButRecords (s u : State) : Prop := ∃ x wc wr st bus, u = s.withRecords x wc wr st bus

theorem SameButRecords.refl (s : State) : SameButRecords s s := ⟨_, _, _, _, _, rfl⟩

section
variable {s u : State} (h : SameButRecords s u)
include h

theorem SameButRecords.cfg : u.cfg = s.cfg := by
  obtain ⟨_, _, _, _, _, rfl⟩ := h
  rfl

theorem SameButRecords.grid : u.grid = s.grid := by
  obtain ⟨_, _, _, _, _, rfl⟩ := h
  rfl

theorem SameButRecords.upcoming (k : Nat) : upcoming u k = upcoming s k := by
  obtain ⟨_, _, _, _, _, rfl⟩ := h
  exact upcoming_congr rfl rfl k

theorem SameButRecords.takeAnswer : SameButRecords (takeAnswer s) (takeAnswer u) := by
  obtain ⟨x, wc, wr, st, bus, rfl⟩ := h
  refine ⟨x, wc, wr, st, bus, ?_⟩
  unfold Machine.takeAnswer State.withRecords
  cases s.answers <;> rfl

theorem SameButRecords.emit (e : Event) : SameButRecords (emit e s) (emit e u) := by
  obtain ⟨x, wc, wr, st, bus, rfl⟩ := h
  exact ⟨x, wc, wr, st, bus ++ [e], rfl⟩

theorem SameButRecords.setXfail : SameButRecords (setXfail s) (setXfail u) := by
  obtain ⟨x, wc, wr, st, bus, rfl⟩ := h
  exact ⟨true, wc, wr, st, bus, rfl⟩

theorem SameButRecords.endWith (st : Status) : SameButRecords (endWith st s) (endWith st u) := by
  obtain ⟨x, wc, wr, _, bus, rfl⟩ := h
  exact ⟨x, wc, wr, st, bus, rfl⟩

theorem SameButRecords.pstate (p : PState) :
    SameButRecords { s with pstate := p } { u with pstate := p } := by
  obtain ⟨x, wc, wr, st, bus, rfl⟩ := h
  exact ⟨x, wc, wr, st, bus, rfl⟩

theorem SameButRecords.wincol (w : Option (Byte × Byte)) :
    SameButRecords { s with wincol := w } { u with wincol := w } := by
  obtain ⟨x, _, wr, st, bus, rfl⟩ := h
  exact ⟨x, w, wr, st, bus, rfl⟩

theorem SameButRecords.winrow (w : Option (Byte × Byte)) :
    SameButRecords { s with winrow := w } { u with winrow := w } := by
  obtain ⟨x, wc, _, st, bus, rfl⟩ := h
  exact ⟨x, wc, w, st, bus, rfl⟩

theorem SameButRecords.gridSet (g : Memory) :
    SameButRecords { s with grid := g } { u with grid := g } := by
  obtain ⟨x, wc, wr, st, bus, rfl⟩ := h
  exact ⟨x, wc, wr, st, bus, rfl⟩

end

/-! Two runs in step -/

/-- A shadow after two runs that sent `es`, from `w` and `x` to `w'` and `x'`: left alone by both, or
written by both, and then none or a range that a transaction with command byte `op` has sent. -/
def ShadowInStep (op : Byte) (es : List Event) (w x w' x' : Option (Byte × Byte)) : Prop :=
  (w' = w ∧ x' = x) ∨
    (x' = w' ∧ ∀ a b, w' = some (a, b) → Event.tx (.cmdData op [a, b]) .ok ∈ es)

theorem ShadowInStep.trans {op : Byte} {es fs : List Event}
    {w x w' x' w'' x'' : Option (Byte × Byte)}
    (h : ShadowInStep op es w x w' x') (h' : ShadowInStep op fs w' x' w'' x'') :
    ShadowInStep op (es ++ fs) w x w'' x'' := by
  obtain ⟨rfl, rfl⟩ | ⟨heq, hsent⟩ := h'
  · obtain h | ⟨heq, hsent⟩ := h
    · exact .inl h
    · exact .inr ⟨heq, fun a b hab => List.mem_append_left _ (hsent a b hab)⟩
  · exact .inr ⟨heq, fun a b hab => List.mem_append_right _ (hsent a b hab)⟩

/-- Two runs, from `s` to `s'` and from `u` to `u'`, are in step: they append the same events `es` to
`BUS` and end with the same state but for the records, each of which both left alone or both wrote. -/
structure InStep (es : List Event) (s u s' u' : State) : Prop where
  same : SameButRecords s' u'
  left : s'.bus = s.bus ++ es
  right : u'.bus = u.bus ++ es
  xfail : (s'.xfail = s.xfail ∧ u'.xfail = u.xfail) ∨ u'.xfail = s'.xfail
  wincol : ShadowInStep 0x15 es s.wincol u.wincol s'.wincol u'.wincol
  winrow : ShadowInStep 0x75 es s.winrow u.winrow s'.winrow u'.winrow

theorem InStep.refl {s u : State} (h : SameButRecords s u) : InStep [] s u s u :=
  ⟨h, by simp, by simp, .inl ⟨rfl, rfl⟩, .inl ⟨rfl, rfl⟩, .inl ⟨rfl, rfl⟩⟩

theorem InStep.trans {es fs : List Event} {s u s' u' s'' u'' : State} (h : InStep es s u s' u')
    (h' : InStep fs s' u' s'' u'') : InStep (es ++ fs) s u s'' u'' where
  same := h'.same
  left := by rw [h'.left, h.left, List.append_assoc]
  right := by rw [h'.right, h.right, List.append_assoc]
  xfail := by
    obtain ⟨hs, hu⟩ | heq := h'.xfail
    · rw [hs, hu]
      exact h.xfail
    · exact .inr heq
  wincol := h.wincol.trans h'.wincol
  winrow := h.winrow.trans h'.winrow

/-- One attempt and its answer, from two states that agree on the answers to come. -/
theorem inStep_attempt {s u : State} (h : SameButRecords s u) (t : Transaction) (r : Answer) :
    InStep [.tx t r] s u (emit (.tx t r) (takeAnswer s)) (emit (.tx t r) (takeAnswer u)) :=
  ⟨h.takeAnswer.emit _, by simp, by simp, .inl (by simp), .inl (by simp), .inl (by simp)⟩

section
variable {es : List Event} {s u s' u' : State} (h : InStep es s u s' u')
include h

theorem InStep.emit (e : Event) : InStep (es ++ [e]) s u (emit e s') (emit e u') :=
  h.trans ⟨h.same.emit e, rfl, rfl, .inl ⟨rfl, rfl⟩, .inl ⟨rfl, rfl⟩, .inl ⟨rfl, rfl⟩⟩

theorem InStep.setXfail : InStep es s u (setXfail s') (setXfail u') :=
  ⟨h.same.setXfail, h.left, h.right, .inr rfl, h.wincol, h.winrow⟩

theorem InStep.endWith (st : Status) : InStep es s u (endWith st s') (endWith st u') :=
  ⟨h.same.endWith st, h.left, h.right, h.xfail, h.wincol, h.winrow⟩

theorem InStep.pstate (p : PState) :
    InStep es s u { s' with pstate := p } { u' with pstate := p } :=
  ⟨h.same.pstate p, h.left, h.right, h.xfail, h.wincol, h.winrow⟩

theorem InStep.gridSet (g : Memory) :
    InStep es s u { s' with grid := g } { u' with grid := g } :=
  ⟨h.same.gridSet g, h.left, h.right, h.xfail, h.wincol, h.winrow⟩

/-- The column shadow is written after its range was sent (40 R129). -/
theorem InStep.column {a b : Byte} (hsent : Event.tx (.cmdData 0x15 [a, b]) .ok ∈ es) :
    InStep es s u { s' with wincol := some (a, b) } { u' with wincol := some (a, b) } :=
  ⟨h.same.wincol _, h.left, h.right, h.xfail, .inr ⟨rfl, fun _ _ hab => by cases hab; exact hsent⟩,
    h.winrow⟩

/-- The row shadow is written after its range was sent (40 R129). -/
theorem InStep.row {a b : Byte} (hsent : Event.tx (.cmdData 0x75 [a, b]) .ok ∈ es) :
    InStep es s u { s' with winrow := some (a, b) } { u' with winrow := some (a, b) } :=
  ⟨h.same.winrow _, h.left, h.right, h.xfail, h.wincol,
    .inr ⟨rfl, fun _ _ hab => by cases hab; exact hsent⟩⟩

end

/-- A reset pulse clears both shadows (40 R126). -/
theorem inStep_resetPulse {s u : State} (h : SameButRecords s u) :
    InStep pulseTrace s u (resetPulse s) (resetPulse u) := by
  refine ⟨?_, resetPulse_bus s, resetPulse_bus u, .inl ⟨rfl, rfl⟩, .inr ⟨rfl, nofun⟩,
    .inr ⟨rfl, nofun⟩⟩
  obtain ⟨x, _, _, st, bus, rfl⟩ := h
  exact ⟨x, none, none, st, _, rfl⟩

/-- Two procedures that stop alike, in step. -/
inductive RunsInStep (s u : State) : Run → Run → Prop
  | done {es : List Event} {s' u' : State} (h : InStep es s u s' u') :
      RunsInStep s u (.done s') (.done u')
  | raised {es : List Event} {s' u' : State} (h : InStep es s u s' u') :
      RunsInStep s u (.raised s') (.raised u')

theorem RunsInStep.after {es : List Event} {s u s' u' : State} {r q : Run} (h : InStep es s u s' u')
    (hr : RunsInStep s' u' r q) : RunsInStep s u r q := by
  cases hr with
  | done h' => exact .done (h.trans h')
  | raised h' => exact .raised (h.trans h')

theorem RunsInStep.andThen {s u : State} {r q : Run} {f g : State → Run} (h : RunsInStep s u r q)
    (hf : ∀ es s' u', r = .done s' → InStep es s u s' u' → RunsInStep s u (f s') (g u')) :
    RunsInStep s u (r.andThen f) (q.andThen g) := by
  cases h with
  | done h' => exact hf _ _ _ rfl h'
  | raised h' => exact .raised h'

/-! The procedures of the sequencer, in step -/

theorem attempts_inStep (t : Transaction) (left : Nat) {s u : State} (h : SameButRecords s u) :
    RunsInStep s u (attempts t left s) (attempts t left u) := by
  induction left generalizing s u with
  | zero =>
    cases hs : upcoming s 0 with
    | ok =>
      rw [attempts_ok_step t 0 hs, attempts_ok_step t 0 ((h.upcoming 0).trans hs)]
      exact .done (inStep_attempt h t .ok)
    | fail =>
      rw [attempts_last_fail t hs, attempts_last_fail t ((h.upcoming 0).trans hs)]
      exact .raised (inStep_attempt h t .fail).setXfail
  | succ left ih =>
    cases hs : upcoming s 0 with
    | ok =>
      rw [attempts_ok_step t _ hs, attempts_ok_step t _ ((h.upcoming 0).trans hs)]
      exact .done (inStep_attempt h t .ok)
    | fail =>
      rw [attempts_retry t left hs, attempts_retry t left ((h.upcoming 0).trans hs), h.cfg]
      have hretry := (inStep_attempt h t .fail).emit (.delay s.cfg.retryDelayMs)
      exact .after hretry (ih hretry.same)

theorem xact_inStep (t : Transaction) {s u : State} (h : SameButRecords s u) :
    RunsInStep s u (xact t s) (xact t u) := by
  unfold xact
  rw [h.cfg]
  exact attempts_inStep t _ h

/-- A transaction that succeeds has an attempt answered ok as its last event (40 R122). -/
theorem attempts_done_sent {t : Transaction} {left : Nat} {s v : State}
    (h : attempts t left s = .done v) : ∃ es, v.bus = s.bus ++ (es ++ [.tx t .ok]) := by
  induction left generalizing s with
  | zero =>
    cases hs : upcoming s 0 with
    | ok =>
      rw [attempts_ok_step t 0 hs] at h
      cases h
      exact ⟨[], by simp⟩
    | fail =>
      rw [attempts_last_fail t hs] at h
      cases h
  | succ left ih =>
    cases hs : upcoming s 0 with
    | ok =>
      rw [attempts_ok_step t _ hs] at h
      cases h
      exact ⟨[], by simp⟩
    | fail =>
      rw [attempts_retry t left hs] at h
      obtain ⟨es, hes⟩ := ih h
      exact ⟨.tx t .fail :: .delay s.cfg.retryDelayMs :: es, by simp [hes]⟩

theorem InStep.sent {es : List Event} {s u s' u' : State} {t : Transaction}
    (h : InStep es s u s' u') (hdone : xact t s = .done s') : Event.tx t .ok ∈ es := by
  obtain ⟨fs, hfs⟩ := attempts_done_sent hdone
  rw [List.append_cancel_left (h.left.symm.trans hfs)]
  simp

theorem xactAll_inStep (ts : List Transaction) {s u : State} (h : SameButRecords s u) :
    RunsInStep s u (xactAll ts s) (xactAll ts u) := by
  induction ts generalizing s u with
  | nil => exact .done (.refl h)
  | cons t rest ih => exact (xact_inStep t h).andThen fun _ _ _ _ h1 => .after h1 (ih h1.same)

theorem setWindow_inStep (cs ce rs re : Byte) {s u : State} (h : SameButRecords s u) :
    RunsInStep s u (setWindow cs ce rs re s) (setWindow cs ce rs re u) := by
  refine (xact_inStep _ h).andThen fun _ _ _ hcol h1 => ?_
  have hcolumn := h1.column (h1.sent hcol)
  refine .after hcolumn ((xact_inStep _ hcolumn.same).andThen fun _ _ _ hrow h2 => ?_)
  exact .done (h2.row (h2.sent hrow))

theorem setPower_inStep (on : Bool) {s u : State} (h : SameButRecords s u) :
    RunsInStep s u (setPower on s) (setPower on u) :=
  (xact_inStep _ h).andThen fun _ _ _ _ h1 => .done (h1.pstate _)

theorem refreshDisplay_inStep {s u : State} (h : SameButRecords s u) :
    RunsInStep s u (refreshDisplay s) (refreshDisplay u) := by
  unfold refreshDisplay
  rw [h.cfg]
  refine (setWindow_inStep _ _ _ _ h).andThen fun _ s1 u1 _ h1 => .after h1 ?_
  rw [refreshDisplay_tail, refreshDisplay_tail, h1.same.cfg, h1.same.grid]
  exact xactAll_inStep _ h1.same

theorem initSequence_inStep {s u : State} (h : SameButRecords s u) :
    RunsInStep s u (initSequence s) (initSequence u) := by
  have hpulse := (inStep_resetPulse h).pstate .configuring
  refine .after hpulse ((xact_inStep _ hpulse.same).andThen fun _ _ _ _ h1 => .after h1 ?_)
  rw [h1.same.cfg]
  refine (xactAll_inStep _ h1.same).andThen fun _ _ _ _ h2 => ?_
  have hoff := h2.pstate .poweredOff
  exact .after hoff ((xact_inStep _ hoff.same).andThen fun _ _ _ _ h3 => .done (h3.pstate _))

/-! The commands, in step -/

/-- Two commands that end in step and with the same status. -/
def CommandsInStep (s u : State) (o p : Host.Outcome State Fault Refusal) : Prop :=
  ∃ es s' u', o = .next s' ∧ p = .next u' ∧ InStep es s u s' u' ∧ u'.status = s'.status

theorem RunsInStep.finish {s u : State} {r q : Run} (h : RunsInStep s u r q) :
    CommandsInStep s u (.next r.finish) (.next q.finish) := by
  cases h with
  | done h => exact ⟨_, _, _, rfl, rfl, h.endWith .ok, rfl⟩
  | raised h => exact ⟨_, _, _, rfl, rfl, h.endWith .xfail, rfl⟩

theorem SameButRecords.refuse {s u : State} (h : SameButRecords s u) (st : Status) :
    CommandsInStep s u (.next (refuse st s)) (.next (refuse st u)) :=
  ⟨_, _, _, rfl, rfl, (InStep.refl h).endWith st, rfl⟩

/-- A drawing writes the same grid, text context and slots in both. -/
theorem SameButRecords.draw {s u : State} (h : SameButRecords s u) (g : Memory) (tc : TextContext)
    (scr : List Slot) :
    CommandsInStep s u (.next (complete { s with grid := g, tc := tc, scr := scr }))
      (.next (complete { u with grid := g, tc := tc, scr := scr })) := by
  refine ⟨[], _, _, rfl, rfl, ?_, rfl⟩
  obtain ⟨x, wc, wr, st, bus, rfl⟩ := h
  exact ⟨⟨x, wc, wr, .ok, bus, rfl⟩, by simp, by simp, .inl ⟨rfl, rfl⟩, .inl ⟨rfl, rfl⟩,
    .inl ⟨rfl, rfl⟩⟩

/-- Both commands take the same branch. -/
theorem CommandsInStep.ite {s u : State} {c : Prop} [Decidable c] {a b a' b' : State}
    (ht : CommandsInStep s u (.next a) (.next a')) (he : CommandsInStep s u (.next b) (.next b')) :
    CommandsInStep s u (.next (if c then a else b)) (.next (if c then a' else b')) := by
  split
  · exact ht
  · exact he

section
variable (s : State) (x : Bool) (wc wr : Option (Byte × Byte)) (st : Status) (bus : List Event)

theorem printChar_withRecords (c : Byte) :
    printChar c (s.withRecords x wc wr st bus) = (printChar c s).withRecords x wc wr st bus := by
  by_cases hc : c.toNat = 10
  · simp only [printChar, if_pos hc]
    rfl
  · simp only [printChar, if_neg hc]
    rw [apply_ite fun t : State => t.withRecords x wc wr st bus]
    rfl

theorem printString_withRecords (str : List Byte) :
    printString str (s.withRecords x wc wr st bus) =
      (printString str s).withRecords x wc wr st bus := by
  induction str generalizing s with
  | nil => rfl
  | cons c rest ih => rw [printString, printString, printChar_withRecords, ih]

end

theorem SameButRecords.print {s u : State} (h : SameButRecords s u) (str : List Byte) :
    CommandsInStep s u (.next (complete (printString str s)))
      (.next (complete (printString str u))) := by
  obtain ⟨g, cx, cy, hs, -, -⟩ := printString_shape str s
  have hdraw := h.draw g { s.tc with cx := cx, cy := cy } s.scr
  obtain ⟨x, wc, wr, st, bus, rfl⟩ := h
  rw [printString_withRecords, hs]
  exact hdraw

/-- A slot number below `N_SCROLL` without a slot counts as never initialised (log 15). -/
theorem scrtick_missing {s : State} {slot : Byte} (hk : slot.toNat < s.cfg.nScroll)
    (hs : s.scr[slot.toNat]? = none) :
    exec (.scrtick slot) s = .next (refuse .illegalState s) := by
  simp only [exec, execScrtick, if_neg (Nat.not_le.mpr hk), hs]

theorem SameButRecords.scrtick {s u : State} (h : SameButRecords s u) (slot : Byte) :
    CommandsInStep s u (exec (.scrtick slot) s) (exec (.scrtick slot) u) := by
  have hdraw := h.draw
  have hrefuse := h.refuse
  obtain ⟨x, wc, wr, st, bus, rfl⟩ := h
  have hcfg : (s.withRecords x wc wr st bus).cfg = s.cfg := rfl
  have hscr : (s.withRecords x wc wr st bus).scr = s.scr := rfl
  by_cases hk : s.cfg.nScroll ≤ slot.toNat
  · rw [scrtick_outside hk, scrtick_outside (hcfg ▸ hk)]
    exact hrefuse _
  · replace hk := Nat.not_le.mp hk
    cases hs : s.scr[slot.toNat]? with
    | none =>
      rw [scrtick_missing hk hs, scrtick_missing (hcfg ▸ hk) (hscr ▸ hs)]
      exact hrefuse _
    | some l =>
      cases hv : l.valid with
      | true =>
        rw [scrtick_valid hk hs hv, scrtick_valid (hcfg ▸ hk) (hscr ▸ hs) hv]
        exact hdraw _ _ _
      | false =>
        rw [scrtick_unset hk hs hv, scrtick_unset (hcfg ▸ hk) (hscr ▸ hs) hv]
        exact hrefuse _

/-- A refresh of the grid `g`, where it is admitted (40 R128). -/
theorem SameButRecords.refresh {s u : State} (h : SameButRecords s u) (g : Memory) :
    CommandsInStep s u (.next (refreshDisplay { s with grid := g }).finish)
      (.next (refreshDisplay { u with grid := g }).finish) :=
  (RunsInStep.after ((InStep.refl h).gridSet g) (refreshDisplay_inStep (h.gridSet g))).finish

theorem SameButRecords.raw {s u : State} (h : SameButRecords s u) (op : Byte) (p : List Byte) :
    CommandsInStep s u (.next (sendRaw op p s)) (.next (sendRaw op p u)) :=
  (xact_inStep _ h).finish

/-- No command reads a record: each case is a drawing, a refusal or a procedure of the sequencer, and
what it tests is not a record. -/
theorem exec_inStep (i : Instr) {s u : State} (h : SameButRecords s u) :
    CommandsInStep s u (exec i s) (exec i u) := by
  have hsame := h
  obtain ⟨x, wc, wr, st, bus, rfl⟩ := h
  cases i
  case setpixel | clear | drawchar | drawstroff | txtinit | setcursor | setcolor | setwrap | drawstr =>
    exact hsame.draw _ _ _
  case drawchars | setsize | scrinit => exact .ite (hsame.refuse _) (hsame.draw _ _ _)
  case blit4 | blit2 => exact .ite (hsame.draw _ _ _) (hsame.refuse _)
  case printchar c => exact hsame.print [c]
  case printstr str => exact hsame.print str
  case scrtick slot => exact hsame.scrtick slot
  case drawstrc | refresh | clrrefresh => exact .ite (hsame.refresh _) (hsame.refuse _)
  case sendcmdd => exact .ite (hsame.refuse _) (hsame.raw _ _)
  case setwin => exact (setWindow_inStep _ _ _ _ hsame).finish
  case setpower => exact .ite (setPower_inStep _ hsame).finish (hsame.refuse _)
  case init => exact .ite (initSequence_inStep hsame).finish (hsame.refuse _)
  case hwreset =>
    exact ⟨_, _, _, rfl, rfl, ((inStep_resetPulse hsame).pstate .uninitialized).endWith .ok, rfl⟩
  all_goals exact hsame.raw _ _

/-- Settles O23: the runs of a command from two states that differ only in the records are in step. -/
theorem recordsAreNotRead : Obligations.RecordsAreNotRead := by
  intro i s x wc wr st bus
  obtain ⟨es, t, u, ht, hu, hstep, hstatus⟩ :=
    exec_inStep i (u := s.withRecords x wc wr st bus) ⟨x, wc, wr, st, bus, rfl⟩
  refine ⟨t, u, ht, hu, ?_, ⟨es, hstep.left, hstep.right⟩, hstep.xfail,
    hstep.wincol.imp_right And.left, hstep.winrow.imp_right And.left⟩
  obtain ⟨_, _, _, _, _, rfl⟩ := hstep.same
  rw [← hstatus]
  rfl

/-! The window shadows (10 R30) -/

/-- A shadow that names a sent range still does after a run, in step with itself. -/
theorem ShadowInStep.sent {op : Byte} {bus es : List Event} {w w' : Option (Byte × Byte)}
    (h : ShadowInStep op es w w w' w')
    (hw : ∀ a b, w = some (a, b) → Event.tx (.cmdData op [a, b]) .ok ∈ bus) :
    ∀ a b, w' = some (a, b) → Event.tx (.cmdData op [a, b]) .ok ∈ bus ++ es := by
  intro a b hab
  obtain ⟨rfl, -⟩ | ⟨-, hsent⟩ := h
  · exact List.mem_append_left _ (hw a b hab)
  · exact List.mem_append_right _ (hsent a b hab)

/-- A command keeps the shadows naming sent ranges: in step with itself, it writes no other. -/
theorem exec_shadowsSent {i : Instr} {s t : State} (h : exec i s = .next t) (hs : s.ShadowsSent) :
    t.ShadowsSent := by
  obtain ⟨es, t₁, t₂, h₁, h₂, hstep, -⟩ := exec_inStep i (SameButRecords.refl s)
  rw [h] at h₁ h₂
  cases h₁
  cases h₂
  obtain ⟨hcol, hrow⟩ := hs
  unfold State.ShadowsSent
  rw [hstep.left]
  exact ⟨hstep.wincol.sent hcol, hstep.winrow.sent hrow⟩

/-- Settles O22: after a reset of the block no shadow is set, and a refused packet writes none. -/
theorem shadowsWereSent : Obligations.ShadowsWereSent := by
  intro s t hs h
  obtain ⟨-, hstep⟩ | ⟨later, -, hstep⟩ |
    ⟨_, later, -, ⟨i, u, -, hexec, -, -⟩ | ⟨st, -, hstep⟩ | hstep⟩ := step_cases s
  case inr.inr.inl => exact exec_shadowsSent (hexec.symm.trans h) hs
  all_goals rw [hstep] at h; cases h
  · exact hs
  · exact ⟨nofun, nofun⟩
  · exact hs

end Sys2Proof.Machine
end

section
/-!
PROOFS, the encoding (30_encoding.md): what each format reads, and from it that decoding and encoding are
inverse on host packets and on controller transactions; the three answers of the command port to a packet;
the bytes of a refresh row; and a controller row as one transaction.
-/

namespace Sys2Proof.Machine

/-! The formats read back what `encode` writes (30 R84 to R94) -/

@[simp] theorem formXYB_bytes (k : S16 → S16 → Byte → Instr) (x y : S16) (b : Byte) :
    formXYB k [loByte x, hiByte x, loByte y, hiByte y, b] = .ok (k x y b) := by
  simp [formXYB]

@[simp] theorem formXYBBB_bytes (k : S16 → S16 → Byte → Byte → Byte → Instr) (x y : S16)
    (c size color : Byte) :
    formXYBBB k [loByte x, hiByte x, loByte y, hiByte y, c, size, color] =
      .ok (k x y c size color) := by
  simp [formXYBBB]

@[simp] theorem formXYS_bytes (k : S16 → S16 → List Byte → Instr) (x y : S16) (str : List Byte) :
    formXYS k (loByte x :: hiByte x :: loByte y :: hiByte y :: str) = .ok (k x y str) := by
  simp [formXYS]

@[simp] theorem formXY_bytes (k : S16 → S16 → Instr) (x y : S16) :
    formXY k [loByte x, hiByte x, loByte y, hiByte y] = .ok (k x y) := by
  simp [formXY]

@[simp] theorem formKYS_bytes (k : Byte → S16 → List Byte → Instr) (slot : Byte) (y : S16)
    (text : List Byte) :
    formKYS k (slot :: loByte y :: hiByte y :: text) = .ok (k slot y text) := by
  simp [formKYS]

theorem formBlit_bytes {stride : Nat → Nat} (k : S16 → S16 → Byte → Byte → List Byte → Instr)
    (x y : S16) {w h : Byte} {data : List Byte} (hdata : data.length = h.toNat * stride w.toNat) :
    formBlit stride k (loByte x :: hiByte x :: loByte y :: hiByte y :: w :: h :: data) =
      .ok (k x y w h data) := by
  simp [formBlit, hdata]

theorem formBP_bytes (k : Byte → List Byte → Instr) (cop : Byte) {payload : List Byte}
    (hpayload : 1 ≤ payload.length) : formBP k (cop :: payload) = .ok (k cop payload) := by
  cases payload with
  | nil => simp at hpayload
  | cons p ps => rfl

/-- A well-formed host command is read back from its packet; a format without a 16-bit field and without
a length to check evaluates. -/
theorem decodePacket_encode {cfg : Config} {i : Instr} (hside : i.side = .host)
    (hwf : i.wellFormed cfg = true) : decodePacket (encode i) = .ok i := by
  cases i
  case setpixel | drawchar => exact formXYB_bytes _ _ _ _
  case drawchars => exact formXYBBB_bytes _ _ _ _ _ _
  case drawstroff | drawstr => exact formXYS_bytes _ _ _ _
  case setcursor => exact formXY_bytes _ _ _
  case scrinit => exact formKYS_bytes _ _ _ _
  case blit4 | blit2 => exact formBlit_bytes _ _ _ (of_decide_eq_true hwf).1
  case sendcmdd => exact formBP_bytes _ _ (of_decide_eq_true hwf).1
  case clear | drawstrc | txtinit | setsize | setcolor | setwrap | printchar | printstr | scrtick
    | refresh | clrrefresh | sendcmd | hwreset | setwin | setpower | init => rfl
  all_goals cases hside

/-- Settles O1. -/
theorem decodeEncodeHost : Obligations.DecodeEncodeHost := fun _ _ hside hwf =>
  decodePacket_encode hside hwf

/-! What each format reads is a packet of the command it gives (30 R82, R98) -/

/-- `pkt` is the packet of the host command `i`, which is well formed wherever the port admits `pkt`. -/
structure IsPacketOf (pkt : List Byte) (i : Instr) : Prop where
  encoded : encode i = pkt
  host : i.side = .host
  wellFormed : ∀ cfg : Config, pkt.length ≤ cfg.pktMax → i.wellFormed cfg = true

/-- A format's answer to the bytes `rest` after the opcode: a command of which these are the packet, or
MALFORMED. -/
def ReadsOrMalformed (op : Byte) (rest : List Byte) (r : Except DecodeError Instr) : Prop :=
  (∃ i, r = .ok i ∧ IsPacketOf (op :: rest) i) ∨ r = .error .malformed

section
variable {op : Byte} {rest : List Byte}

theorem formNone_reads {i : Instr} (hk : IsPacketOf [op] i) :
    ReadsOrMalformed op rest (formNone i rest) := by
  unfold formNone
  split
  · exact .inl ⟨_, rfl, hk⟩
  · exact .inr rfl

theorem formXYB_reads {k : S16 → S16 → Byte → Instr}
    (hk : ∀ x y b, IsPacketOf [op, loByte x, hiByte x, loByte y, hiByte y, b] (k x y b)) :
    ReadsOrMalformed op rest (formXYB k rest) := by
  unfold formXYB
  split
  · exact .inl ⟨_, rfl, by simpa using hk (joinBytes _ _) (joinBytes _ _) _⟩
  · exact .inr rfl

theorem formXYBBB_reads {k : S16 → S16 → Byte → Byte → Byte → Instr}
    (hk : ∀ x y c size color,
      IsPacketOf [op, loByte x, hiByte x, loByte y, hiByte y, c, size, color]
        (k x y c size color)) :
    ReadsOrMalformed op rest (formXYBBB k rest) := by
  unfold formXYBBB
  split
  · exact .inl ⟨_, rfl, by simpa using hk (joinBytes _ _) (joinBytes _ _) _ _ _⟩
  · exact .inr rfl

theorem formXYS_reads {k : S16 → S16 → List Byte → Instr}
    (hk : ∀ x y str,
      IsPacketOf (op :: loByte x :: hiByte x :: loByte y :: hiByte y :: str) (k x y str)) :
    ReadsOrMalformed op rest (formXYS k rest) := by
  unfold formXYS
  split
  · exact .inl ⟨_, rfl, by simpa using hk (joinBytes _ _) (joinBytes _ _) _⟩
  · exact .inr rfl

theorem formXY_reads {k : S16 → S16 → Instr}
    (hk : ∀ x y, IsPacketOf [op, loByte x, hiByte x, loByte y, hiByte y] (k x y)) :
    ReadsOrMalformed op rest (formXY k rest) := by
  unfold formXY
  split
  · exact .inl ⟨_, rfl, by simpa using hk (joinBytes _ _) (joinBytes _ _)⟩
  · exact .inr rfl

theorem formB_reads {k : Byte → Instr} (hk : ∀ b, IsPacketOf [op, b] (k b)) :
    ReadsOrMalformed op rest (formB k rest) := by
  unfold formB
  split
  · exact .inl ⟨_, rfl, hk _⟩
  · exact .inr rfl

theorem formKYS_reads {k : Byte → S16 → List Byte → Instr}
    (hk : ∀ slot y text, IsPacketOf (op :: slot :: loByte y :: hiByte y :: text) (k slot y text)) :
    ReadsOrMalformed op rest (formKYS k rest) := by
  unfold formKYS
  split
  · exact .inl ⟨_, rfl, by simpa using hk _ (joinBytes _ _) _⟩
  · exact .inr rfl

theorem formBlit_reads {stride : Nat → Nat} {k : S16 → S16 → Byte → Byte → List Byte → Instr}
    (hk : ∀ x y w h data, data.length = h.toNat * stride w.toNat →
      IsPacketOf (op :: loByte x :: hiByte x :: loByte y :: hiByte y :: w :: h :: data)
        (k x y w h data)) :
    ReadsOrMalformed op rest (formBlit stride k rest) := by
  unfold formBlit
  split
  · split
    · next hdata =>
      exact .inl ⟨_, rfl, by simpa using hk (joinBytes _ _) (joinBytes _ _) _ _ _ hdata⟩
    · exact .inr rfl
  · exact .inr rfl

theorem formBP_reads {k : Byte → List Byte → Instr}
    (hk : ∀ cop p payload, IsPacketOf (op :: cop :: p :: payload) (k cop (p :: payload))) :
    ReadsOrMalformed op rest (formBP k rest) := by
  unfold formBP
  split
  · exact .inl ⟨_, rfl, hk _ _ _⟩
  · exact .inr rfl

theorem formWin_reads {k : Byte → Byte → Byte → Byte → Instr}
    (hk : ∀ cs ce rs re, IsPacketOf [op, cs, ce, rs, re] (k cs ce rs re)) :
    ReadsOrMalformed op rest (formWin k rest) := by
  unfold formWin
  split
  · exact .inl ⟨_, rfl, hk _ _ _ _⟩
  · exact .inr rfl

end

/-! The table of 30 R83 -/

theorem isHostOpcode_iff {op : Byte} : isHostOpcode op = true ↔
    op.toNat ∈ [0x10, 0x11, 0x20, 0x21, 0x22, 0x23, 0x30, 0x31, 0x32, 0x33, 0x34, 0x35, 0x36, 0x37,
      0x40, 0x41, 0x50, 0x51, 0x60, 0x61, 0x80, 0x81, 0x82, 0x83, 0x84, 0x85] :=
  List.contains_iff_mem

/-- An opcode of the table is read by its format (30 R83). -/
theorem decodeHost_known {op : Byte} (rest : List Byte) (hop : isHostOpcode op = true) :
    ReadsOrMalformed op rest (decodeHost op rest) := by
  unfold decodeHost
  split
  case h_27 => simp_all [isHostOpcode]
  all_goals obtain rfl := byte_of_toNat ‹_›
  case h_1 | h_3 => exact formXYB_reads fun _ _ _ => ⟨rfl, rfl, fun _ _ => rfl⟩
  case h_4 => exact formXYBBB_reads fun _ _ _ _ _ => ⟨rfl, rfl, fun _ _ => rfl⟩
  case h_5 | h_13 => exact .inl ⟨_, rfl, rfl, rfl, fun _ => decide_eq_true⟩
  case h_6 | h_14 => exact formXYS_reads fun _ _ _ => ⟨rfl, rfl, fun _ => decide_eq_true⟩
  case h_8 => exact formXY_reads fun _ _ => ⟨rfl, rfl, fun _ _ => rfl⟩
  case h_9 | h_10 | h_11 | h_12 | h_16 | h_21 | h_25 =>
    exact formB_reads fun _ => ⟨rfl, rfl, fun _ _ => rfl⟩
  case h_15 => exact formKYS_reads fun _ _ _ => ⟨rfl, rfl, fun _ => decide_eq_true⟩
  case h_17 | h_18 =>
    exact formBlit_reads fun _ _ _ _ _ hdata =>
      ⟨rfl, rfl, fun _ hlength => decide_eq_true ⟨hdata, hlength⟩⟩
  case h_22 =>
    exact formBP_reads fun _ _ _ =>
      ⟨rfl, rfl, fun _ hlength => decide_eq_true ⟨by simp, hlength⟩⟩
  case h_24 => exact formWin_reads fun _ _ _ _ => ⟨rfl, rfl, fun _ _ => rfl⟩
  all_goals exact formNone_reads ⟨rfl, rfl, fun _ _ => rfl⟩

/-- Every other opcode is reserved (30 R96). -/
theorem decodeHost_reserved {op : Byte} (rest : List Byte) (hop : ¬ isHostOpcode op = true) :
    decodeHost op rest = .error .illegalOpcode := by
  unfold decodeHost
  split
  case h_27 => rfl
  all_goals simp [isHostOpcode, *] at hop

theorem decodePacket_isPacketOf {pkt : List Byte} {i : Instr} (h : decodePacket pkt = .ok i) :
    IsPacketOf pkt i := by
  cases pkt with
  | nil => cases h
  | cons op rest =>
    by_cases hop : isHostOpcode op = true
    · obtain ⟨j, hj, hpkt⟩ | hmalformed := decodeHost_known rest hop
      · cases h.symm.trans hj
        exact hpkt
      · cases h.symm.trans hmalformed
    · cases h.symm.trans (decodeHost_reserved rest hop)

/-- Settles O3. -/
theorem decodedPacketIsEncoding : Obligations.DecodedPacketIsEncoding := fun _ _ h =>
  have hpkt := decodePacket_isPacketOf h
  ⟨hpkt.encoded, hpkt.host, hpkt.wellFormed⟩

/-! Controller transactions (30 R100, R101) -/

/-- A well-formed controller row is read back from its bytes; only the write-RAM byte has a length to
check. -/
theorem decodeWire_encode {cfg : Config} {i : Instr} (hside : i.side = .controller)
    (hwf : i.wellFormed cfg = true) : decodeWire (encode i) = .ok i := by
  cases i
  case cWriteram => exact if_pos (of_decide_eq_true hwf)
  case cSetcol | cSetrow | cDispoff | cDispon | cEntireNormal | cEntireOn | cLock | cClkdiv | cMux
    | cOffset | cFuncsel | cStartline | cRemap | cMastercontrast | cContrast | cPhase | cPrecharge
    | cEnha | cVcomh | cNormal | cExitpartial | cEnhb | cGpio | cDefgray | cPrecharge2 => rfl
  all_goals cases hside

theorem decodeTransaction_transactionOf (op : Byte) (payload : List Byte) :
    decodeTransaction (transactionOf op payload) = decodeWire (op :: payload) := by
  cases payload <;> rfl

theorem encode_eq_cons (i : Instr) : ∃ op payload, encode i = op :: payload := by
  cases i <;> exact ⟨_, _, rfl⟩

/-- The transaction of a controller row carries the row's bytes (30 R101). -/
theorem rawTransaction_controller {i : Instr} (hside : i.side = .controller) :
    ∃ op payload, encode i = op :: payload ∧
      rawTransaction i = some (transactionOf op payload) := by
  obtain ⟨op, payload, hbytes⟩ := encode_eq_cons i
  refine ⟨op, payload, hbytes, ?_⟩
  unfold rawTransaction
  split
  case h_4 =>
    rw [hside, hbytes]
    cases payload <;> rfl
  all_goals cases hside

/-- Settles O2: the controller side reads in the transaction of a row the row's bytes. -/
theorem decodeEncodeController : Obligations.DecodeEncodeController := by
  intro cfg i t hside hwf ht
  obtain ⟨op, payload, hbytes, htransaction⟩ := rawTransaction_controller hside
  cases htransaction.symm.trans ht
  rw [decodeTransaction_transactionOf, ← hbytes]
  exact decodeWire_encode hside hwf

/-- Settles O4: each of the sample words evaluates. -/
theorem sampleWordsDecode : Obligations.SampleWordsDecode :=
  ⟨rfl, rfl, rfl, rfl, rfl, rfl, rfl, rfl, rfl⟩

/-! Lengths (30 R83) -/

/-- The packet of a well-formed host command has a length of the table of 30 R83. -/
theorem lengthFits_encode {cfg : Config} {i : Instr} (hside : i.side = .host)
    (hwf : i.wellFormed cfg = true) : lengthFits (encode i) = true := by
  cases i
  case drawstrc | printstr | drawstroff | drawstr | scrinit => simp [lengthFits, encode]
  case blit4 x y w h data | blit2 x y w h data =>
    obtain ⟨hdata, -⟩ := of_decide_eq_true hwf
    simp [lengthFits, encode, hdata, stride4, stride2]
    omega
  case sendcmdd cop payload =>
    obtain ⟨hpayload, -⟩ := of_decide_eq_true hwf
    simpa [lengthFits, encode] using hpayload
  case setpixel | clear | drawchar | drawchars | txtinit | setcursor | setsize | setcolor | setwrap
    | printchar | scrtick | refresh | clrrefresh | sendcmd | hwreset | setwin | setpower | init => rfl
  all_goals cases hside

/-- A packet of a known opcode and of a length that does not fit it is MALFORMED (30 R97): what decodes
is the packet of a command, whose length fits. -/
theorem decodePacket_malformed {op : Byte} {rest : List Byte} (hop : isHostOpcode op = true)
    (hlength : lengthFits (op :: rest) = false) :
    decodePacket (op :: rest) = .error .malformed := by
  obtain ⟨i, -, hpkt⟩ | hmalformed := decodeHost_known rest hop
  · have hwf := hpkt.wellFormed { Config.installed with pktMax := (op :: rest).length } le_rfl
    have hfits := lengthFits_encode hpkt.host hwf
    rw [hpkt.encoded, hlength] at hfits
    cases hfits
  · exact hmalformed

/-! The command port (30 R80 to R82, R96, R97) -/

section
variable {s : State} {pkt : List Byte} {later : List Input} (hport : s.port = .packet pkt :: later)
include hport

theorem step_decoded {i : Instr} (h : readPacket s.cfg pkt = .ok i) :
    step s = exec i { s with port := later } := by
  simp only [step, fetch, hport, h]

theorem step_rejected {e : DecodeError} (h : readPacket s.cfg pkt = .error e) :
    step s = rejectPacket e { s with port := later } := by
  simp only [step, fetch, hport, h]

end

theorem readPacket_presented {cfg : Config} {op : Byte} {rest : List Byte}
    (h : rest.length < cfg.pktMax) : readPacket cfg (op :: rest) = decodePacket (op :: rest) :=
  if_pos (decide_eq_true ⟨by simp, h⟩)

theorem readPacket_unpresentable {cfg : Config} {pkt : List Byte}
    (h : pkt.length = 0 ∨ cfg.pktMax < pkt.length) :
    readPacket cfg pkt = .error .notPresentable := by
  have hpresentable : ¬ presentable cfg pkt = true := by
    simp only [presentable, decide_eq_true_eq]
    omega
  exact if_neg hpresentable

/-- Settles O7. -/
theorem stepRunsDecoded : Obligations.StepRunsDecoded := fun _ _ _ _ hport hlength hdecodes =>
  step_decoded hport (readPacket_of_decodes hlength hdecodes)

/-- Settles O9. -/
theorem unpresentablePacketFaults : Obligations.UnpresentablePacketFaults := fun _ _ _ hport h =>
  step_rejected hport (readPacket_unpresentable h)

/-- Settles O5: the packet is presented and its opcode reserved. -/
theorem reservedOpcodeRefused : Obligations.ReservedOpcodeRefused :=
  fun _ _ rest _ hport hlength hop =>
    have hreserved := decodeHost_reserved rest (mt isHostOpcode_iff.mp hop)
    step_rejected hport ((readPacket_presented hlength).trans hreserved)

/-- Settles O6: the packet is presented and MALFORMED, before any command runs (R265). -/
theorem wrongLengthRefused : Obligations.WrongLengthRefused :=
  fun _ _ _ _ hport hlength hop hfits =>
    have hmalformed := decodePacket_malformed (isHostOpcode_iff.mpr hop) hfits
    step_rejected hport ((readPacket_presented hlength).trans hmalformed)

/-- Settles O11: the codes evaluate. -/
theorem statusCodes : Obligations.StatusCodes :=
  ⟨rfl, rfl, rfl, rfl, rfl, rfl⟩

/-! Refresh rows (30 R104, R105) -/

/-- Where every element gives two equal ones, the first of the two stands at twice its place. -/
theorem getElem?_flatMap_twice {α β : Type} (f : α → β) (l : List α) (x : Nat) :
    (l.flatMap fun a => [f a, f a])[2 * x]? = l[x]?.map f ∧
      (l.flatMap fun a => [f a, f a])[2 * x + 1]? = l[x]?.map f := by
  induction l generalizing x with
  | nil => simp
  | cons a l ih =>
    cases x with
    | zero => simp
    | succ x => simpa [Nat.mul_add] using ih x

theorem rowBytes_length (m : Memory) (y : Nat) : (rowBytes m y).length = 256 := by
  simp [rowBytes]

theorem rowBytes_getElem? (m : Memory) (y : Nat) {x : Nat} (hx : x < 128) :
    (rowBytes m y)[2 * x]? = some (expand (cell m x y)) ∧
      (rowBytes m y)[2 * x + 1]? = some (expand (cell m x y)) := by
  have htwice := getElem?_flatMap_twice (fun x => expand (cell m x y)) (List.range 128) x
  rwa [List.getElem?_range hx] at htwice

/-- The table of 30 R104, level by level. -/
theorem expand_eq (v : Level) :
    expand v = if v = 0 then 0x00 else if v = 1 then 0x55 else if v = 2 then 0xAA else 0xFF := by
  revert v
  decide

/-- Settles O27. -/
theorem rowBytesDoubled : Obligations.RowBytesDoubled := by
  refine fun m y => ⟨rowBytes_length m y, fun x hx => ?_⟩
  obtain ⟨heven, hodd⟩ := rowBytes_getElem? m y hx
  exact ⟨heven.trans (congrArg some (expand_eq _)), hodd.trans heven.symm⟩

/-! Commands of one raw transaction (40 R122, R124, R125; 30 R100) -/

section
variable {i : Instr} {tr : Transaction} (htr : rawTransaction i = some tr) {s : State}
include htr

/-- Sent after `k` failed attempts: status OK, and nothing else but the events and the answers used. -/
theorem exec_raw_sent {k : Nat} (h : SucceedsAfter s 0 k) : ∃ ans dr,
    exec i s = .next { s with
      bus := s.bus ++ okTrace tr s.cfg.retryDelayMs k
      status := .ok, answers := ans, drawn := dr } ∧
    UsedAnswers s { s with answers := ans, drawn := dr } (k + 1) := by
  obtain ⟨ans, dr, hrun, hused⟩ := xact_succeeds tr h
  exact ⟨ans, dr, by rw [exec_raw htr, hrun]; rfl, hused⟩

/-- Lost on every attempt: `XFAIL` besides, and status XFAIL. -/
theorem exec_raw_lost (h : IsLost s 0) : ∃ ans dr,
    exec i s = .next { s with
      bus := s.bus ++ lostTrace tr s.cfg.retryDelayMs s.cfg.retryMax
      xfail := true, status := .xfail, answers := ans, drawn := dr } ∧
    UsedAnswers s { s with answers := ans, drawn := dr } (s.cfg.retryMax + 1) := by
  obtain ⟨ans, dr, hrun, hused⟩ := xact_lost tr h
  exact ⟨ans, dr, by rw [exec_raw htr, hrun]; rfl, hused⟩

end

/-- Settles O49: a controller row is one raw transaction. -/
theorem controllerRowResult : Obligations.ControllerRowResult := by
  intro i hside
  obtain ⟨op, payload, -, htr⟩ := rawTransaction_controller hside
  exact ⟨_, htr, fun s => ⟨fun k h => exec_raw_sent htr h, fun h => exec_raw_lost htr h⟩⟩

end Sys2Proof.Machine
end

section
/-!
PROOFS, the protocol sequencer (40_protocol.md): the admission table; raw transactions, and a
controller row as one of them; the reset pulse; and SETWIN, SETPOWER and INIT, from what their
procedures leave when every transaction succeeds and when one is lost.
-/

namespace Sys2Proof.Machine

/-! Admission by `PSTATE` (40 R128) -/

/-- A command outside the admission table is refused before any part of it runs. -/
theorem exec_not_admitted {i : Instr} {s : State} (h : admitted i s.pstate = false) :
    exec i s = .next (refuse .illegalState s) := by
  cases i
  case init => exact congrArg _ (if_neg (beq_eq_false_iff_ne.mp h))
  case setpower | refresh | clrrefresh | drawstrc =>
    have hoff : ¬ isPowered s = true := Bool.eq_false_iff.mp h
    exact congrArg _ (if_neg hoff)
  all_goals cases h

/-- An admitted command that is no drawing runs a procedure of the sequencer to its end, but for a
SENDCMDD without a payload (log 12). -/
theorem exec_sequencer {i : Instr} {s : State} (hdraw : isDrawing i = false)
    (hadm : admitted i s.pstate = true) :
    (∃ r : Run, exec i s = .next r.finish) ∨ ∃ cop, i = .sendcmdd cop [] := by
  cases i
  case setpixel | clear | drawchar | drawchars | drawstroff | txtinit | setcursor | setsize
    | setcolor | setwrap | printchar | printstr | drawstr | scrinit | scrtick | blit4 | blit2 =>
    cases hdraw
  case init => exact .inl ⟨_, congrArg _ (if_pos (eq_of_beq hadm))⟩
  case setpower | refresh | clrrefresh | drawstrc =>
    have hon : isPowered s = true := hadm
    exact .inl ⟨_, congrArg _ (if_pos hon)⟩
  case sendcmdd cop payload =>
    cases payload with
    | nil => exact .inr ⟨cop, rfl⟩
    | cons p payload => exact .inl ⟨_, rfl⟩
  case hwreset => exact .inl ⟨.done _, rfl⟩
  all_goals exact .inl ⟨_, rfl⟩

/-- A procedure ends with OK or XFAIL. -/
theorem Run.finish_status_ne (r : Run) : r.finish.status ≠ .illegalState := by
  cases r <;> nofun

/-- Of the drawings only SCRTICK has a state to refuse. -/
theorem Ending.drawing_illegalState {i : Instr} {s t : State} (h : Ending i s t)
    (hdraw : isDrawing i = true) (hst : t.status = .illegalState) : ∃ slot, i = .scrtick slot := by
  cases h with
  | refused st _ hslot => exact hslot hdraw hst
  | drawn => cases hst
  | sent _ _ _ r => exact absurd hst r.finish_status_ne
  | power => exact absurd hst (Run.finish_status_ne _)
  | init => exact absurd hst (Run.finish_status_ne _)
  | hwreset => cases hst

/-- SCRTICK refuses the state of a slot only where it was never initialised (44 R235). -/
theorem scrtick_illegalState {s t : State} {slot : Byte} {l : Slot}
    (h : exec (.scrtick slot) s = .next t) (hst : t.status = .illegalState)
    (hl : s.scr[slot.toNat]? = some l) : l.valid = false := by
  cases hv : l.valid with
  | false => rfl
  | true =>
    by_cases hk : s.cfg.nScroll ≤ slot.toNat
    · cases (scrtick_outside hk).symm.trans h
      cases hst
    · cases (scrtick_valid (Nat.not_le.mp hk) hl hv).symm.trans h
      cases hst

theorem exec_admitted_illegalState {i : Instr} {s t : State} (hadm : admitted i s.pstate = true)
    (h : exec i s = .next t) (hst : t.status = .illegalState) :
    ∃ slot, i = .scrtick slot ∧ ∀ l, s.scr[slot.toNat]? = some l → l.valid = false := by
  cases hdraw : isDrawing i with
  | true =>
    obtain ⟨slot, rfl⟩ := (ending_of_exec h).drawing_illegalState hdraw hst
    exact ⟨slot, rfl, fun _ => scrtick_illegalState h hst⟩
  | false =>
    obtain ⟨r, hr⟩ | ⟨cop, rfl⟩ := exec_sequencer hdraw hadm
    · cases hr.symm.trans h
      exact absurd hst r.finish_status_ne
    · cases h
      cases hst

/-- Settles O21: every command answers a next state, and the table says which status it may have. -/
theorem admissionTable : Obligations.AdmissionTable := by
  intro i s _
  obtain ⟨t, ht, -⟩ := exec_ending i s
  exact ⟨exec_not_admitted, fun hadm => ⟨t, ht, exec_admitted_illegalState hadm ht⟩⟩

/-! Raw commands (40 R124, R125, R142) -/

/-- Settles O48: SENDCMD and SENDCMDD are commands of one raw transaction. -/
theorem rawSendResult : Obligations.RawSendResult :=
  ⟨fun _ => ⟨rfl, rfl⟩, fun _ _ _ => ⟨rfl, rfl, rfl⟩,
    fun _ _ _ _ htr => ⟨fun _ h => exec_raw_sent htr h, exec_raw_lost htr⟩⟩

/-- The packet made from a controller row's bytes is the raw command of the row's transaction. -/
theorem decodePacket_rawPacket (op : Byte) (payload : List Byte) :
    ∃ raw, decodePacket (rawPacket (op :: payload)) = .ok raw ∧
      rawTransaction raw = some (transactionOf op payload) := by
  cases payload with
  | nil => exact ⟨.sendcmd op, rfl, rfl⟩
  | cons p payload => exact ⟨.sendcmdd op (p :: payload), rfl, rfl⟩

/-- Settles O50: what one raw transaction does depends on the transaction alone. -/
theorem controllerRowIsRawSend : Obligations.ControllerRowIsRawSend := by
  intro i hside
  obtain ⟨op, payload, hbytes, htr⟩ := rawTransaction_controller hside
  obtain ⟨raw, hdecodes, hraw⟩ := decodePacket_rawPacket op payload
  refine ⟨raw, ?_, hraw.trans htr.symm, fun s => ?_⟩
  · rw [hbytes]
    exact hdecodes
  · rw [exec_raw htr, exec_raw hraw]

/-! The reset pulse (40 R126, R127) -/

theorem resetPulse_eq (s : State) : resetPulse s = { s with
    pstate := .resetting, wincol := none, winrow := none, bus := s.bus ++ pulseTrace } := by
  rw [pulseTrace, ← resetPulse_bus]
  rfl

/-- Settles O51. -/
theorem hwresetResult : Obligations.HwresetResult := by
  refine ⟨rfl, fun s => ?_⟩
  rw [exec, execHwreset, resetPulse_eq]
  rfl

/-! Commands that run a procedure of the sequencer to its end (40 R123) -/

section
variable {i : Instr} {s t : State} {r : Run} (hexec : exec i s = .next r.finish)
include hexec

theorem exec_of_done (h : r = .done t) : exec i s = .next { t with status := .ok } := by
  rw [hexec, h]
  rfl

theorem exec_of_raised (h : r = .raised t) : exec i s = .next { t with status := .xfail } := by
  rw [hexec, h]
  rfl

end

/-! The address window (40 R129, R130) -/

/-- Settles O52: `SetWindow` with both transactions sent, the row lost, or the column lost. -/
theorem setwinResult : Obligations.SetwinResult := by
  intro s cs ce rs re
  have hexec : exec (.setwin cs ce rs re) s = .next (setWindow cs ce rs re s).finish := rfl
  refine ⟨rfl, fun k m h => ?_, fun k hcol hrow => ?_, fun hcol => ?_⟩
  · obtain ⟨ans, dr, hrun, -⟩ := setWindow_succeeds cs ce rs re h
    exact ⟨ans, dr, exec_of_done hexec hrun⟩
  · obtain ⟨ans, dr, hrun⟩ := setWindow_row_lost cs ce rs re hcol hrow
    exact ⟨ans, dr, exec_of_raised hexec hrun⟩
  · obtain ⟨ans, dr, hrun⟩ := setWindow_col_lost cs ce rs re hcol
    exact ⟨ans, dr, exec_of_raised hexec hrun⟩

/-! Power (40 R131, R132) -/

/-- A flag operand is set where its byte is not 0. -/
theorem ite_flagOf {α : Type} (b : Byte) (x y : α) :
    (if flagOf b then x else y) = if b = 0 then y else x := by
  by_cases hb : b = 0 <;> simp [flagOf, hb]

theorem exec_setpower_powered (b : Byte) {s : State} (h : isPowered s = true) :
    exec (.setpower b) s = .next (setPower (flagOf b) s).finish :=
  congrArg _ (if_pos h)

/-- Settles O53: refused by the admission table, or `SetPower` with its transaction sent or lost. -/
theorem setpowerResult : Obligations.SetpowerResult := by
  intro s b
  refine ⟨rfl, fun hoff hon => exec_not_admitted (isPowered_false s hoff hon), fun hpowered => ?_⟩
  have hexec := exec_setpower_powered b ((isPowered_iff s).mpr hpowered)
  refine ⟨fun k h => ?_, fun h => ?_⟩
  · obtain ⟨ans, dr, hrun, -⟩ := setPower_succeeds (flagOf b) h
    rw [ite_flagOf, ite_flagOf] at hrun
    exact ⟨ans, dr, exec_of_done hexec hrun⟩
  · obtain ⟨ans, dr, hrun⟩ := setPower_lost (flagOf b) h
    rw [ite_flagOf] at hrun
    exact ⟨ans, dr, exec_of_raised hexec hrun⟩

/-! INIT (40 R134, R135, R140) -/

theorem exec_init_uninitialized {s : State} (h : s.pstate = .uninitialized) :
    exec .init s = .next (initSequence s).finish :=
  congrArg _ (if_pos h)

/-- Settles O54: refused by the admission table, or INIT's body with all its transactions sent or
with some sent and the next one lost. -/
theorem initResult : Obligations.InitResult := by
  refine ⟨rfl, fun s => ⟨fun h => exec_not_admitted (beq_eq_false_iff_ne.mpr h), fun h => ?_⟩⟩
  have hexec := exec_init_uninitialized h
  refine ⟨fun ks hlength hsent => ?_, fun ks tr htr hsent hlost => ?_⟩
  · obtain ⟨ans, dr, hrun, hused⟩ := initSequence_succeeds hlength hsent
    exact ⟨ans, dr, exec_of_done hexec hrun, hused⟩
  · obtain ⟨ans, dr, hrun⟩ := initSequence_lost htr hsent hlost
    exact ⟨ans, dr, exec_of_raised hexec hrun⟩

end Sys2Proof.Machine
end

section
/-!
PROOFS, pixels and refresh (41_pixel_refresh.md): `Plot` and the two commands that draw with nothing
else, SETPIXEL and CLEAR; REFRESH, refused, sent whole or lost on the way; and CLRREFRESH as REFRESH of
the cleared grid.
-/

namespace Sys2Proof.Machine

/-! Single cells (41 R160 to R163) -/

theorem plot_outside {x y : Int} (v : Nat) (m : Memory)
    (h : ¬ (0 ≤ x ∧ x ≤ 127 ∧ 0 ≤ y ∧ y ≤ 63)) : plot x y v m = m :=
  if_neg h

/-- Settles O24. -/
theorem plotWritesOneCell : Obligations.PlotWritesOneCell := fun m x y v hwf =>
  ⟨fun _ _ hX hY => cell_plot x y v hwf hX hY, plot_outside v m⟩

/-- Settles O25: SETPIXEL is one `Plot`, which may name no cell of the grid. -/
theorem setpixelResult : Obligations.SetpixelResult := fun s x y level hwf =>
  ⟨formXYB_bytes .setpixel x y level, plot x.toInt y.toInt level.toNat s.grid, rfl,
    fun _ _ hX hY => cell_plot x.toInt y.toInt level.toNat hwf hX hY⟩

/-- Settles O26. -/
theorem clearResult : Obligations.ClearResult :=
  ⟨rfl, fun _ => ⟨clearGrid, rfl, fun X Y _ _ => cell_clearGrid X Y⟩⟩

/-! REFRESH (41 R165, R168) -/

section
variable {s : State} (hpowered : s.pstate = .poweredOff ∨ s.pstate = .poweredOn)
include hpowered

theorem exec_refresh_powered : exec .refresh s = .next (refreshDisplay s).finish :=
  congrArg _ (if_pos ((isPowered_iff s).mpr hpowered))

/-- All 67 transactions sent: status OK, both shadows at the window. -/
theorem exec_refresh_sent {ks : List Nat} (hlength : ks.length = 67) (hsent : AllSucceed s 0 ks) :
    ∃ ans dr,
      exec .refresh s = .next { s with
        bus := s.bus ++ sentTrace (refreshList s.cfg s.grid) s.cfg.retryDelayMs ks
        wincol := some (s.cfg.winFull.colStart, s.cfg.winFull.colEnd)
        winrow := some (s.cfg.winFull.rowStart, s.cfg.winFull.rowEnd)
        status := .ok, answers := ans, drawn := dr } ∧
      UsedAnswers s { s with answers := ans, drawn := dr } (answersUsed ks) := by
  obtain ⟨ans, dr, hrun, hused⟩ := refreshDisplay_succeeds hlength hsent
  exact ⟨ans, dr, exec_of_done (exec_refresh_powered hpowered) hrun, hused⟩

end

/-- Settles O28: refused by the admission table, or `Refresh` with all its transactions sent or with
some sent and the next one lost. -/
theorem refreshResult : Obligations.RefreshResult := by
  refine ⟨rfl, fun s => ⟨fun hoff hon => exec_not_admitted (isPowered_false s hoff hon),
    fun hpowered => ⟨fun ks => exec_refresh_sent hpowered, fun ks tr htr hsent hlost => ?_⟩⟩⟩
  obtain ⟨ans, dr, hrun⟩ := refreshDisplay_lost htr hsent hlost
  exact ⟨ans, dr, exec_of_raised (exec_refresh_powered hpowered) hrun⟩

/-! CLRREFRESH (41 R169) -/

/-- Every byte of a row of the cleared grid is the expansion of level 0 (30 R104). -/
theorem rowBytes_clearGrid (y : Nat) : rowBytes clearGrid y = List.replicate 256 0x00 := by
  refine List.eq_replicate_iff.mpr ⟨rowBytes_length clearGrid y, fun b hb => ?_⟩
  obtain ⟨x, -, hx⟩ := List.mem_flatMap.mp hb
  have hzero : b = expand 0 := by simpa using hx
  exact hzero

/-- CLRREFRESH clears the grid and is then REFRESH, also where that fails. -/
theorem exec_clrrefresh_powered {s : State}
    (hpowered : s.pstate = .poweredOff ∨ s.pstate = .poweredOn) :
    exec .clrrefresh s = exec .refresh { s with grid := clearGrid } := by
  have hclear : exec .clrrefresh s = .next (refreshDisplay { s with grid := clearGrid }).finish :=
    congrArg _ (if_pos ((isPowered_iff s).mpr hpowered))
  exact hclear.trans (exec_refresh_powered (s := { s with grid := clearGrid }) hpowered).symm

/-- The transport's answers do not depend on the grid. -/
theorem AllSucceed.withGrid {s : State} {ks : List Nat} (h : AllSucceed s 0 ks) (g : Memory) :
    AllSucceed { s with grid := g } 0 ks :=
  have hused : UsedAnswers s { s with grid := g } 0 := fun k => by rw [Nat.zero_add]; rfl
  allSucceed_used hused rfl ks h

/-- Settles O29: refused by the admission table with the grid as it was, or REFRESH of the cleared
grid. -/
theorem clrrefreshResult : Obligations.ClrrefreshResult := by
  refine ⟨rfl, clearGrid, fun X Y _ _ => cell_clearGrid X Y, fun y _ => rowBytes_clearGrid y,
    fun s => ⟨fun hoff hon => exec_not_admitted (isPowered_false s hoff hon), fun hpowered =>
      ⟨exec_clrrefresh_powered hpowered, fun ks hlength hsent => ?_⟩⟩⟩
  obtain ⟨ans, dr, hrun, -⟩ := exec_refresh_sent (s := { s with grid := clearGrid }) hpowered
    hlength (hsent.withGrid clearGrid)
  exact ⟨ans, dr, (exec_clrrefresh_powered hpowered).trans hrun⟩

end Sys2Proof.Machine
end

section
/-!
PROOFS, glyphs and strings (42_glyph.md): the glyph bit as a bit of the font, then the four commands, each
from what its drawing procedure leaves in a cell; DRAWSTRC also as REFRESH of the centred grid.
-/

namespace Sys2Proof.Machine

/-! Single glyphs (42 R180 to R183) -/

/-- Every glyph column below 6 is a byte of the font (20 R53, log 17). -/
theorem font_glyphColumn (font : Font) {c : Byte} {k : Nat} (hhigh : c.toNat ≤ 127) (hk : k < 6) :
    font[6 * (c.toNat - 32) + k]? = some (glyphColumn font c k) := by
  have hin : 6 * (c.toNat - 32) + k < 576 := by omega
  simp [glyphColumn, hin]

/-- The glyph bit is one binary digit of its column (42 R180). -/
theorem glyphBit_eq (font : Font) (c : Byte) (k r : Nat) :
    glyphBit font c k r = decide ((glyphColumn font c k).toNat / 2 ^ r % 2 = 1) :=
  Nat.testBit_eq_decide_div_mod_eq

/-- Settles O30: the glyph bit is read from a byte of the font, and DRAWCHAR is one plain glyph. -/
theorem drawcharResult : Obligations.DrawcharResult :=
  ⟨fun font c k r _ hhigh hk _ => ⟨glyphColumn font c k, font_glyphColumn font hhigh hk,
      glyphBit_eq font c k r⟩,
    fun s x y c hwf => ⟨formXYB_bytes .drawchar x y c, drawChar s.cfg.font x.toInt y.toInt c s.grid,
      rfl, fun _ _ hX hY => cell_drawChar s.cfg.font x.toInt y.toInt c hwf hX hY⟩⟩

section
variable (x y : S16) (c : Byte) {size : Byte} (color : Byte) (s : State)

theorem exec_drawchars_sized (hsize : 1 ≤ size.toNat ∧ size.toNat ≤ 4) :
    exec (.drawchars x y c size color) s = .next { s with
      grid := drawCharScaled s.cfg.font x.toInt y.toInt c size.toNat color.toNat s.grid
      status := .ok } :=
  congrArg _ (if_neg (by omega))

theorem exec_drawchars_refused (hsize : size.toNat = 0 ∨ 5 ≤ size.toNat) :
    exec (.drawchars x y c size color) s = .next { s with status := .illegalOperand } :=
  congrArg _ (if_pos (by omega))

end

/-- Settles O31: one scaled glyph of a size of 1 to 4, or refused before any cell is written. -/
theorem drawcharsResult : Obligations.DrawcharsResult := fun s x y c size color hwf =>
  ⟨formXYBBB_bytes .drawchars x y c size color,
    fun hsize => ⟨_, exec_drawchars_sized x y c color s hsize,
      fun _ _ hX hY => cell_drawCharScaled s.cfg.font x.toInt y.toInt c _ _ hwf hX hY⟩,
    exec_drawchars_refused x y c color s⟩

/-! DRAWSTRC (42 R184, R185) -/

/-- DRAWSTRC draws the centred string on the cleared grid and is then REFRESH, also where that fails. -/
theorem exec_drawstrc_powered (str : List Byte) {s : State}
    (hpowered : s.pstate = .poweredOff ∨ s.pstate = .poweredOn) :
    exec (.drawstrc str) s = exec .refresh { s with grid := centredGrid s.cfg.font str } := by
  have hdraw : exec (.drawstrc str) s =
      .next (refreshDisplay { s with grid := centredGrid s.cfg.font str }).finish :=
    congrArg _ (if_pos ((isPowered_iff s).mpr hpowered))
  exact hdraw.trans
    (exec_refresh_powered (s := { s with grid := centredGrid s.cfg.font str }) hpowered).symm

/-- Settles O32: refused by the admission table with the grid as it was, or REFRESH of the grid with the
centred string. -/
theorem drawstrcResult : Obligations.DrawstrcResult := by
  refine fun str => ⟨rfl, fun s => ⟨fun hoff hon => exec_not_admitted (isPowered_false s hoff hon),
    fun hpowered => ?_⟩⟩
  have hexec := exec_drawstrc_powered str hpowered
  refine ⟨centredGrid s.cfg.font str, fun _ _ hX hY => cell_centredGrid s.cfg.font str hX hY, hexec,
    fun ks hlength hsent => ?_⟩
  obtain ⟨ans, dr, hrun, -⟩ := exec_refresh_sent
    (s := { s with grid := centredGrid s.cfg.font str }) hpowered hlength (hsent.withGrid _)
  exact ⟨ans, dr, hexec.trans hrun⟩

/-! DRAWSTROFF (42 R186, R187) -/

/-- Settles O33: DRAWSTROFF is `DrawStringAtOffset` on the grid as it was, a clear of the band and the
string in it. -/
theorem drawstroffResult : Obligations.DrawstroffResult := fun s y offset str hwf =>
  ⟨formXYS_bytes .drawstroff y offset str,
    drawStringAtOffset s.cfg.font str y.toInt offset.toInt s.grid, rfl,
    fun _ _ hX hY => cell_drawStringAtOffset s.cfg.font str y.toInt offset.toInt hwf hX hY⟩

end Sys2Proof.Machine
end

section
/-!
PROOFS, text (43_text.md): the five commands that set text registers; PRINTCHAR in its three cases,
newline, skipped and drawn; PRINTSTR peeled by one byte; and DRAWSTR from what its loop leaves in a cell.
-/

namespace Sys2Proof.Machine

/-! The text registers (43 R200 to R204) -/

/-- Settles O34. -/
theorem txtinitResult : Obligations.TxtinitResult := ⟨rfl, fun _ => rfl⟩

/-- Settles O35: the operands are the register values, with no check of where the cursor is. -/
theorem setcursorResult : Obligations.SetcursorResult := fun _ x y =>
  ⟨formXY_bytes .setcursor x y, rfl⟩

section
variable {b : Byte} (s : State)

theorem exec_setsize_accepted (hsize : 1 ≤ b.toNat ∧ b.toNat ≤ 4) :
    exec (.setsize b) s = .next { s with
      tc := { s.tc with size := BitVec.ofNat 3 b.toNat }, status := .ok } :=
  congrArg _ (if_neg (by omega))

theorem exec_setsize_refused (hsize : b.toNat = 0 ∨ 5 ≤ b.toNat) :
    exec (.setsize b) s = .next { s with status := .illegalOperand } :=
  congrArg _ (if_pos (by omega))

end

/-- Settles O36: a size of 1 to 4 fits the three bits of its register; any other is refused. -/
theorem setsizeResult : Obligations.SetsizeResult := fun s b =>
  ⟨rfl, fun hsize => ⟨BitVec.ofNat 3 b.toNat, exec_setsize_accepted s hsize,
      (BitVec.toNat_ofNat ..).trans (Nat.mod_eq_of_lt (by omega))⟩,
    exec_setsize_refused s⟩

/-- Settles O37: the two bits of the register hold the operand modulo 4. -/
theorem setcolorResult : Obligations.SetcolorResult := fun _ b =>
  ⟨rfl, low2 b.toNat, rfl, BitVec.toNat_ofNat b.toNat 2⟩

/-- A flag operand is set exactly where the byte's value is not 0. -/
theorem flagOf_eq_decide (b : Byte) : flagOf b = decide (b.toNat ≠ 0) := by
  have hne : flagOf b = true ↔ b.toNat ≠ 0 := bne_iff_ne.trans BitVec.toNat_ne_iff_ne.symm
  exact Bool.eq_iff_iff.mpr (hne.trans decide_eq_true_iff.symm)

/-- Settles O38. -/
theorem setwrapResult : Obligations.SetwrapResult := fun _ b =>
  ⟨rfl, flagOf_eq_decide b ▸ rfl⟩

/-! PRINTCHAR (43 R206 to R208) -/

/-- The text context a byte other than newline is placed with: the line is broken first when wrap is on
and the glyph's box would pass the right edge (43 R206, R207). -/
def placedAt (bits : Nat) (tc : TextContext) : TextContext :=
  if tc.wrap = true ∧ tc.cx + 6 * tc.size.toNat > 128 then breakLine bits tc else tc

/-- Placing moves the cursor only. -/
theorem placedAt_size (bits : Nat) (tc : TextContext) : (placedAt bits tc).size = tc.size := by
  unfold placedAt; split <;> rfl

theorem placedAt_color (bits : Nat) (tc : TextContext) : (placedAt bits tc).color = tc.color := by
  unfold placedAt; split <;> rfl

/-- `PrintChar`'s own wrap test leaves the context of `placedAt`. -/
theorem wrapTest_eq_placedAt (bits : Nat) (tc : TextContext) :
    (if tc.wrap && passesEdge tc.cx tc.size.toNat then breakLine bits tc else tc) =
      placedAt bits tc := by
  simp [placedAt, passesEdge]

theorem exec_printchar (c : Byte) (s : State) :
    exec (.printchar c) s = .next (complete (printChar c s)) := rfl

section
variable {c : Byte} {s : State}

theorem exec_printchar_newline (hc : c = 10) :
    exec (.printchar c) s = .next { s with
      tc := breakLine s.cfg.coordBits s.tc, status := .ok } := by
  subst hc; rfl

/-- `PrintChar` on a byte other than newline: the row test at the place it has after the wrap test. -/
theorem printChar_placed (hc : c ≠ 10) :
    printChar c s =
      let tc := placedAt s.cfg.coordBits s.tc
      if 64 ≤ tc.cy then { s with tc := tc }
      else { s with
        grid := drawCharScaled s.cfg.font tc.cx tc.cy c s.tc.size.toNat s.tc.color.toNat s.grid
        tc := { tc with cx := wrapTo s.cfg.coordBits (tc.cx + charAdvance s.tc.size.toNat) } } := by
  have hcode : c.toNat ≠ 10 := fun h => hc (byte_of_toNat h)
  simp only [printChar, if_neg hcode, wrapTest_eq_placedAt, placedAt_size, placedAt_color]

/-- At row 64 or past it the byte does no more than the wrap before it, if there was one. -/
theorem exec_printchar_skipped (hc : c ≠ 10) (hrow : 64 ≤ (placedAt s.cfg.coordBits s.tc).cy) :
    exec (.printchar c) s = .next { s with
      tc := placedAt s.cfg.coordBits s.tc, status := .ok } := by
  rw [exec_printchar, (printChar_placed hc).trans (if_pos hrow)]
  rfl

/-- Before row 64 the byte is drawn at its place and the cursor advances from there. -/
theorem exec_printchar_drawn (hc : c ≠ 10) (hrow : (placedAt s.cfg.coordBits s.tc).cy < 64) :
    let tc := placedAt s.cfg.coordBits s.tc
    exec (.printchar c) s = .next { s with
      grid := drawCharScaled s.cfg.font tc.cx tc.cy c s.tc.size.toNat s.tc.color.toNat s.grid
      tc := { tc with cx := wrapTo s.cfg.coordBits (tc.cx + 7 * s.tc.size.toNat) }
      status := .ok } := by
  rw [exec_printchar, (printChar_placed hc).trans (if_neg (Int.not_le.mpr hrow))]
  rfl

end

/-- Settles O39: a newline, a byte skipped at row 64 or past it, or one scaled glyph at its place. -/
theorem printcharResult : Obligations.PrintcharResult := fun _ _ hwf =>
  ⟨rfl, exec_printchar_newline, exec_printchar_skipped, fun hc hrow =>
    ⟨_, exec_printchar_drawn hc hrow, fun _ _ hX hY => cell_drawCharScaled _ _ _ _ _ _ hwf hX hY⟩⟩

/-! PRINTSTR (43 R209) -/

theorem exec_printstr (str : List Byte) (s : State) :
    exec (.printstr str) s = .next (complete (printString str s)) := rfl

/-- PRINTSTR does not see the status that an earlier command left. -/
theorem exec_printstr_complete (str : List Byte) (s : State) :
    exec (.printstr str) (complete s) = exec (.printstr str) s := by
  have hrest : printString str (complete s) = complete (printString str s) :=
    printString_endWith str s .ok
  rw [exec_printstr, hrest]
  rfl

/-- Settles O40: PRINTCHAR of the first byte writes STATUS too, which the rest does not see. -/
theorem printstrIsPrintchars : Obligations.PrintstrIsPrintchars :=
  ⟨fun _ => rfl, fun _ => rfl, fun s c rest =>
    ⟨complete (printChar c s), complete (printString rest (printChar c s)), rfl,
      exec_printstr_complete rest (printChar c s), rfl⟩⟩

/-! DRAWSTR (43 R210) -/

/-- Settles O41: DRAWSTR is its loop from the origin, with the text context left alone. -/
theorem drawstrResult : Obligations.DrawstrResult := fun s x y str hwf =>
  ⟨formXYS_bytes .drawstr x y str, drawStr s.cfg.font s.tc x.toInt x.toInt y.toInt str s.grid, rfl,
    fun _ _ hX hY => cell_drawStr s.cfg.font s.tc x.toInt str x.toInt y.toInt hwf hX hY⟩

end Sys2Proof.Machine
end

section
/-!
PROOFS, scroll lines (44_scroll.md): SCRINIT as one replaced slot; SCRTICK on each kind of slot; the static
line as a redraw that a second one repeats; and the animated line, whose slot after `n` ticks is the `n`-th
place of the ping-pong sweep.
-/

namespace Sys2Proof.Machine

/-! SCRINIT (44 R231, R232) -/

section
variable {slot : Byte} (y : S16) (text : List Byte) {s : State}

theorem exec_scrinit_outside (hk : s.cfg.nScroll ≤ slot.toNat) :
    exec (.scrinit slot y text) s = .next { s with status := .illegalOperand } :=
  congrArg _ (if_pos hk)

theorem exec_scrinit_stored (hk : slot.toNat < s.cfg.nScroll) :
    exec (.scrinit slot y text) s = .next { s with
      scr := s.scr.set slot.toNat (initSlot y text), status := .ok } :=
  congrArg _ (if_neg (Nat.not_le.mpr hk))

/-- The width stored is that of the text kept. -/
theorem initSlot_pw : (initSlot y text).pw = 7 * ((min text.length 63 : Nat) : Int) - 1 := by
  rw [Nat.min_comm, ← List.length_take]; rfl

end

/-- Settles O42: the slot named is replaced whole, or the number is refused. -/
theorem scrinitResult : Obligations.ScrinitResult := fun _ slot y text =>
  ⟨formKYS_bytes .scrinit slot y text, exec_scrinit_outside y text, fun hk =>
    ⟨initSlot y text, exec_scrinit_stored y text hk, rfl, rfl, initSlot_pw y text, rfl, rfl, rfl⟩⟩

/-! SCRTICK (44 R235, R236, R239) -/

theorem dirStep_eq_ite (d : Direction) : dirStep d = if d = .plus then 1 else -1 := by
  cases d <;> rfl

theorem tickOffset_eq_ite (l : Slot) :
    tickOffset l = if l.pw ≤ 128 then -(Int.tdiv (128 - l.pw) 2) else l.offset := by
  by_cases hw : l.pw ≤ 128
  · rw [tickOffset, isStatic_true hw, if_pos hw]; rfl
  · rw [tickOffset, isStatic_false (Int.not_le.mp hw), if_neg hw]; rfl

/-- The slots after a tick of slot `k`: the static branch writes none (44 R236, R237). -/
theorem set_advanceSlot (bits : Nat) {scr : List Slot} {k : Nat} {l : Slot} (hs : scr[k]? = some l) :
    scr.set k (advanceSlot bits l) =
      if l.pw ≤ 128 then scr else scr.set k { l with
        offset := wrapTo bits (l.offset + dirStep l.dir)
        dir := if wrapTo bits (l.offset + dirStep l.dir) ≤ 0 then .plus
          else if l.pw ≤ wrapTo bits (l.offset + dirStep l.dir) + 128 then .minus
          else l.dir } := by
  by_cases hw : l.pw ≤ 128
  · rw [if_pos hw, advanceSlot_static bits (isStatic_true hw), set_getElem?_self hs]
  · rw [if_neg hw, advanceSlot_wide bits (isStatic_false (Int.not_le.mp hw))]

/-- Settles O43: the two refusals, or the band redrawn and the slot advanced. -/
theorem scrtickResult : Obligations.ScrtickResult := by
  refine fun s slot => ⟨rfl, scrtick_outside, fun l hk hs =>
    ⟨scrtick_unset hk hs, fun hv hwf => ⟨_, _, scrtick_valid hk hs hv, ?_, fun X Y hX hY => ?_⟩⟩⟩
  · rw [set_advanceSlot _ hs, dirStep_eq_ite]
  · rw [cell_drawStringAtOffset s.cfg.font l.text l.y (tickOffset l) hwf hX hY, tickOffset_eq_ite]

/-! The static line (44 R237) -/

/-- `DrawStringAtOffset` clears its band first, so drawing the same string there again changes no cell. -/
theorem drawStringAtOffset_idem (font : Font) (str : List Byte) (y offset : Int) {m : Memory}
    (hwf : Memory.wf m = true) :
    drawStringAtOffset font str y offset (drawStringAtOffset font str y offset m) =
      drawStringAtOffset font str y offset m := by
  have hdrawn := wf_drawStringAtOffset font str y offset hwf
  refine grid_ext (wf_drawStringAtOffset font str y offset hdrawn) hdrawn fun X Y hX hY => ?_
  rw [cell_drawStringAtOffset font str y offset hdrawn hX hY,
    cell_drawStringAtOffset font str y offset hwf hX hY]
  split <;> rfl

/-- A tick of a line that fits the grid redraws it and writes no slot. -/
theorem exec_scrtick_static {s : State} {slot : Byte} {l : Slot} (hk : slot.toNat < s.cfg.nScroll)
    (hs : s.scr[slot.toNat]? = some l) (hv : l.valid = true) (hw : l.pw ≤ 128) :
    exec (.scrtick slot) s = .next { s with
      grid := drawStringAtOffset s.cfg.font l.text l.y (tickOffset l) s.grid, status := .ok } := by
  rw [scrtick_valid hk hs hv, advanceSlot_static _ (isStatic_true hw), set_getElem?_self hs]
  rfl

/-- Settles O45: a refusal is met again, and the redraw is of the same string in the same band. -/
theorem staticTickIdempotent : Obligations.StaticTickIdempotent := by
  intro s t slot l hwf hs hw hexec
  rcases Nat.lt_or_ge slot.toNat s.cfg.nScroll with hk | hk
  · cases hv : l.valid with
    | false =>
      cases (scrtick_unset hk hs hv).symm.trans hexec
      exact scrtick_unset (s := refuse .illegalState s) hk hs hv
    | true =>
      cases (exec_scrtick_static hk hs hv hw).symm.trans hexec
      refine (exec_scrtick_static (s := { s with grid := _, status := .ok }) hk hs hv hw).trans ?_
      simp only [drawStringAtOffset_idem _ _ _ _ hwf]
  · cases (scrtick_outside hk).symm.trans hexec
    exact scrtick_outside (s := refuse .illegalOperand s) hk

/-! The animated line (44 R238) -/

/-- The direction in which the offset leaves the `n`-th place of a sweep over `0 .. travel`. -/
def sweepDir (travel n : Nat) : Direction := if n % (2 * travel) < travel then .plus else .minus

/-- The slot of `l` at the `n`-th place of its sweep. -/
def sweepSlot (l : Slot) (n : Nat) : Slot :=
  { l with offset := sweepOffset (l.pw - 128).toNat n, dir := sweepDir (l.pw - 128).toNat n }

theorem sweepOffset_le (travel n : Nat) : sweepOffset travel n ≤ travel := by
  simp only [sweepOffset]; split <;> omega

section
variable {travel : Nat} (h : 1 ≤ travel) (n : Nat)
include h

/-- The place in the period after one tick more. -/
theorem sweep_place_succ :
    (n + 1) % (2 * travel) =
      if n % (2 * travel) + 1 = 2 * travel then 0 else n % (2 * travel) + 1 := by
  have hlt : n % (2 * travel) < 2 * travel := Nat.mod_lt _ (by omega)
  rw [Nat.add_mod_eq_ite, Nat.mod_eq_of_lt (show 1 < 2 * travel by omega)]
  split <;> split <;> omega

/-- One step in the direction of a place leads to the next place. -/
theorem sweepOffset_succ :
    (sweepOffset travel n : Int) + dirStep (sweepDir travel n) = sweepOffset travel (n + 1) := by
  have hlt : n % (2 * travel) < 2 * travel := Nat.mod_lt _ (by omega)
  simp only [sweepOffset, sweepDir, sweep_place_succ h n]
  by_cases hup : n % (2 * travel) < travel
  · rw [if_pos hup, dirStep]; split_ifs <;> omega
  · rw [if_neg hup, dirStep]; split_ifs <;> omega

/-- The direction turns where the sweep reaches an end, and only there. -/
theorem sweepDir_succ :
    sweepDir travel (n + 1) =
      if sweepOffset travel (n + 1) ≤ 0 then .plus
      else if travel ≤ sweepOffset travel (n + 1) then .minus
      else sweepDir travel n := by
  have hlt : n % (2 * travel) < 2 * travel := Nat.mod_lt _ (by omega)
  simp only [sweepOffset, sweepDir, sweep_place_succ h n]
  rcases Nat.lt_trichotomy (n % (2 * travel) + 1) travel with hrise | htop | hfall
  · simp (disch := omega) only [if_pos, if_neg]
  · simp (disch := omega) only [if_pos, if_neg]
  · by_cases hend : n % (2 * travel) + 1 = 2 * travel
    · simp (disch := omega) only [if_pos]
    · simp (disch := omega) only [if_neg]

end

section
variable {bits : Nat} {l : Slot}

theorem sweepSlot_zero (hw : 128 < l.pw) (h0 : l.offset = 0) (hd : l.dir = .plus) :
    sweepSlot l 0 = l := by
  have hoff : sweepOffset (l.pw - 128).toNat 0 = 0 := by simp [sweepOffset]
  have hdir : sweepDir (l.pw - 128).toNat 0 = .plus := by
    rw [sweepDir, Nat.zero_mod, if_pos (by omega)]
  rw [sweepSlot, hoff, hdir, ← hd, Nat.cast_zero, ← h0]

/-- A tick takes the slot to the next place of its sweep; the register holds every offset of the sweep
where it holds the width (44 R236, R238). -/
theorem advanceSlot_sweepSlot (hw : 128 < l.pw) (hin : InCoord bits l.pw) (n : Nat) :
    advanceSlot bits (sweepSlot l n) = sweepSlot l (n + 1) := by
  have htravel : 1 ≤ (l.pw - 128).toNat := by omega
  have hle := sweepOffset_le (l.pw - 128).toNat (n + 1)
  have hnext : wrapTo bits ((sweepSlot l n).offset + dirStep (sweepSlot l n).dir) =
      sweepOffset (l.pw - 128).toNat (n + 1) := by
    rw [sweepSlot, sweepOffset_succ htravel]
    have hzero := inCoord_zero bits
    exact wrapTo_of_range (one_le_bits hin (by omega)) (by constructor <;> omega)
  have hstatic : isStatic (sweepSlot l n) = false := isStatic_false hw
  rw [advanceSlot_wide bits hstatic, hnext, sweepSlot, sweepSlot, sweepDir_succ htravel]
  congr 1
  dsimp only
  exact if_congr (by omega) rfl (if_congr (by omega) rfl rfl)

theorem iterate_advanceSlot_eq_sweepSlot (hw : 128 < l.pw) (hin : InCoord bits l.pw) (h0 : l.offset = 0)
    (hd : l.dir = .plus) (n : Nat) : (advanceSlot bits)^[n] l = sweepSlot l n := by
  induction n with
  | zero => exact (sweepSlot_zero hw h0 hd).symm
  | succ n ih => rw [Function.iterate_succ_apply', ih, advanceSlot_sweepSlot hw hin]

theorem advanceSlot_valid (bits : Nat) (l : Slot) : (advanceSlot bits l).valid = l.valid := by
  unfold advanceSlot; split <;> rfl

end

/-- `n` ticks of a valid slot all complete and advance the slot `n` times, whatever else they draw. -/
theorem execTimes_scrtick {slot : Byte} (n : Nat) {s : State} {l : Slot}
    (hk : slot.toNat < s.cfg.nScroll) (hs : s.scr[slot.toNat]? = some l) (hv : l.valid = true) :
    ∃ t, execTimes (.scrtick slot) n s = .next t ∧
      t.scr[slot.toNat]? = some ((advanceSlot s.cfg.coordBits)^[n] l) := by
  induction n generalizing s l with
  | zero => exact ⟨s, rfl, hs⟩
  | succ n ih =>
    have hlen : slot.toNat < s.scr.length := (List.getElem?_eq_some_iff.mp hs).1
    simp only [execTimes, scrtick_valid hk hs hv]
    exact ih hk (List.getElem?_set_self hlen) ((advanceSlot_valid _ l).trans hv)

/-- Settles O44: the ticks complete, and the `n`-th leaves the slot at place `n` of the sweep. -/
theorem scrollPingPong : Obligations.ScrollPingPong := by
  intro s slot l n hk hs hv hw hin h0 hd
  obtain ⟨t, hrun, hslot⟩ := execTimes_scrtick n hk hs hv
  rw [iterate_advanceSlot_eq_sweepSlot hw hin h0 hd] at hslot
  exact ⟨t, sweepSlot l n, hrun, hslot, rfl, rfl, rfl, rfl, rfl, hv⟩

end Sys2Proof.Machine
end

section
/-!
PROOFS, packed bitmaps (45_blit.md): a blit packet is read by its length alone, and BLIT4 and BLIT2 are one
rectangle of `Plot` each, so a cell holds the level its own pixel packs.
-/

namespace Sys2Proof.Machine

/-- A packet of format F_BLIT is MALFORMED exactly where the length of its data is wrong (30 R93). -/
theorem formBlit_eq_ite (stride : Nat → Nat) (k : S16 → S16 → Byte → Byte → List Byte → Instr)
    (x y : S16) (w h : Byte) (data : List Byte) :
    formBlit stride k (loByte x :: hiByte x :: loByte y :: hiByte y :: w :: h :: data) =
      if data.length = h.toNat * stride w.toNat then .ok (k x y w h data) else .error .malformed := by
  simp only [formBlit, joinBytes_split]

section
variable (x y : S16) {w h : Byte} {data : List Byte} (s : State)

theorem exec_blit4 (hdata : data.length = h.toNat * stride4 w.toNat) :
    exec (.blit4 x y w h data) s = .next { s with
      grid := plotAll (blitDots (pixel4 data w.toNat) x.toInt y.toInt w.toNat h.toNat) s.grid
      status := .ok } :=
  congrArg _ (if_pos hdata)

theorem exec_blit2 (hdata : data.length = h.toNat * stride2 w.toNat) :
    exec (.blit2 x y w h data) s = .next { s with
      grid := plotAll (blitDots (pixel2 data w.toNat) x.toInt y.toInt w.toNat h.toNat) s.grid
      status := .ok } :=
  congrArg _ (if_pos hdata)

end

/-- Settles O46: the level plotted is the upper pair of the pixel's nibble. -/
theorem blitFourResult : Obligations.BlitFourResult := by
  refine fun s x y w h data hwf => ⟨formBlit_eq_ite stride4 .blit4 x y w h data, fun hdata =>
    ⟨_, exec_blit4 x y s hdata, fun X Y hX hY => ?_⟩⟩
  rw [cell_blit _ _ _ _ _ hwf hX hY, low2_pixel4]
  rfl

/-- Settles O47: the level plotted is the pixel's own bit pair. -/
theorem blitTwoResult : Obligations.BlitTwoResult := by
  refine fun s x y w h data hwf => ⟨formBlit_eq_ite stride2 .blit2 x y w h data, fun hdata =>
    ⟨_, exec_blit2 x y s hdata, fun X Y hX hY => ?_⟩⟩
  rw [cell_blit _ _ _ _ _ hwf hX hY, low2_pixel2]
  rfl

end Sys2Proof.Machine
end

section
/-!
PROOFS, exceptions (60_exceptions.md): a command is refused before any part of it runs, or it runs to the
end OK or XFAIL; what `STATUS` says of the rest of the state follows from the two cases.
-/

namespace Sys2Proof.Machine

/-- A command is refused, or it is a procedure run to its end from `s` with what it draws in place
(60 R261); a drawing and HWRESET are procedures that cannot raise XFAIL. -/
theorem Ending.refused_or_run {i : Instr} {s t : State} (h : Ending i s t) :
    (∃ st, isRefusal st = true ∧ t = refuse st s) ∨
      ∃ g tc scr r, Run.Within { s with grid := g, tc := tc, scr := scr } r ∧ t = r.finish := by
  cases h with
  | refused st hst => exact .inl ⟨st, hst, rfl⟩
  | drawn _ g tc scr => exact .inr ⟨g, tc, scr, .done _, ⟨.refl _, rfl⟩, rfl⟩
  | sent _ g _ r hr => exact .inr ⟨g, s.tc, s.scr, r, hr, rfl⟩
  | power b => exact .inr ⟨s.grid, s.tc, s.scr, _, setPower_within _ s, rfl⟩
  | init => exact .inr ⟨s.grid, s.tc, s.scr, _, initSequence_within s, rfl⟩
  | hwreset => exact .inr ⟨s.grid, s.tc, s.scr, .done _, ⟨reached_hwreset s, rfl⟩, rfl⟩

/-- A procedure that runs to its end refuses nothing (60 R261). -/
theorem Run.finish_not_refusal (r : Run) : isRefusal r.finish.status = false := by
  cases r <;> rfl

/-- Settles O17: only a command refused at its start ends with the status of a refusal. -/
theorem refusalChangesOnlyStatus : Obligations.RefusalChangesOnlyStatus := by
  intro i s t h hstatus
  obtain ⟨st, -, rfl⟩ | ⟨_, _, _, r, -, rfl⟩ := (ending_of_exec h).refused_or_run
  · rfl
  · exact absurd hstatus (Bool.eq_false_iff.mp r.finish_not_refusal)

/-- What `STATUS` says of `XFAIL` and the last attempt after a command that began in `s` and ended in `t`
(60 R260). -/
def RecordsXfail (s t : State) : Prop :=
  (t.status = .xfail → t.xfail = true ∧ LastFailed t) ∧ (t.status ≠ .xfail → t.xfail = s.xfail)

theorem recordsXfail_refuse {st : Status} (hst : isRefusal st = true) (s : State) :
    RecordsXfail s (refuse st s) :=
  ⟨fun (hxfail : st = .xfail) => absurd (hxfail ▸ hst) (by decide), fun _ => rfl⟩

/-- A procedure that goes on to its end leaves `XFAIL`; one that raises sets it right after the failing
attempt (40 R122). -/
theorem Run.Within.recordsXfail {s : State} {r : Run} (h : r.Within s) : RecordsXfail s r.finish := by
  cases r with
  | done t => exact ⟨nofun, fun _ => h.2⟩
  | raised t => exact ⟨fun _ => h.2, fun hstatus => absurd rfl hstatus⟩

/-- Settles O18: a refusal leaves `XFAIL`, and every other command is a procedure run to its end. -/
theorem xfailStatusRecord : Obligations.XfailStatusRecord := by
  intro i s t h
  obtain ⟨st, hst, rfl⟩ | ⟨_, _, _, r, hr, rfl⟩ := (ending_of_exec h).refused_or_run
  · exact recordsXfail_refuse hst s
  · exact hr.recordsXfail

end Sys2Proof.Machine
end

section
/-!
PROOFS, reset and hazards (70_reset_and_hazards.md): a reset of the block as one step, with the values of
10 R38; and what a drawing command leaves alone, along the two endings it can have.
-/

namespace Sys2Proof.Machine

/-! Reset of the block (70 R290, R291) -/

theorem step_blockReset {s : State} {later : List Input} (hport : s.port = .blockReset :: later) :
    step s = .next (resetBlock { s with port := later }) := by
  simp only [step, fetch, hport]

/-- No slot is initialised after a reset, whatever its unspecified fields hold (10 R38). -/
theorem afterReset_slots_unset {n : Nat} {cfg : Config} {port : List Input} {answers : List Answer}
    {drawn : Nat} {l : Slot} (hl : l ∈ (State.afterReset n cfg port answers drawn).scr) :
    l.valid = false ∧ l.text = [] := by
  rw [afterReset_scr] at hl
  obtain ⟨k, -, rfl⟩ := List.mem_map.mp hl
  exact ⟨rfl, rfl⟩

/-- Settles O12: the step answers `resetBlock`, and each field of that state is read off. -/
theorem blockResetResult : Obligations.BlockResetResult := fun _ _ hport =>
  ⟨_, step_blockReset hport, rfl, fun _ => afterReset_slots_unset, by simp [resetBlock],
    rfl, rfl, rfl, rfl, rfl, rfl, rfl, rfl, rfl, rfl⟩

/-! Drawing commands (20 R64, 70 R304) -/

/-- A drawing is refused with only `STATUS` written, or it completes with a new grid, text context and
slots; the endings that run the sequencer belong to the other commands. -/
theorem Ending.drawing_frame {i : Instr} {s t : State} (h : Ending i s t) (hdraw : isDrawing i = true) :
    t = { s with grid := t.grid, tc := t.tc, scr := t.scr, status := t.status } := by
  cases h with
  | refused | drawn => rfl
  | sent hi => cases hi.symm.trans hdraw
  | power b hi | init hi | hwreset hi =>
    subst hi
    cases hdraw

/-- Settles O19: every command answers a next state, and a drawing's ending says what it changed. -/
theorem drawingStaysInside : Obligations.DrawingStaysInside := by
  intro i s hdraw
  obtain ⟨t, ht, hend⟩ := exec_ending i s
  exact ⟨t, ht, hend.drawing_frame hdraw, hend.drawing_illegalState hdraw⟩

end Sys2Proof.Machine
end

section
/-!
PROOFS, the waiting step (70_reset_and_hazards.md section 1): what the step does with an empty port.
-/

namespace Sys2Proof.Machine

/-- Settles O8: an empty port fetches nothing, and on nothing the step answers the state it was given. -/
theorem stepWaitsWithoutInput : Obligations.StepWaitsWithoutInput := by
  intro s hport
  have hfetch : fetch s = .nothing := by simp only [fetch, hport]
  simp only [step, hfetch]

end Sys2Proof.Machine
end
